-- ==== Sys2Proof/Word.lean ====
section
/-! DEFINITION. The word types of UGPP: bytes, 32-bit bus words, the colour triples and pixels of the
block memories, and the nonempty byte strings of the LZW dictionary. -/

namespace Sys2Proof

/-- A byte: a colour index, a colour channel, a byte of compressed data. -/
abbrev Byte := BitVec 8

/-- A word of the host bus and of the register window (R18, R60). -/
abbrev Word := BitVec 32

/-- A colour-table entry, "an RGB triple (R, G, B) of three bytes" (R41). -/
structure Rgb where
  r : Byte
  g : Byte
  b : Byte
  deriving DecidableEq, Repr, Inhabited

/-- A canvas pixel, "an RGBA pixel (R, G, B, A) of four bytes" (R45). -/
structure Rgba where
  r : Byte
  g : Byte
  b : Byte
  a : Byte
  deriving DecidableEq, Repr, Inhabited

/-- A byte string of length at least 1: the strings of the LZW dictionary (R48), the string a code emits and the
previous entry P. The empty string cannot be written, so `s[0]` always exists (R11). P has no upper length (R49), and
R48's 4096 bytes for a cell of DICT are an invariant (`dictShort`, `DictPrefixInv.short`); where it ends, R109's entry is held
whole [log 27]. -/
structure Str where
  head : Byte
  tail : List Byte
  deriving DecidableEq, Repr

/-- The bytes of a string, first byte first. -/
def Str.bytes (s : Str) : List Byte := s.head :: s.tail

/-- `len(s)` (R11). -/
def Str.length (s : Str) : Nat := s.tail.length + 1

/-- The single-symbol string `[b]` (R98). -/
def Str.single (b : Byte) : Str := ⟨b, []⟩

/-- `s ++ [b]`: every new dictionary entry is an existing string plus one byte (R109). -/
def Str.snoc (s : Str) (b : Byte) : Str := ⟨s.head, s.tail ++ [b]⟩

end Sys2Proof
end

