-- ==== Sys2Proof/Config.lean ====
section
/-! DEFINITION. What an implementation of UGPP fixes (the parameters of R7) and what the spec leaves open
(the free values). -/

namespace Sys2Proof

/-- The open implementation parameters of R7, R54. A machine's parameters stand in `State.cfg` and no step
changes them, so a claim about every state is a claim about every implementation. -/
structure Config where
  /-- `UGPP_BASE`: where the platform places the host window (R54). -/
  base : Nat
  /-- `CDATA_BYTES`: bytes of the compressed-data memory. -/
  cdataBytes : Nat
  /-- `PIX_MAX`: the largest image-block pixel count IW×IH. -/
  pixMax : Nat
  /-- `CANVAS_PIX_MAX`: the largest canvas pixel count SW×SH. -/
  canvasPixMax : Nat
  /-- `MCS_LO`: the smallest accepted LZW minimum code size. -/
  mcsLo : Nat
  deriving DecidableEq, Repr

/-- The defaults of R7: buffers of 2^20, MCS_LO = 3. DESIGN CHOICE, safe: `base` = 0, the spec leaves UGPP_BASE to
the platform [log 1]. -/
def Config.default : Config := ⟨0, 2 ^ 20, 2 ^ 20, 2 ^ 20, 3⟩

/-- The ranges R7 gives the parameters: sizes in 1..2^24, and MCS_LO at least 2 ("a model that must accept 2
sets 2") and at most MCS_HI. -/
def Config.valid (c : Config) : Bool :=
  (1 ≤ c.cdataBytes && c.cdataBytes ≤ 2 ^ 24) && (1 ≤ c.pixMax && c.pixMax ≤ 2 ^ 24) &&
  (1 ≤ c.canvasPixMax && c.canvasPixMax ≤ 2 ^ 24) && (2 ≤ c.mcsLo && c.mcsLo ≤ 8)

namespace Config

/-- `WMAX`: the largest LZW code width, fixed 12 (R7). -/
def wMax : Nat := 12
/-- `DMAX`: the largest dictionary count, fixed 4096 (R7). -/
def dMax : Nat := 4096
/-- `MCS_HI`: the largest accepted minimum code size, fixed 8 (R7). -/
def mcsHi : Nat := 8
/-- `CT_MAX`: entries of each colour-table memory, fixed 256 (R7). -/
def ctMax : Nat := 256
/-- `BR_NMAX`: the largest bit count of one BITREAD, 16 (R7). -/
def brNMax : Nat := 16
/-- `CTRL_EARLY_RESET_RV` = 1 (R7). -/
def ctrlEarlyResetRv : Bool := true
/-- `CTRL_STRICT_RV` = 0 (R7). -/
def ctrlStrictRv : Bool := false
/-- The host window is 2^28 bytes (R54). -/
def windowBytes : Nat := 2 ^ 28

/-- Free values (R62, R186): the `n`-th unspecified word a host read returns. No body: nothing is known of it.
DESIGN CHOICE, safe: drawn with the counter `State.draws` [log 2]. -/
opaque freeWord : Nat → Word

/-- `delayToFloat : ℚ → Float`, the host's conversion of the exact delay (R161, D43): assumed to depend on its
argument alone, so it has no body. -/
opaque delayToFloat : ℚ → Float

end Config
end Sys2Proof
end

