-- ==== Sys2Proof/Syntax.lean ====
section
/-! DEFINITION. The instructions of UGPP: one constructor per row of spec/opcode_table.json. A command takes no
operand field (R73); an LZW code class carries the width it is read at and the code (R74); a disposal code is its
three bits DISP = PACKED[4:2] and nothing else (R79, R80). -/

namespace Sys2Proof

/-- The rows of the opcode table, in its order. -/
inductive Instr where
  /-- NOP, OP 0x0 (R85). -/
  | nop
  /-- SRESET, OP 0x1 (R86). -/
  | sreset
  /-- NEWSTREAM, OP 0x2 (R87). -/
  | newstream
  /-- BITREAD, OP 0x3 (R88). -/
  | bitread
  /-- DECODE, OP 0x4 (R89). -/
  | decode
  /-- REORDER, OP 0x5 (R90). -/
  | reorder
  /-- COMPOSE, OP 0x6 (R91). -/
  | compose
  /-- FRAME, OP 0x7 (R92). -/
  | frame
  /-- RESERVED_OP: RES = 0 and OP in 0x8..0xF (R71). -/
  | reservedOp (op : BitVec 4)
  /-- RESERVED_RES: RES = CMD[31:4] not 0, any OP (R72). -/
  | reservedRes (res : BitVec 28) (op : BitVec 4)
  /-- LZW_CLEAR: the code 2^MCS (R103). -/
  | lzwClear (width : Nat) (code : Nat)
  /-- LZW_END: the code 2^MCS + 1 (R104). -/
  | lzwEnd (width : Nat) (code : Nat)
  /-- LZW_DICT: a code below N, not clear or end (R105). -/
  | lzwDict (width : Nat) (code : Nat)
  /-- LZW_KWKWK: the code N with a previous entry (R106). -/
  | lzwKwkwk (width : Nat) (code : Nat)
  /-- LZW_INVALID: any other code (R107). -/
  | lzwInvalid (width : Nat) (code : Nat)
  /-- DISP_UNSPECIFIED, DISP 0 (R130). -/
  | dispUnspecified
  /-- DISP_DONOTDISPOSE, DISP 1 (R131). -/
  | dispDoNotDispose
  /-- DISP_RESTOREBACKGROUND, DISP 2 (R132). -/
  | dispRestoreBackground
  /-- DISP_RESTORETOPREVIOUS, DISP 3 (R133). -/
  | dispRestoreToPrevious
  /-- DISP_RESERVED_4 (R130). -/
  | dispReserved4
  /-- DISP_RESERVED_5 (R130). -/
  | dispReserved5
  /-- DISP_RESERVED_6 (R130). -/
  | dispReserved6
  /-- DISP_RESERVED_7 (R130). -/
  | dispReserved7
  deriving DecidableEq, Repr

end Sys2Proof
end

