-- ==== Sys2Proof/WellFormed.lean ====
section
/-! DEFINITION. Which instructions are well formed: the checks on their fields that hold whatever the decoder's
state, and the class conditions of an LZW code in the decoder's state (R76). -/

namespace Sys2Proof

/-- The part of the decoder's state that gives a code its class: MCS, W, N, and whether P exists (R76). -/
structure CodeCtx where
  mcs : Nat
  width : Nat
  count : Nat
  hasPrev : Bool
  deriving DecidableEq, Repr

/-- A W-bit code: W is between MCS + 1 ≥ 3 and 12 (R75, R77), and the code fits in W bits (R74). -/
def codeFits (width code : Nat) : Bool := 3 ≤ width && width ≤ Config.wMax && code < 2 ^ width

/-- The minimum code sizes UGPP can be configured for, 2..8 (R7, R75), of which `code` is the clear code. -/
def isClearCode (code : Nat) : Bool := [2, 3, 4, 5, 6, 7, 8].any fun mcs => code == 2 ^ mcs

/-- The checks on an instruction's own fields. -/
def Instr.wellFormed : Instr → Bool
  | .nop | .sreset | .newstream | .bitread | .decode | .reorder | .compose | .frame => true
  | .reservedOp op => 8 ≤ op.toNat
  | .reservedRes res _ => res != 0
  | .lzwClear w c => codeFits w c && isClearCode c
  | .lzwEnd w c => codeFits w c && (1 ≤ c && isClearCode (c - 1))
  | .lzwDict w c | .lzwKwkwk w c | .lzwInvalid w c => codeFits w c
  | .dispUnspecified | .dispDoNotDispose | .dispRestoreBackground | .dispRestoreToPrevious => true
  | .dispReserved4 | .dispReserved5 | .dispReserved6 | .dispReserved7 => true

/-- The class conditions of R76, for an LZW code in a decoder's state; every other instruction stands in any
context. -/
def Instr.inContext (x : CodeCtx) : Instr → Bool
  | .lzwClear w c => w == x.width && c == 2 ^ x.mcs
  | .lzwEnd w c => w == x.width && c == 2 ^ x.mcs + 1
  | .lzwDict w c => w == x.width && c < x.count && c != 2 ^ x.mcs && c != 2 ^ x.mcs + 1
  | .lzwKwkwk w c => w == x.width && c == x.count && x.hasPrev && c != 2 ^ x.mcs && c != 2 ^ x.mcs + 1
  | .lzwInvalid w c =>
    w == x.width && (x.count < c || c == x.count && !x.hasPrev) && c != 2 ^ x.mcs && c != 2 ^ x.mcs + 1
  | .nop | .sreset | .newstream | .bitread | .decode | .reorder | .compose | .frame => true
  | .reservedOp _ | .reservedRes _ _ => true
  | .dispUnspecified | .dispDoNotDispose | .dispRestoreBackground | .dispRestoreToPrevious => true
  | .dispReserved4 | .dispReserved5 | .dispReserved6 | .dispReserved7 => true

end Sys2Proof
end

