-- ==== Sys2Proof/Decode.lean ====
section
/-! DEFINITION. The decoder, total on any encoded datum and rejecting by name, then the encoder. Three kinds of
datum are encoded: a command word, an LZW code and a GCE packed byte (30_encoding.md). -/

namespace Sys2Proof

/-- An encoded instruction as the hardware holds it: a 32-bit command word (R70), a code of `width` bits of the
LZW stream (R74), or a GCE packed byte (R79). -/
inductive Encoded where
  | command (w : Word)
  | code (width : Nat) (value : Nat)
  | packed (b : Byte)
  deriving DecidableEq, Repr

/-- Why the decoder rejects a datum. -/
inductive Reject where
  /-- The code was not cut at the decoder's current width: the stream can be cut only from its state (R74). -/
  | wrongWidth
  /-- The value has more bits than the code's width. -/
  | codeTooWide
  /-- Neither a command word (4 bytes) nor a packed byte (1 byte) has this many bytes. -/
  | badLength
  deriving DecidableEq, Repr

/-- The command word (R70 to R72): RES = CMD[31:4], OP = CMD[3:0]. RES is tested first: with RES not 0 the word
is BADCMD "whatever its OP". -/
def decodeCommand (w : Word) : Instr :=
  if w.extractLsb' 4 28 ≠ 0 then .reservedRes (w.extractLsb' 4 28) (w.extractLsb' 0 4)
  else match (w.extractLsb' 0 4).toNat with
    | 0 => .nop
    | 1 => .sreset
    | 2 => .newstream
    | 3 => .bitread
    | 4 => .decode
    | 5 => .reorder
    | 6 => .compose
    | 7 => .frame
    | _ => .reservedOp (w.extractLsb' 0 4)

/-- The class of a code, "tested in this order" (R76). -/
def decodeCode (x : CodeCtx) (c : Nat) : Instr :=
  if c = 2 ^ x.mcs then .lzwClear x.width c
  else if c = 2 ^ x.mcs + 1 then .lzwEnd x.width c
  else if c < x.count then .lzwDict x.width c
  else if c = x.count ∧ x.hasPrev then .lzwKwkwk x.width c
  else .lzwInvalid x.width c

/-- The disposal method code DISP (R80). -/
def decodeDisposal (d : BitVec 3) : Instr :=
  match d.toNat with
  | 0 => .dispUnspecified
  | 1 => .dispDoNotDispose
  | 2 => .dispRestoreBackground
  | 3 => .dispRestoreToPrevious
  | 4 => .dispReserved4
  | 5 => .dispReserved5
  | 6 => .dispReserved6
  | _ => .dispReserved7

/-- DISP = PACKED[4:2]; PACKED[7:5], UI and TF are no part of the code (R79). -/
def packedDisp (b : Byte) : BitVec 3 := b.extractLsb' 2 3

/-- The decoder, in the decoder's state `x` (which only an LZW code needs). -/
def decode (x : CodeCtx) : Encoded → Except Reject Instr
  | .command w => .ok (decodeCommand w)
  | .code width c =>
    if width ≠ x.width then .error .wrongWidth
    else if 2 ^ width ≤ c then .error .codeTooWide
    else .ok (decodeCode x c)
  | .packed b => .ok (decodeDisposal (packedDisp b))

/-- A word of four bytes, byte j in bits [8j+7 : 8j] (R58). -/
def wordOfBytes (b0 b1 b2 b3 : Byte) : Word := b3 ++ b2 ++ b1 ++ b0

/-- Byte lane `j` of a word (R58). -/
def lane (w : Word) (j : Nat) : Byte := w.extractLsb' (8 * j) 8

/-- The decoder on bytes as the hardware stores them: four bytes are a command word, lowest address first (R58),
one byte is a GCE packed byte; any other number is rejected. -/
def decodeBytes (x : CodeCtx) : List Byte → Except Reject Instr
  | [b] => decode x (.packed b)
  | [b0, b1, b2, b3] => decode x (.command (wordOfBytes b0 b1 b2 b3))
  | _ => .error .badLength

/-- The decoder's state in which a 16-bit table word is read as an LZW code: MCS = 3, width 12, N = 10 and a
previous entry, so that every class of R76 has a code. DESIGN CHOICE, safe [log 16]. -/
def tableCodeCtx : CodeCtx := ⟨3, 12, 10, true⟩

/-- The instruction the decoder reads from a row's bits, numbered as the opcode table numbers them: 32 bits are a
command word, 8 bits a GCE packed byte, 16 bits an LZW code in `tableCodeCtx`. -/
def decodeTableWord (nbits w : Nat) : Option Instr :=
  if 2 ^ nbits ≤ w then none
  else if nbits = 32 then
    let v := BitVec.ofNat 32 w
    (decodeBytes tableCodeCtx [lane v 0, lane v 1, lane v 2, lane v 3]).toOption
  else if nbits = 8 then (decodeBytes tableCodeCtx [BitVec.ofNat 8 w]).toOption
  else if nbits = 16 then (decode tableCodeCtx (.code 12 w)).toOption
  else none

/-- The command word of RES and OP (R70). -/
def commandWord (res : BitVec 28) (op : BitVec 4) : Word := res ++ op

/-- The packed byte that holds DISP and 0 in the bits DISP does not own (R79). -/
def packedOfDisp (d : BitVec 3) : Byte := (0 : BitVec 3) ++ d ++ (0 : BitVec 2)

/-- The encoder, from the same tables (R70, R74, R80). -/
def encode : Instr → Encoded
  | .nop => .command (commandWord 0 0)
  | .sreset => .command (commandWord 0 1)
  | .newstream => .command (commandWord 0 2)
  | .bitread => .command (commandWord 0 3)
  | .decode => .command (commandWord 0 4)
  | .reorder => .command (commandWord 0 5)
  | .compose => .command (commandWord 0 6)
  | .frame => .command (commandWord 0 7)
  | .reservedOp op => .command (commandWord 0 op)
  | .reservedRes res op => .command (commandWord res op)
  | .lzwClear w c => .code w c
  | .lzwEnd w c => .code w c
  | .lzwDict w c => .code w c
  | .lzwKwkwk w c => .code w c
  | .lzwInvalid w c => .code w c
  | .dispUnspecified => .packed (packedOfDisp 0)
  | .dispDoNotDispose => .packed (packedOfDisp 1)
  | .dispRestoreBackground => .packed (packedOfDisp 2)
  | .dispRestoreToPrevious => .packed (packedOfDisp 3)
  | .dispReserved4 => .packed (packedOfDisp 4)
  | .dispReserved5 => .packed (packedOfDisp 5)
  | .dispReserved6 => .packed (packedOfDisp 6)
  | .dispReserved7 => .packed (packedOfDisp 7)

/-- How many bits an encoded datum has. -/
def Encoded.bits : Encoded → Nat
  | .command _ => 32
  | .code w _ => w
  | .packed _ => 8

/-- The datum as a number, bit 0 least significant. -/
def Encoded.value : Encoded → Nat
  | .command w => w.toNat
  | .code _ c => c
  | .packed b => b.toNat

end Sys2Proof
end

