-- ==== Sys2Proof/Machine/State.lean ====
section
/-! DEFINITION. The state of UGPP: everything 10_state.md names, plus the model's own interface fields (INVENTORY.md,
'## State'), and the state right after power-on reset (R53). Each register is a structure of its fields: the fields
not listed are reserved and read 0 and ignore writes (R19), so they hold nothing. -/

namespace Sys2Proof.Machine

/-- A block memory: (index, value) pairs, indices strictly rising; an index not listed holds ⊥ (R11, R53). A memory
of bytes is a list of `Host.Cell`. -/
abbrev Mem (α : Type) := List (Nat × α)

/-- CTRL (R20). -/
structure Ctrl where
  ie : Bool
  earlyReset : Bool
  strict : Bool
  deriving DecidableEq, Repr

/-- STATUS.ERRCODE (R166); the codes 5–15 are never written. -/
inductive ErrCode where
  | none
  | badcmd
  | cfg
  | brrange
  | lzwcode
  deriving DecidableEq, Repr

/-- STATUS.STOP (R22, R113); the values 5–7 are never written. -/
inductive Stop where
  | none
  | endCode
  | count
  | input
  | invalid
  deriving DecidableEq, Repr

/-- STATUS (R22) but for BUSY, which is the engine phase (R50). -/
structure Status where
  done : Bool
  err : Bool
  ovr : Bool
  errcode : ErrCode
  stop : Stop
  deriving DecidableEq, Repr

/-- WARN (R23, R170). -/
structure Warn where
  underrun : Bool
  badidx : Bool
  exhaust : Bool
  deriving DecidableEq, Repr

/-- IMG_CFG (R28). -/
structure ImgCfg where
  mcs : BitVec 4
  ilace : Bool
  lctEn : Bool
  gceV : Bool
  lctExp : BitVec 3
  deriving DecidableEq, Repr

/-- The configuration registers, those a command's snapshot copies (R51): CTRL, SCR_SIZE (R24), SCR_CFG (R25),
IMG_POS (R26), IMG_SIZE (R27), IMG_CFG, GCE (R29), CLEN (R30), BR_OFF (R31) and BR_N (R32). -/
structure Conf where
  ctrl : Ctrl
  sw : BitVec 16
  sh : BitVec 16
  lsd : Byte
  bgIdx : Byte
  aspect : Byte
  left : BitVec 16
  top : BitVec 16
  iw : BitVec 16
  ih : BitVec 16
  imgCfg : ImgCfg
  packed : Byte
  tidx : Byte
  delay : BitVec 16
  clen : BitVec 25
  brOff : BitVec 32
  brN : BitVec 5
  deriving DecidableEq, Repr

/-- The LZW working registers (R49), which LZW_DBG, LZW_POS and PCNT show (R34 to R36): W, N, P, POS, OUTN.
The numbers are naturals because the rules compute with unbounded naturals (R9); that they fit their registers is
an invariant [log 22]. -/
structure Lzw where
  w : Nat
  n : Nat
  p : Option Str
  pos : Nat
  outn : Nat
  deriving DecidableEq, Repr

/-- FRAME_INFO (R38). -/
structure FrameInfo where
  lastDisp : BitVec 3
  keepV : Bool
  deriving DecidableEq, Repr

/-- DLY (R39). -/
structure Dly where
  cs : BitVec 16
  tick : Bool
  clamp : Bool
  deriving DecidableEq, Repr

/-- The eight commands (R70). -/
inductive Op where
  | nop
  | sreset
  | newstream
  | bitread
  | decode
  | reorder
  | compose
  | frame
  deriving DecidableEq, Repr

/-- Where the engine stands inside a command: the sub-phases of R92 and the loops of the units (R184) [log 7]. -/
inductive Point where
  /-- Accepted, nothing done yet. -/
  | start
  /-- The decode loop, before a step of R100. -/
  | lzw
  /-- The decode loop has stopped; the warning of R114 is still to come. -/
  | lzwEnd
  /-- The decode is over: error, completion, or FRAME's next sub-phase (R89, R92). -/
  | lzwExit
  /-- FRAME's sub-phase REORDER (R92). -/
  | reorder
  /-- Resolve, Delay, Table, Background (R124). -/
  | resolve
  /-- Seed (R129). -/
  | seed
  /-- Paint (R135), at canvas cell `k` with `j` cells of RBUF consumed. -/
  | paint (k j : Nat)
  /-- Emit (R138). -/
  | emit
  deriving DecidableEq, Repr

/-- The engine phase (R50). -/
inductive Phase where
  | idle
  | busy (op : Op) (at_ : Point)
  deriving DecidableEq, Repr

/-- The two agents (R8). -/
inductive Agent where
  | host
  | engine
  deriving DecidableEq, Repr

/-- What the host does (R82, R165). Addresses are the platform's byte addresses, widths are in bytes; only aligned
32-bit accesses are accepted (R60). -/
inductive HostOp where
  /-- `WR`, `WRW`: a write. -/
  | write (addr width : Nat) (data : Word)
  /-- `RD`, `RDW`: a read; the word goes to `replies`. -/
  | read (addr width : Nat)
  /-- `POLL`: read again until (value AND mask) = value. -/
  | poll (addr : Nat) (mask value : Word)
  /-- The host's test of R160: read a word and, if a masked bit is set, issue none of the remaining operations
  (R163) [log 19]. -/
  | quitIf (addr : Nat) (mask : Word)
  /-- The power-on reset signal (R165, R181). -/
  | powerOnReset
  deriving DecidableEq, Repr

/-- The names of the block memories (R40 to R48), for faults. -/
inductive MemName where
  | cdata
  | gct
  | lct
  | prev
  | keep
  | dict
  deriving DecidableEq, Repr

/-- The model faults, the three of R174: the machine stops and no later step goes on. -/
inductive Fault where
  /-- The engine read a cell that holds ⊥ where the rule does not handle ⊥ (R172). Raised by BITREAD, DECODE, FRAME
  (CDATA), COMPOSE, FRAME (GCT, LCT, PREV, KEEP). `dict` is raised only in states no run reaches (R116). Safe: hardware reads whatever the cell holds. -/
  | bottomRead (m : MemName) (index : Nat)
  /-- A host access that is not an aligned 32-bit word access (R60, R173). Raised by a host access. Safe: hardware
  answers with a bus error and changes nothing. -/
  | busError (addr width : Nat)
  /-- A host access to CDATA, GCT, LCT, IDXBUF, RBUF or OUT while BUSY (R185). Raised by a host access. Safe: hardware
  goes on with an unknown value. -/
  | memoryWhileBusy (addr : Nat)
  deriving DecidableEq, Repr

/-- Why an instruction has no meaning: none does, every command word, code and disposal has one (R174). -/
inductive Refusal where
  /-- Raised by exec's arm for an instruction not modelled yet. Safe: nothing can be proved of it. -/
  | notModelled (mnemonic : String)
  deriving DecidableEq, Repr

/-- The state of the machine. -/
structure State where
  /-- The implementation parameters (R7); no step changes them [log 1]. -/
  cfg : Config
  /-- The live configuration registers. -/
  conf : Conf
  /-- STATUS. -/
  status : Status
  /-- WARN. -/
  warn : Warn
  /-- BR_VAL.VAL (R33). -/
  brVal : BitVec 16
  /-- The LZW working registers (R49). -/
  lzw : Lzw
  /-- FRAME_NO (R37). -/
  frameNo : Word
  /-- FRAME_INFO. -/
  frameInfo : FrameInfo
  /-- DLY. -/
  dly : Dly
  /-- The engine phase (R50). -/
  phase : Phase
  /-- The snapshot S (R51). -/
  snap : Conf
  /-- CDATA (R40). -/
  cdata : Mem Byte
  /-- GCT (R41). -/
  gct : Mem Rgb
  /-- LCT (R42). -/
  lct : Mem Rgb
  /-- IDXBUF (R43). -/
  idxbuf : Mem Byte
  /-- RBUF (R44). -/
  rbuf : Mem Byte
  /-- CANVAS (R45). -/
  canvas : Mem Rgba
  /-- PREV (R46), the window OUT. -/
  prev : Mem Rgba
  /-- KEEP (R47). -/
  keep : Mem Rgba
  /-- DICT (R48). -/
  dict : Mem Str
  /-- The host's operations not yet performed, in the order it issues them (R64) [log 5]. -/
  host : List HostOp
  /-- Whose turn the next steps are (R190); when empty, the engine's while it is busy, else the host's [log 5]. -/
  sched : List Agent
  /-- The words UGPP has returned to the host, newest first [log 19]. -/
  replies : List Word
  /-- How many free values have been drawn [log 2]. -/
  draws : Nat
  deriving DecidableEq, Repr

/-- The reset values of the configuration registers (R53). -/
def Conf.reset : Conf :=
  { ctrl := ⟨false, Config.ctrlEarlyResetRv, Config.ctrlStrictRv⟩
    sw := 0, sh := 0, lsd := 0, bgIdx := 0, aspect := 0, left := 0, top := 0, iw := 0, ih := 0
    imgCfg := ⟨0, false, false, false, 0⟩
    packed := 0, tidx := 0, delay := 0, clen := 0, brOff := 0, brN := 0 }

/-- The snapshot before the first command. DESIGN CHOICE, unsafe: R53 says unspecified, every field is 0 here
[log 3]. -/
def Conf.unset : Conf :=
  { ctrl := ⟨false, false, false⟩
    sw := 0, sh := 0, lsd := 0, bgIdx := 0, aspect := 0, left := 0, top := 0, iw := 0, ih := 0
    imgCfg := ⟨0, false, false, false, 0⟩
    packed := 0, tidx := 0, delay := 0, clen := 0, brOff := 0, brN := 0 }

/-- The state right after power-on reset (R53, R181), with the default parameters, no host operation pending and
nothing drawn. -/
def State.reset : State :=
  { cfg := Config.default
    conf := Conf.reset
    status := ⟨false, false, false, .none, .none⟩
    warn := ⟨false, false, false⟩
    brVal := 0
    lzw := ⟨0, 0, none, 0, 0⟩
    frameNo := 0
    frameInfo := ⟨2, false⟩
    dly := ⟨0, false, false⟩
    phase := .idle
    snap := Conf.unset
    cdata := [], gct := [], lct := [], idxbuf := [], rbuf := []
    canvas := [], prev := [], keep := [], dict := []
    host := [], sched := [], replies := [], draws := 0 }

end Sys2Proof.Machine
end

