-- ==== Sys2Proof/Machine/Operands.lean ====
section
/-! DEFINITION. The operand forms: what the commands read from the snapshot S (R73), the packed bytes (R78, R79), the
sizes and the resolved fields of a frame (R125 to R127). Every number is the natural its field denotes (R9). -/

namespace Sys2Proof.Machine

/-- `E` = IW × IH, the expected pixel count (R15, R27). -/
def pixelCount (c : Conf) : Nat := c.iw.toNat * c.ih.toNat

/-- SW × SH, the canvas pixel count (R24). -/
def canvasCount (c : Conf) : Nat := c.sw.toNat * c.sh.toNat

/-- 8 × CLEN.LEN, the number of stream bits (R102). -/
def streamBits (c : Conf) : Nat := 8 * c.clen.toNat

/-- The clear code 2^MCS (R75). -/
def clearCode (c : Conf) : Nat := 2 ^ c.imgCfg.mcs.toNat

/-- GCT_F = LSD[7] (R78). -/
def lsdGctFlag (b : Byte) : Bool := b.getLsbD 7
/-- CRES = LSD[6:4] (R78), read by the host only (R164). -/
def lsdCres (b : Byte) : BitVec 3 := b.extractLsb' 4 3
/-- SORT = LSD[3] (R78), read by no rule. -/
def lsdSort (b : Byte) : Bool := b.getLsbD 3
/-- GCT_EXP = LSD[2:0] (R78). -/
def lsdGctExp (b : Byte) : BitVec 3 := b.extractLsb' 0 3

/-- UI = PACKED[1] (R79), read by no rule. -/
def packedUi (b : Byte) : Bool := b.getLsbD 1
/-- TF = PACKED[0] (R79). -/
def packedTf (b : Byte) : Bool := b.getLsbD 0

/-- A table size from its exponent field, 2^(exp + 1) (R73). -/
def tableSize (e : BitVec 3) : Nat := 2 ^ (e.toNat + 1)

/-- The frame's own disposal method (R125). -/
def resolveDisp (c : Conf) : BitVec 3 := if c.imgCfg.gceV then packedDisp c.packed else 2

/-- The frame's transparent index, or none (R125). -/
def resolveTrans (c : Conf) : Option Byte :=
  if c.imgCfg.gceV && packedTf c.packed then some c.tidx else none

/-- The frame's delay (R126). -/
def frameDelay (c : Conf) : Dly :=
  if c.imgCfg.gceV then
    if c.delay = 0 then ⟨10, false, true⟩ else ⟨c.delay, false, false⟩
  else ⟨0, true, false⟩

/-- Which colour table a frame resolves to (R127). -/
inductive TableSel where
  | none
  | globalTable
  | localTable
  deriving DecidableEq, Repr

/-- The active table: "local table if flagged, else global table if flagged, else none" (R127). -/
def tableSel (c : Conf) : TableSel :=
  if c.imgCfg.lctEn then .localTable else if lsdGctFlag c.lsd then .globalTable else .none

/-- TLEN (R127). -/
def tableLen (c : Conf) : Nat :=
  match tableSel c with
  | .none => 0
  | .globalTable => tableSize (lsdGctExp c.lsd)
  | .localTable => tableSize c.imgCfg.lctExp

/-- `Inside(x, y)` (R134), compared as unbounded naturals. -/
def inside (c : Conf) (x y : Nat) : Bool :=
  (c.left.toNat ≤ x && x < c.left.toNat + c.iw.toNat) && (c.top.toNat ≤ y && y < c.top.toNat + c.ih.toNat)

/-- What gives an LZW code its class in a state (R76). -/
def codeCtx (s : State) : CodeCtx := ⟨s.snap.imgCfg.mcs.toNat, s.lzw.w, s.lzw.n, s.lzw.p.isSome⟩

/-- The command a command word selects, if it selects one (R70, R71). -/
def opOf : Instr → Option Op
  | .nop => some .nop
  | .sreset => some .sreset
  | .newstream => some .newstream
  | .bitread => some .bitread
  | .decode => some .decode
  | .reorder => some .reorder
  | .compose => some .compose
  | .frame => some .frame
  | .reservedOp _ | .reservedRes _ _ => none
  | .lzwClear _ _ | .lzwEnd _ _ | .lzwDict _ _ | .lzwKwkwk _ _ | .lzwInvalid _ _ => none
  | .dispUnspecified | .dispDoNotDispose | .dispRestoreBackground | .dispRestoreToPrevious => none
  | .dispReserved4 | .dispReserved5 | .dispReserved6 | .dispReserved7 => none

end Sys2Proof.Machine
end

