-- ==== Sys2Proof/Machine/Flags.lean ====
section
/-! DEFINITION. The flags: BUSY, the interrupt line, the words STATUS and WARN read as, and the write-1-to-clear
writes (R22, R23, R52, R61, R171). -/

namespace Sys2Proof.Machine

/-- STATUS.BUSY: "1 exactly in BUSY(op)" (R50). -/
def busy (s : State) : Bool := s.phase != .idle

/-- The interrupt output, IRQ = STATUS.DONE ∧ CTRL.IE, evaluated continuously on the live CTRL (R52, R171). -/
def irq (s : State) : Bool := s.status.done && s.conf.ctrl.ie

/-- The 4-bit code of ERRCODE (R166). -/
def errCodeBits : ErrCode → BitVec 4
  | .none => 0
  | .badcmd => 1
  | .cfg => 2
  | .brrange => 3
  | .lzwcode => 4

/-- The 3-bit code of STOP (R22). -/
def stopBits : Stop → BitVec 3
  | .none => 0
  | .endCode => 1
  | .count => 2
  | .input => 3
  | .invalid => 4

/-- The word STATUS reads as, with the given STOP field (R22). -/
def statusWord (bsy : Bool) (st : Status) (stop : BitVec 3) : Word :=
  (0 : BitVec 21) ++ stop ++ errCodeBits st.errcode ++ BitVec.ofBool st.ovr ++ BitVec.ofBool st.err ++
    BitVec.ofBool st.done ++ BitVec.ofBool bsy

/-- The word WARN reads as (R23). -/
def warnWord (w : Warn) : Word :=
  (0 : BitVec 29) ++ BitVec.ofBool w.exhaust ++ BitVec.ofBool w.badidx ++ BitVec.ofBool w.underrun

/-- A write of `v` to STATUS: a 1 clears DONE (bit 1) or OVR (bit 3); everything else is read-only (R22). -/
def statusW1c (v : Word) (st : Status) : Status :=
  { st with done := st.done && !v.getLsbD 1, ovr := st.ovr && !v.getLsbD 3 }

/-- A write of `v` to WARN: a 1 clears its bit (R23). -/
def warnW1c (v : Word) (w : Warn) : Warn :=
  ⟨w.underrun && !v.getLsbD 0, w.badidx && !v.getLsbD 1, w.exhaust && !v.getLsbD 2⟩

end Sys2Proof.Machine
end

