-- ==== Sys2Proof/Machine/Ops.lean ====
section
/-! DEFINITION. The named operations every unit is written with: the block memories (R12, R40 to R48), the engine's
reads (R172), the warnings, accepting a command (R83), the checks of R84, and the two ways a command ends:
completion, and completion with an error, which is UGPP's "trap entry" (R167), with the acknowledgement beside it,
its "trap return" (R169). -/

namespace Sys2Proof.Machine

/-! ## Block memories -/

/-- The cell at index `i`, `none` for ⊥. -/
def memGet {α : Type} : Mem α → Nat → Option α
  | [], _ => none
  | (j, w) :: m, i => if j = i then some w else memGet m i

/-- Write a value: the list stays sorted and holds one entry per index. -/
def memSet {α : Type} : Mem α → Nat → α → Mem α
  | [], i, v => [(i, v)]
  | (j, w) :: m, i, v =>
    if i < j then (i, v) :: (j, w) :: m
    else if i = j then (i, v) :: m
    else (j, w) :: memSet m i v

/-- Write ⊥: the entry goes. -/
def memErase {α : Type} : Mem α → Nat → Mem α
  | [], _ => []
  | (j, w) :: m, i => if j = i then m else (j, w) :: memErase m i

/-- Write a cell, ⊥ included (R118 copies ⊥ as ⊥). -/
def memPut {α : Type} (m : Mem α) (i : Nat) : Option α → Mem α
  | some v => memSet m i v
  | none => memErase m i

/-- `for k in [0, n): dst[k] <- src[k]`, ⊥ included; the cells of `dst` from `n` on keep their contents. -/
def memCopy {α : Type} (n : Nat) (src dst : Mem α) : Mem α :=
  src.filter (fun e => e.1 < n) ++ dst.filter (fun e => n ≤ e.1)

/-- `for k in [0, n): dst[k] <- v`; the cells from `n` on keep their contents. -/
def memFill {α : Type} (n : Nat) (v : α) (dst : Mem α) : Mem α :=
  (List.range n).map (fun k => (k, v)) ++ dst.filter (fun e => n ≤ e.1)

/-- The first cell below `n` that holds ⊥, if any. -/
def firstBottom {α : Type} (n : Nat) (m : Mem α) : Option Nat :=
  (List.range n).find? fun k => (memGet m k).isNone

/-- The canonical form of a memory of `size` cells: indices strictly rising and below `size`. (No entry equals what
an unlisted index reads as, because that is ⊥ and an entry holds a value.) -/
def memWf {α : Type} (size : Nat) : Mem α → Bool
  | [] => true
  | [(i, _)] => i < size
  | (i, _) :: (j, w) :: m => i < j && memWf size ((j, w) :: m)

/-- An engine read where the rule does not handle ⊥ (R172). -/
def engineRead {α : Type} (name : MemName) (m : Mem α) (i : Nat) : Except Fault α :=
  match memGet m i with
  | some v => .ok v
  | none => .error (.bottomRead name i)

/-! ## Outcomes -/

/-- The outcome of an operation that may end in a model fault. -/
def asOutcome : Except Fault State → Host.Outcome State Fault Refusal
  | .ok s => .next s
  | .error f => .fault f

/-! ## Warnings, stops and phases -/

/-- `warn(UNDERRUN)` (R12, R170). -/
def warnUnderrun (s : State) : State := { s with warn := { s.warn with underrun := true } }
/-- `warn(BADIDX)` (R12, R170). -/
def warnBadidx (s : State) : State := { s with warn := { s.warn with badidx := true } }
/-- `warn(EXHAUST)` (R12, R170). -/
def warnExhaust (s : State) : State := { s with warn := { s.warn with exhaust := true } }

/-- `stop(reason)` (R12, R113): STATUS.STOP <- reason; the decode loop ends when STOP is not 0. -/
def stopWith (r : Stop) (s : State) : State := { s with status := { s.status with stop := r } }

/-- The engine phase moves on inside the running command. -/
def setPhase (p : Phase) (s : State) : State := { s with phase := p }

/-! ## The end of a command -/

/-- `complete()` (R12, R83): BUSY <- 0, DONE <- 1. -/
def complete (s : State) : State :=
  { s with phase := .idle, status := { s.status with done := true } }

/-- `raise Error(code)`, the "trap entry" (R167): BUSY <- 0, ERR <- 1, ERRCODE <- code, DONE <- 1, phase IDLE, "in one
step"; "Nothing is saved and no mode changes". -/
def raiseError (code : ErrCode) (s : State) : State :=
  { s with phase := .idle, status := { s.status with done := true, err := true, errcode := code } }

/-- The acknowledgement, the "trap return" (R169): a write of `v` to STATUS clears DONE (and OVR) by writing 1. -/
def acknowledge (v : Word) (s : State) : State := { s with status := statusW1c v s.status }

/-! ## The start of a command -/

/-- A CMD write while BUSY: "OVR <- 1; the write is ignored, nothing else changes" (R83, R187). -/
def setOvr (s : State) : State := { s with status := { s.status with ovr := true } }

/-- What every CMD write does first while IDLE (R83): DONE, ERR and ERRCODE <- 0. -/
def clearStatus (s : State) : State :=
  { s with status := { s.status with done := false, err := false, errcode := .none } }

/-- Is STOP set to 0 when this command is accepted? (R22, R83). -/
def clearsStop : Op → Bool
  | .decode | .frame => true
  | .nop | .sreset | .newstream | .bitread | .reorder | .compose => false

/-- A valid command word is accepted (R83): DONE, ERR, ERRCODE <- 0; the snapshot is taken (R51); STOP <- 0 for
DECODE and FRAME; the phase becomes BUSY(op). -/
def accept (op : Op) (s : State) : State :=
  let t := { clearStatus s with snap := s.conf, phase := .busy op .start }
  if clearsStop op then stopWith .none t else t

/-- A reserved command word while IDLE (R71, R72, R83): BADCMD, "completes at once, BUSY stays 0", no snapshot. -/
def rejectCommand (s : State) : State := raiseError .badcmd (clearStatus s)

/-! ## The checks of R84 -/

/-- The rows of R84's table. -/
inductive Check where
  | v1
  | v2
  | v3
  | v4
  | v5
  | v6
  deriving DecidableEq, Repr

/-- "fails when" (R84). -/
def checkFails (c : Check) (p : Config) (s : Conf) : Bool :=
  match c with
  | .v1 => s.imgCfg.mcs.toNat < p.mcsLo || Config.mcsHi < s.imgCfg.mcs.toNat
  | .v2 => p.pixMax < pixelCount s
  | .v3 => p.cdataBytes < s.clen.toNat
  | .v4 => p.canvasPixMax < canvasCount s
  | .v5 => Config.brNMax < s.brN.toNat
  | .v6 => streamBits s < s.brOff.toNat + s.brN.toNat

/-- The code a failing check raises (R84). -/
def checkCode : Check → ErrCode
  | .v1 | .v2 | .v3 | .v4 => .cfg
  | .v5 | .v6 => .brrange

/-- The rows marked for each command, in table order (R84). -/
def checksOf : Op → List Check
  | .decode => [.v1, .v2, .v3]
  | .reorder => [.v2]
  | .compose => [.v2, .v4]
  | .frame => [.v1, .v2, .v3, .v4]
  | .bitread => [.v3, .v5, .v6]
  | .nop | .sreset | .newstream => []

/-- The code of the first failing check of a command, if one fails (R84, R168). -/
def failedCheck (op : Op) (p : Config) (s : Conf) : Option ErrCode :=
  ((checksOf op).find? fun c => checkFails c p s).map checkCode

/-- "Before it does any work, an accepted command checks its snapshot ... the first failing check ends the command ...
and no other state changes" (R84). -/
def checked (op : Op) (work : State → Except Fault State) (s : State) : Except Fault State :=
  match failedCheck op s.cfg s.snap with
  | some code => .ok (raiseError code s)
  | none => work s

/-- A command from the CMD write to its end, with no host operation in between (R83) [log 6]: while BUSY the write only
sets OVR; while IDLE the command is accepted and its body runs to completion. -/
def runCommand (op : Op) (body : State → Except Fault State) (s : State) : Host.Outcome State Fault Refusal :=
  if busy s then .next (setOvr s) else asOutcome (body (accept op s))

/-- A reserved command word (R71, R72): OVR while BUSY, else BADCMD. -/
def runReserved (s : State) : Host.Outcome State Fault Refusal :=
  if busy s then .next (setOvr s) else .next (rejectCommand s)

end Sys2Proof.Machine
end

