-- ==== Sys2Proof/Machine/Compositor.lean ====
section
/-! DEFINITION. The FrameCompositor (44_compositor.md): the colour table, the background, the eight disposal codes
(the seeding multiplexer), painting and emission. -/

namespace Sys2Proof.Machine

/-- `T[i]`, an engine read of the active table (R127); ⊥ is a fault (R172). Without a table no cell is read: black,
which R128 and R135 never ask for. -/
def tableRead (s : State) (i : Nat) : Except Fault Rgb :=
  match tableSel s.snap with
  | .localTable => engineRead .lct s.lct i
  | .globalTable => engineRead .gct s.gct i
  | .none => .ok ⟨0, 0, 0⟩

/-- `Background(T, TLEN, trans)` (R128): T[BG_IDX], or black without a table or with BG_IDX ≥ TLEN; alpha 0 when BG_IDX
is the transparent index, else 255. -/
def background (s : State) : Except Fault Rgba :=
  let alpha : Byte := if resolveTrans s.snap = some s.snap.bgIdx then 0 else 255
  if s.snap.bgIdx.toNat < tableLen s.snap then
    (tableRead s s.snap.bgIdx.toNat).bind fun c => .ok ⟨c.r, c.g, c.b, alpha⟩
  else .ok ⟨0, 0, 0, alpha⟩

/-! ## Seeding (R129 to R133) -/

/-- Every canvas cell starts as bg (R130, R132). -/
def seedBackground (s : State) : Except Fault State :=
  (background s).bind fun bg => .ok { s with canvas := memFill (canvasCount s.snap) bg s.canvas }

/-- `CANVAS[k] <- src[k]` for every k < SW × SH; a ⊥ cell is a fault (R131, R133, R172). -/
def seedCopy (name : MemName) (src : Mem Rgba) (s : State) : Except Fault State :=
  match firstBottom (canvasCount s.snap) src with
  | some k => .error (.bottomRead name k)
  | none => .ok { s with canvas := memCopy (canvasCount s.snap) src s.canvas }

/-- Method 1: the previous frame (R131). -/
def seedPrevious (s : State) : Except Fault State := seedCopy .prev s.prev s

/-- Method 3: the kept frame if KEEP_V = 1, else bg (R133). -/
def seedKept (s : State) : Except Fault State :=
  if s.frameInfo.keepV then seedCopy .keep s.keep s else seedBackground s

/-- `Seed(bg)` by the value of a disposal code (R129). -/
def seedBy (l : BitVec 3) (s : State) : Except Fault State :=
  if l = 1 then seedPrevious s else if l = 3 then seedKept s else seedBackground s

/-- The meaning of DISP_UNSPECIFIED (R130): the next canvas starts as background. -/
def execDispUnspecified (s : State) : Host.Outcome State Fault Refusal := asOutcome (seedBackground s)

/-- The meaning of DISP_DONOTDISPOSE (R131): the next canvas starts as the previous frame. -/
def execDispDoNotDispose (s : State) : Host.Outcome State Fault Refusal := asOutcome (seedPrevious s)

/-- The meaning of DISP_RESTOREBACKGROUND (R132). -/
def execDispRestoreBackground (s : State) : Host.Outcome State Fault Refusal := asOutcome (seedBackground s)

/-- The meaning of DISP_RESTORETOPREVIOUS (R133). -/
def execDispRestoreToPrevious (s : State) : Host.Outcome State Fault Refusal := asOutcome (seedKept s)

/-- The meaning of DISP_RESERVED_4: "method 0/undefined" (R130). -/
def execDispReserved4 (s : State) : Host.Outcome State Fault Refusal := asOutcome (seedBackground s)

/-- The meaning of DISP_RESERVED_5 (R130). -/
def execDispReserved5 (s : State) : Host.Outcome State Fault Refusal := asOutcome (seedBackground s)

/-- The meaning of DISP_RESERVED_6 (R130). -/
def execDispReserved6 (s : State) : Host.Outcome State Fault Refusal := asOutcome (seedBackground s)

/-- The meaning of DISP_RESERVED_7 (R130). -/
def execDispReserved7 (s : State) : Host.Outcome State Fault Refusal := asOutcome (seedBackground s)

/-! ## Painting (R134, R135) -/

/-- What one RBUF cell does to canvas cell `k` inside the rectangle (R135): ⊥ warns EXHAUST, the transparent index
keeps the seed, an index at or past TLEN warns BADIDX, any other index is painted opaque. -/
def paintIndex (k : Nat) (v : Option Byte) (s : State) : Except Fault State :=
  match v with
  | none => .ok (warnExhaust s)
  | some v =>
    if resolveTrans s.snap = some v then .ok s
    else if tableLen s.snap ≤ v.toNat then .ok (warnBadidx s)
    else (tableRead s v.toNat).bind fun c => .ok { s with canvas := memSet s.canvas k ⟨c.r, c.g, c.b, 255⟩ }

/-- One canvas pixel of R135: cell `k` is (x, y) = (k mod SW, k div SW); `j` RBUF cells have been consumed. Gives the
state and the new `j`. -/
def paintCell (k j : Nat) (s : State) : Except Fault (State × Nat) :=
  if inside s.snap (k % s.snap.sw.toNat) (k / s.snap.sw.toNat) then
    (paintIndex k (memGet s.rbuf j) s).bind fun t => .ok (t, j + 1)
  else .ok (s, j)

/-- `Paint` (R135) over `n` canvas cells from cell `k` on, in raster order. -/
def paintFrom : Nat → Nat → Nat → State → Except Fault State
  | 0, _, _, s => .ok s
  | n + 1, k, j, s => (paintCell k j s).bind fun r => paintFrom n (k + 1) r.2 r.1

/-- `Paint(T, TLEN, trans)` (R135). -/
def paint (s : State) : Except Fault State := paintFrom (canvasCount s.snap) 0 0 s

/-! ## Emission (R138) -/

/-- Is a frame of this disposal kept for method 3? (R138: "if disp in {0, 1}"). -/
def keeps (d : BitVec 3) : Bool := d = 0 || d = 1

/-- `Emit(disp, dly)` (R138): PREV, and KEEP with KEEP_V for disposal 0 or 1; LAST_DISP, FRAME_NO + 1 mod 2^32, DLY. -/
def emitFrame (s : State) : State :=
  let d := resolveDisp s.snap
  let n := canvasCount s.snap
  { s with
    prev := memCopy n s.canvas s.prev
    keep := if keeps d then memCopy n s.canvas s.keep else s.keep
    frameInfo := ⟨d, s.frameInfo.keepV || keeps d⟩
    frameNo := s.frameNo + 1
    dly := frameDelay s.snap }

/-- `Compose()` (R124): resolve and background, seed by LAST_DISP, paint, emit. The background is computed before
seeding whatever the method (R124), so its table read can fault [log 21]. -/
def composeFrame (s : State) : Except Fault State :=
  (background s).bind fun _ => (seedBy s.frameInfo.lastDisp s).bind fun t => (paint t).bind fun u => .ok (emitFrame u)

end Sys2Proof.Machine
end

