-- ==== Sys2Proof/Machine/Interlace.lean ====
section
/-! DEFINITION. The InterlaceReorderer (43_interlace.md). -/

namespace Sys2Proof.Machine

/-- The rows start, start + stride, ... below `h`: one pass of R119. -/
def passRows (start stride h : Nat) : List Nat := (List.range h).filter fun d => start ≤ d && (d - start) % stride == 0

/-- `Order(H)` (R119): the destination rows of the source rows 0, 1, ..., H − 1. -/
def rowOrder (h : Nat) : List Nat := passRows 0 8 h ++ passRows 4 8 h ++ passRows 2 4 h ++ passRows 1 2 h

/-- `Dest(s, H)` (R120), the closed form of `Order(H)[s]`, with n1 = ⌊(H + 7) / 8⌋, n2 = ⌊(H + 3) / 8⌋ and
n3 = ⌊(H + 1) / 4⌋. -/
def destRow (s h : Nat) : Nat :=
  let n1 := (h + 7) / 8
  let n2 := (h + 3) / 8
  let n3 := (h + 1) / 4
  if s < n1 then 8 * s
  else if s < n1 + n2 then 8 * (s - n1) + 4
  else if s < n1 + n2 + n3 then 4 * (s - n1 - n2) + 2
  else 2 * (s - n1 - n2 - n3) + 1

/-- The cell of RBUF that cell `k` = s × IW + x of IDXBUF goes to: d × IW + x with d = Dest(s, IH) when interlaced,
`k` when not (R118). -/
def destCell (c : Conf) (k : Nat) : Nat :=
  if c.imgCfg.ilace then destRow (k / c.iw.toNat) c.ih.toNat * c.iw.toNat + k % c.iw.toNat else k

/-- The copies `RBUF[destCell k] <- IDXBUF[k]`, for the given cells in order, ⊥ included (R118). -/
def moveCells (c : Conf) (idxbuf : Mem Byte) : List Nat → Mem Byte → Mem Byte
  | [], rbuf => rbuf
  | k :: ks, rbuf => moveCells c idxbuf ks (memPut rbuf (destCell c k) (memGet idxbuf k))

/-- `Reorder()` (R118): every cell of [0, E), row by row. -/
def reorderRows (s : State) : State :=
  { s with rbuf := moveCells s.snap s.idxbuf (List.range (pixelCount s.snap)) s.rbuf }

end Sys2Proof.Machine
end

