-- ==== Sys2Proof/Machine/BitReader.lean ====
section
/-! DEFINITION. The BitReader (41_bitreader.md). PRESUMED by the spec itself (I1, D6) [log 13]: bits are packed least
significant first. -/

namespace Sys2Proof.Machine

/-- `Bit(k)`: bit (k mod 8) of CDATA byte (k div 8); a ⊥ byte is a fault (R94). -/
def streamBit (cdata : Mem Byte) (k : Nat) : Except Fault Nat :=
  (engineRead .cdata cdata (k / 8)).map fun b => (b.toNat / 2 ^ (k % 8)) % 2

/-- `ReadBits(off, n) = sum over i in [0, n) of Bit(off + i) × 2^i` (R95), first bit first: the sum is
Bit(off) + 2 × ReadBits(off + 1, n − 1). -/
def readBits (cdata : Mem Byte) : Nat → Nat → Except Fault Nat
  | _, 0 => .ok 0
  | off, n + 1 =>
    (streamBit cdata off).bind fun b => (readBits cdata (off + 1) n).bind fun r => .ok (b + 2 * r)

/-- BITREAD's work after its checks (R88): BR_VAL <- ReadBits(OFF, N). -/
def bitreadWork (s : State) : Except Fault State :=
  (readBits s.cdata s.snap.brOff.toNat s.snap.brN.toNat).bind fun v =>
    .ok (complete { s with brVal := BitVec.ofNat 16 v })

end Sys2Proof.Machine
end

