-- ==== Sys2Proof/Machine/Lzw.lean ====
section
/-! DEFINITION. The LzwDecompressor (42_lzw.md): the decode loop, the meanings of the five code classes, emission and
dictionary growth. -/

namespace Sys2Proof.Machine

/-- `DictReset()` (R98): the single-symbol entries, N <- clear + 2, W <- MCS + 1; P, POS, OUTN unchanged. -/
def dictReset (s : State) : State :=
  { s with
    dict := (List.range (clearCode s.snap)).map fun c => (c, Str.single (BitVec.ofNat 8 c))
    lzw := { s.lzw with n := clearCode s.snap + 2, w := s.snap.imgCfg.mcs.toNat + 1 } }

/-- `LzwStart()` (R99): IDXBUF all ⊥, OUTN, POS <- 0, P <- none, then DictReset. -/
def lzwStart (s : State) : State :=
  dictReset { s with idxbuf := [], lzw := { s.lzw with outn := 0, pos := 0, p := none } }

/-- `Emit(s)` (R108): the bytes that fit in E. -/
def emitBytes : List Byte → State → State
  | [], s => s
  | b :: bs, s =>
    if s.lzw.outn < pixelCount s.snap then
      emitBytes bs { s with idxbuf := memSet s.idxbuf s.lzw.outn b, lzw := { s.lzw with outn := s.lzw.outn + 1 } }
    else emitBytes bs s

/-- AddAndGrow, first part (R109): `DICT[N] <- P ++ [s[0]]; N <- N + 1` if P exists and N < 4096; `P <- s`. The entry is held
whole, though in an image of 8390656 pixels or more, after a forced reset that keeps P, it can pass R48's 4096 bytes
[log 27]. -/
def addEntry (str : Str) (s : State) : State :=
  match s.lzw.p with
  | some p =>
    if s.lzw.n < Config.dMax then
      { s with
        dict := memSet s.dict s.lzw.n (p.snoc str.head)
        lzw := { s.lzw with n := s.lzw.n + 1, p := some str } }
    else { s with lzw := { s.lzw with p := some str } }
  | none => { s with lzw := { s.lzw with p := some str } }

/-- AddAndGrow, second part (R110): `if N = 2^W and W < 12: W <- W + 1`. -/
def growWidth (s : State) : State :=
  if s.lzw.n = 2 ^ s.lzw.w ∧ s.lzw.w < Config.wMax then { s with lzw := { s.lzw with w := s.lzw.w + 1 } } else s

/-- AddAndGrow, third part, the forced early reset (R111): at 12 bits and 4096 entries with CTRL.EARLY_RESET the next
12 bits are peeked, and DictReset is done if they are not the clear code; P is kept and POS stays. With EARLY_RESET = 0
nothing is done (R112). -/
def forcedReset (s : State) : Except Fault State :=
  if s.snap.ctrl.earlyReset ∧ s.lzw.w = Config.wMax ∧ s.lzw.n = Config.dMax then
    if s.lzw.pos + 12 ≤ streamBits s.snap then
      (readBits s.cdata s.lzw.pos 12).bind fun peek =>
        if peek ≠ clearCode s.snap then .ok (dictReset s) else .ok s
    else .ok s
  else .ok s

/-- `Emit(s); AddAndGrow(s)`: what a DICT or KWKWK code does with its string (R105, R106). -/
def emitAndGrow (str : Str) (s : State) : Except Fault State :=
  forcedReset (growWidth (addEntry str (emitBytes str.bytes s)))

/-- The rule of an invalid code (R107): `stop(INVALID)` in strict mode, else nothing. -/
def invalidCode (s : State) : State := if s.snap.ctrl.strict then stopWith .invalid s else s

/-- CLEAR (R103): `DictReset(); P <- none`. -/
def clearWork (s : State) : State :=
  let t := dictReset s
  { t with lzw := { t.lzw with p := none } }

/-- DICT (R105): `s <- DICT[c]; Emit(s); AddAndGrow(s)`. -/
def dictWork (c : Nat) (s : State) : Except Fault State :=
  (engineRead .dict s.dict c).bind fun str => emitAndGrow str s

/-- KWKWK (R106): `s <- P ++ [P[0]]; Emit(s); AddAndGrow(s)`. "With c = N and P = none the code is INVALID": without a
previous entry it does what R107 says [log 15]. -/
def kwkwkWork (s : State) : Except Fault State :=
  match s.lzw.p with
  | some p => emitAndGrow (p.snoc p.head) s
  | none => .ok (invalidCode s)

/-- The meaning of LZW_CLEAR (R103). POS was advanced by the read (R102). -/
def execLzwClear (s : State) : Host.Outcome State Fault Refusal := .next (clearWork s)

/-- The meaning of LZW_END (R104): `stop(END)`. -/
def execLzwEnd (s : State) : Host.Outcome State Fault Refusal := .next (stopWith .endCode s)

/-- The meaning of LZW_DICT (R105). -/
def execLzwDict (code : Nat) (s : State) : Host.Outcome State Fault Refusal := asOutcome (dictWork code s)

/-- The meaning of LZW_KWKWK (R106). -/
def execLzwKwkwk (s : State) : Host.Outcome State Fault Refusal := asOutcome (kwkwkWork s)

/-- The meaning of LZW_INVALID (R107). -/
def execLzwInvalid (s : State) : Host.Outcome State Fault Refusal := .next (invalidCode s)

/-- The work of a code, by its class (R100 item 4, R76). -/
def codeWork (c : Nat) (s : State) : Except Fault State :=
  if c = clearCode s.snap then .ok (clearWork s)
  else if c = clearCode s.snap + 1 then .ok (stopWith .endCode s)
  else if c < s.lzw.n then dictWork c s
  else if c = s.lzw.n ∧ s.lzw.p.isSome then kwkwkWork s
  else .ok (invalidCode s)

/-- `POS <- POS + W` (R102). -/
def advancePos (s : State) : State := { s with lzw := { s.lzw with pos := s.lzw.pos + s.lzw.w } }

/-- `LzwStep()` (R100): the count test (R101), the input test and the read (R102), then the code's class. -/
def lzwStep (s : State) : Except Fault State :=
  if pixelCount s.snap ≤ s.lzw.outn then .ok (stopWith .count s)
  else if streamBits s.snap < s.lzw.pos + s.lzw.w then .ok (stopWith .input s)
  else (readBits s.cdata s.lzw.pos s.lzw.w).bind fun c => codeWork c (advancePos s)

/-- `repeat LzwStep() until it stops` (R97), at most `n` steps; R115 bounds the number a decode needs. -/
def lzwLoop : Nat → State → Except Fault State
  | 0, s => .ok s
  | n + 1, s => if s.status.stop = .none then (lzwStep s).bind (lzwLoop n) else .ok s

/-- The most steps a decode makes, 8 × CLEN.LEN div (MCS + 1) + 1 (R115). -/
def lzwBound (c : Conf) : Nat := streamBits c / (c.imgCfg.mcs.toNat + 1) + 1

/-- `if STATUS.STOP != COUNT and OUTN < E: warn(UNDERRUN)` (R97, R114). -/
def underrunCheck (s : State) : State :=
  if s.status.stop ≠ .count ∧ s.lzw.outn < pixelCount s.snap then warnUnderrun s else s

/-- `LzwDecode()` (R97). -/
def lzwDecode (s : State) : Except Fault State :=
  (lzwLoop (lzwBound s.snap) (lzwStart s)).bind fun t => .ok (underrunCheck t)

end Sys2Proof.Machine
end

