-- ==== Sys2Proof/Machine/Commands.lean ====
section
/-! DEFINITION. The commands (40_commands.md). The body of a command is what the engine does from its acceptance (R83) to
its end; a meaning is the whole command, from the CMD write on. -/

namespace Sys2Proof.Machine

/-- NOP: `complete()` (R85). -/
def nopBody (s : State) : Except Fault State := .ok (complete s)

/-- SRESET (R86): every register at its reset value (R53), STATUS = DONE only; the snapshot and every memory are
unchanged. -/
def sresetBody (s : State) : Except Fault State :=
  .ok (complete { s with
    conf := Conf.reset
    status := State.reset.status
    warn := State.reset.warn
    brVal := State.reset.brVal
    lzw := State.reset.lzw
    frameNo := State.reset.frameNo
    frameInfo := State.reset.frameInfo
    dly := State.reset.dly })

/-- NEWSTREAM (R87): the frame history, WARN and DLY are forgotten. -/
def newstreamBody (s : State) : Except Fault State :=
  .ok (complete { s with frameNo := 0, frameInfo := ⟨2, false⟩, warn := ⟨false, false, false⟩, dly := ⟨0, false, false⟩ })

/-- BITREAD (R88). -/
def bitreadBody : State → Except Fault State := checked .bitread bitreadWork

/-- The end of a DECODE (R89): LZWCODE after an INVALID stop, else completion. -/
def decodeEnd (s : State) : State := if s.status.stop = .invalid then raiseError .lzwcode s else complete s

/-- DECODE (R89). -/
def decodeBody : State → Except Fault State :=
  checked .decode fun s => (lzwDecode s).bind fun t => .ok (decodeEnd t)

/-- REORDER (R90). -/
def reorderBody : State → Except Fault State := checked .reorder fun s => .ok (complete (reorderRows s))

/-- COMPOSE (R91). -/
def composeBody : State → Except Fault State :=
  checked .compose fun s => (composeFrame s).bind fun t => .ok (complete t)

/-- FRAME (R92): decode; LZWCODE after an INVALID stop, and then no REORDER or COMPOSE; else reorder, compose and
completion. -/
def frameBody : State → Except Fault State :=
  checked .frame fun s => (lzwDecode s).bind fun t =>
    if t.status.stop = .invalid then .ok (raiseError .lzwcode t)
    else (composeFrame (reorderRows t)).bind fun u => .ok (complete u)

/-- The body of each command. -/
def commandBody : Op → State → Except Fault State
  | .nop => nopBody
  | .sreset => sresetBody
  | .newstream => newstreamBody
  | .bitread => bitreadBody
  | .decode => decodeBody
  | .reorder => reorderBody
  | .compose => composeBody
  | .frame => frameBody

/-- The meaning of NOP (R85). -/
def execNop (s : State) : Host.Outcome State Fault Refusal := runCommand .nop nopBody s

/-- The meaning of SRESET (R86). -/
def execSreset (s : State) : Host.Outcome State Fault Refusal := runCommand .sreset sresetBody s

/-- The meaning of NEWSTREAM (R87). -/
def execNewstream (s : State) : Host.Outcome State Fault Refusal := runCommand .newstream newstreamBody s

/-- The meaning of BITREAD (R88). -/
def execBitread (s : State) : Host.Outcome State Fault Refusal := runCommand .bitread bitreadBody s

/-- The meaning of DECODE (R89). -/
def execDecode (s : State) : Host.Outcome State Fault Refusal := runCommand .decode decodeBody s

/-- The meaning of REORDER (R90). -/
def execReorder (s : State) : Host.Outcome State Fault Refusal := runCommand .reorder reorderBody s

/-- The meaning of COMPOSE (R91). -/
def execCompose (s : State) : Host.Outcome State Fault Refusal := runCommand .compose composeBody s

/-- The meaning of FRAME (R92). -/
def execFrame (s : State) : Host.Outcome State Fault Refusal := runCommand .frame frameBody s

/-- The meaning of RESERVED_OP (R71): BADCMD. -/
def execReservedOp (s : State) : Host.Outcome State Fault Refusal := runReserved s

/-- The meaning of RESERVED_RES (R72): BADCMD, whatever its OP. -/
def execReservedRes (s : State) : Host.Outcome State Fault Refusal := runReserved s

end Sys2Proof.Machine
end

