-- ==== Sys2Proof/Machine/Dispatch.lean ====
section
/-! DEFINITION. One arm per instruction, each one direct call of its meaning. -/

namespace Sys2Proof.Machine

/-- The meaning of an instruction. -/
def exec (i : Instr) (s : State) : Host.Outcome State Fault Refusal :=
  match i with
  | .nop => Sys2Proof.Machine.execNop s
  | .sreset => Sys2Proof.Machine.execSreset s
  | .newstream => Sys2Proof.Machine.execNewstream s
  | .bitread => Sys2Proof.Machine.execBitread s
  | .decode => Sys2Proof.Machine.execDecode s
  | .reorder => Sys2Proof.Machine.execReorder s
  | .compose => Sys2Proof.Machine.execCompose s
  | .frame => Sys2Proof.Machine.execFrame s
  | .reservedOp _ => Sys2Proof.Machine.execReservedOp s
  | .reservedRes _ _ => Sys2Proof.Machine.execReservedRes s
  | .lzwClear _ _ => Sys2Proof.Machine.execLzwClear s
  | .lzwEnd _ _ => Sys2Proof.Machine.execLzwEnd s
  | .lzwDict _ code => Sys2Proof.Machine.execLzwDict code s
  | .lzwKwkwk _ _ => Sys2Proof.Machine.execLzwKwkwk s
  | .lzwInvalid _ _ => Sys2Proof.Machine.execLzwInvalid s
  | .dispUnspecified => Sys2Proof.Machine.execDispUnspecified s
  | .dispDoNotDispose => Sys2Proof.Machine.execDispDoNotDispose s
  | .dispRestoreBackground => Sys2Proof.Machine.execDispRestoreBackground s
  | .dispRestoreToPrevious => Sys2Proof.Machine.execDispRestoreToPrevious s
  | .dispReserved4 => Sys2Proof.Machine.execDispReserved4 s
  | .dispReserved5 => Sys2Proof.Machine.execDispReserved5 s
  | .dispReserved6 => Sys2Proof.Machine.execDispReserved6 s
  | .dispReserved7 => Sys2Proof.Machine.execDispReserved7 s

end Sys2Proof.Machine
end

