-- ==== Sys2Proof/Machine/Bus.lean ====
section
/-! DEFINITION. The host window (20_memory.md) and the host's operations: the address map, the register words, reads,
writes, and what a CMD write does at once. -/

namespace Sys2Proof.Machine

/-! ## The address map -/

/-- The registers of R18; `reserved` is every other offset of the register window (R19). -/
inductive Reg where
  | ctrl
  | cmd
  | status
  | warn
  | scrSize
  | scrCfg
  | imgPos
  | imgSize
  | imgCfg
  | gce
  | clen
  | brOff
  | brN
  | brVal
  | pcnt
  | lzwDbg
  | lzwPos
  | frameNo
  | frameInfo
  | dly
  | reserved
  deriving DecidableEq, Repr

/-- The register at a byte offset of the register window (R18). -/
def regAt (off : Nat) : Reg :=
  match off with
  | 0x00 => .ctrl
  | 0x04 => .cmd
  | 0x08 => .status
  | 0x0C => .warn
  | 0x10 => .scrSize
  | 0x14 => .scrCfg
  | 0x18 => .imgPos
  | 0x1C => .imgSize
  | 0x20 => .imgCfg
  | 0x24 => .gce
  | 0x28 => .clen
  | 0x2C => .brOff
  | 0x30 => .brN
  | 0x34 => .brVal
  | 0x38 => .pcnt
  | 0x3C => .lzwDbg
  | 0x40 => .lzwPos
  | 0x44 => .frameNo
  | 0x48 => .frameInfo
  | 0x4C => .dly
  | _ => .reserved

/-- A place of the host window (R55): a register, an entry of GCT or LCT, the first of the four bytes of a word of
CDATA, IDXBUF or RBUF, a pixel of OUT, or a reserved word; or no place of UGPP at all, outside its window. -/
inductive Place where
  | register (r : Reg)
  | gct (i : Nat)
  | lct (i : Nat)
  | cdata (k : Nat)
  | idxbuf (k : Nat)
  | rbuf (k : Nat)
  | out (k : Nat)
  | reserved
  | outside
  deriving DecidableEq, Repr

/-- The address map (R55), for a word offset from UGPP_BASE. -/
def placeAt (off : Nat) : Place :=
  if off < 0x100 then .register (regAt off)
  else if off < 0x400 then .reserved
  else if off < 0x800 then .gct ((off - 0x400) / 4)
  else if off < 0xC00 then .lct ((off - 0x800) / 4)
  else if off < 0x1000000 then .reserved
  else if off < 0x2000000 then .cdata (off - 0x1000000)
  else if off < 0x3000000 then .idxbuf (off - 0x2000000)
  else if off < 0x4000000 then .rbuf (off - 0x3000000)
  else if off < 0x8000000 then .out ((off - 0x4000000) / 4)
  else .reserved

/-- Is it a place of a block memory, which the host may not touch while BUSY (R185)? -/
def Place.isMemory : Place → Bool
  | .register _ | .reserved | .outside => false
  | .gct _ | .lct _ | .cdata _ | .idxbuf _ | .rbuf _ | .out _ => true

/-- The place of an access (R54, R60), by the address of its first byte: an access outside the window is another device's
[log 12]; one inside it that is not an aligned 32-bit word access is a bus error (R173) [log 11]. DESIGN CHOICE: an access that
begins below the window and ends inside it is outside too, no misaligned access to the window [log 29]. -/
def locate (c : Config) (addr width : Nat) : Except Fault Place :=
  if addr < c.base ∨ c.base + Config.windowBytes ≤ addr then .ok .outside
  else if width ≠ 4 ∨ (addr - c.base) % 4 ≠ 0 then .error (.busError addr width)
  else .ok (placeAt (addr - c.base))

/-- The place of an access, with the hazard of R185: a memory place while BUSY is a fault. DESIGN CHOICE: also past the memory's
size, of which R55 says that it reads 0 and ignores writes and R185 does not speak [log 28]. -/
def accessPlace (s : State) (addr width : Nat) : Except Fault Place :=
  (locate s.cfg addr width).bind fun p =>
    if p.isMemory && busy s then .error (.memoryWhileBusy addr) else .ok p

/-! ## Register words -/

/-- CTRL as a word (R20). -/
def ctrlWord (c : Ctrl) : Word :=
  (0 : BitVec 29) ++ BitVec.ofBool c.strict ++ BitVec.ofBool c.earlyReset ++ BitVec.ofBool c.ie

/-- IMG_CFG as a word (R28). -/
def imgCfgWord (c : ImgCfg) : Word :=
  (0 : BitVec 21) ++ c.lctExp ++ (0 : BitVec 1) ++ BitVec.ofBool c.gceV ++ BitVec.ofBool c.lctEn ++
    BitVec.ofBool c.ilace ++ c.mcs

/-- LZW_DBG as a word (R35). -/
def lzwDbgWord (l : Lzw) : Word :=
  (0 : BitVec 3) ++ BitVec.ofNat 13 l.n ++ (0 : BitVec 11) ++ BitVec.ofBool l.p.isSome ++ BitVec.ofNat 4 l.w

/-- FRAME_INFO as a word (R38). -/
def frameInfoWord (f : FrameInfo) : Word := (0 : BitVec 28) ++ BitVec.ofBool f.keepV ++ f.lastDisp

/-- DLY as a word (R39). -/
def dlyWord (d : Dly) : Word := (0 : BitVec 14) ++ BitVec.ofBool d.clamp ++ BitVec.ofBool d.tick ++ d.cs

/-- Is it a result register, whose value is unspecified while BUSY (R186)? STATUS is handled on its own. -/
def Reg.isResult : Reg → Bool
  | .warn | .brVal | .pcnt | .lzwDbg | .lzwPos | .frameNo | .frameInfo | .dly => true
  | .ctrl | .cmd | .status | .scrSize | .scrCfg | .imgPos | .imgSize | .imgCfg | .gce | .clen | .brOff | .brN => false
  | .reserved => false

/-- What a register reads as while the engine is idle (R18 to R39); CMD and reserved offsets read 0 (R19, R21). -/
def regWord (r : Reg) (s : State) : Word :=
  match r with
  | .ctrl => ctrlWord s.conf.ctrl
  | .cmd => 0
  | .status => statusWord (busy s) s.status (stopBits s.status.stop)
  | .warn => warnWord s.warn
  | .scrSize => s.conf.sh ++ s.conf.sw
  | .scrCfg => (0 : BitVec 8) ++ s.conf.aspect ++ s.conf.bgIdx ++ s.conf.lsd
  | .imgPos => s.conf.top ++ s.conf.left
  | .imgSize => s.conf.ih ++ s.conf.iw
  | .imgCfg => imgCfgWord s.conf.imgCfg
  | .gce => s.conf.delay ++ s.conf.tidx ++ s.conf.packed
  | .clen => (0 : BitVec 7) ++ s.conf.clen
  | .brOff => s.conf.brOff
  | .brN => (0 : BitVec 27) ++ s.conf.brN
  | .brVal => (0 : BitVec 16) ++ s.brVal
  | .pcnt => (0 : BitVec 7) ++ BitVec.ofNat 25 s.lzw.outn
  | .lzwDbg => lzwDbgWord s.lzw
  | .lzwPos => BitVec.ofNat 32 s.lzw.pos
  | .frameNo => s.frameNo
  | .frameInfo => frameInfoWord s.frameInfo
  | .dly => dlyWord s.dly
  | .reserved => 0

/-- What a register read returns, given this read's free word (R186) [log 10]: while BUSY a result register is any
word, and STATUS is as it stands but for STOP, which is any three bits. -/
def regRead (r : Reg) (free : Word) (s : State) : Word :=
  if busy s then
    if r = .status then statusWord true s.status (free.extractLsb' 0 3)
    else if r.isResult then free else regWord r s
  else regWord r s

/-- A configuration write: the fields of the register take the word's bits, reserved bits are ignored (R19 to R32). -/
def confWrite (r : Reg) (v : Word) (c : Conf) : Conf :=
  match r with
  | .ctrl => { c with ctrl := ⟨v.getLsbD 0, v.getLsbD 1, v.getLsbD 2⟩ }
  | .scrSize => { c with sw := v.extractLsb' 0 16, sh := v.extractLsb' 16 16 }
  | .scrCfg => { c with lsd := v.extractLsb' 0 8, bgIdx := v.extractLsb' 8 8, aspect := v.extractLsb' 16 8 }
  | .imgPos => { c with left := v.extractLsb' 0 16, top := v.extractLsb' 16 16 }
  | .imgSize => { c with iw := v.extractLsb' 0 16, ih := v.extractLsb' 16 16 }
  | .imgCfg =>
    { c with imgCfg := ⟨v.extractLsb' 0 4, v.getLsbD 4, v.getLsbD 5, v.getLsbD 6, v.extractLsb' 8 3⟩ }
  | .gce => { c with packed := v.extractLsb' 0 8, tidx := v.extractLsb' 8 8, delay := v.extractLsb' 16 16 }
  | .clen => { c with clen := v.extractLsb' 0 25 }
  | .brOff => { c with brOff := v }
  | .brN => { c with brN := v.extractLsb' 0 5 }
  | .cmd | .status | .warn | .brVal | .pcnt | .lzwDbg | .lzwPos | .frameNo | .frameInfo | .dly | .reserved => c

/-- What a CMD write does at once (R83): OVR while BUSY; else acceptance, or BADCMD for a reserved word. -/
def acceptWord (w : Word) (s : State) : State :=
  if busy s then setOvr s
  else match opOf (decodeCommand w) with
    | some op => accept op s
    | none => rejectCommand s

/-- A register write (R18 to R39): CMD starts a command, STATUS and WARN are write-1-to-clear, a read-only register or
a reserved offset ignores the write. -/
def regWrite (r : Reg) (v : Word) (s : State) : State :=
  match r with
  | .cmd => acceptWord v s
  | .status => acknowledge v s
  | .warn => { s with warn := warnW1c v s.warn }
  | .ctrl | .scrSize | .scrCfg | .imgPos | .imgSize | .imgCfg | .gce | .clen | .brOff | .brN | .brVal | .pcnt
  | .lzwDbg | .lzwPos | .frameNo | .frameInfo | .dly | .reserved => { s with conf := confWrite r v s.conf }

/-! ## Memory words -/

/-- A colour-table entry as a word (R56). -/
def rgbWord (c : Rgb) : Word := (0 : BitVec 8) ++ c.b ++ c.g ++ c.r

/-- The triple a colour-table word holds; bits 31:24 are ignored (R56). -/
def rgbOfWord (v : Word) : Rgb := ⟨lane v 0, lane v 1, lane v 2⟩

/-- A pixel as an OUT word (R57). -/
def rgbaWord (c : Rgba) : Word := c.a ++ c.b ++ c.g ++ c.r

/-- A table entry as the host reads it: a ⊥ entry is any word (R62) [log 8]. -/
def tableWord (m : Mem Rgb) (i : Nat) (free : Word) : Word :=
  match memGet m i with
  | some c => rgbWord c
  | none => free

/-- Lane `j` of the CDATA word at byte `k`: 0 past the memory's size (R55), a free byte for ⊥ (R62) [log 9]. -/
def cdataLane (s : State) (k j : Nat) (free : Word) : Byte :=
  if k + j < s.cfg.cdataBytes then (memGet s.cdata (k + j)).getD (lane free j) else 0

/-- Lane `j` of an IDXBUF or RBUF word: 0 past the memory's size (R55) and 0 for ⊥ (R43, R44). -/
def bufLane (m : Mem Byte) (size k j : Nat) : Byte := if k + j < size then (memGet m (k + j)).getD 0 else 0

/-- An OUT word: 0 past the memory's size (R55), any word for ⊥ (R62). -/
def outWord (s : State) (k : Nat) (free : Word) : Word :=
  if k < s.cfg.canvasPixMax then
    match memGet s.prev k with
    | some c => rgbaWord c
    | none => free
  else 0

/-- What a read of a place returns, given this read's free word; outside the window another device answers, with any
word [log 12]. -/
def placeRead (p : Place) (free : Word) (s : State) : Word :=
  match p with
  | .register r => regRead r free s
  | .gct i => tableWord s.gct i free
  | .lct i => tableWord s.lct i free
  | .cdata k => wordOfBytes (cdataLane s k 0 free) (cdataLane s k 1 free) (cdataLane s k 2 free) (cdataLane s k 3 free)
  | .idxbuf k =>
    wordOfBytes (bufLane s.idxbuf s.cfg.pixMax k 0) (bufLane s.idxbuf s.cfg.pixMax k 1)
      (bufLane s.idxbuf s.cfg.pixMax k 2) (bufLane s.idxbuf s.cfg.pixMax k 3)
  | .rbuf k =>
    wordOfBytes (bufLane s.rbuf s.cfg.pixMax k 0) (bufLane s.rbuf s.cfg.pixMax k 1)
      (bufLane s.rbuf s.cfg.pixMax k 2) (bufLane s.rbuf s.cfg.pixMax k 3)
  | .out k => outWord s k free
  | .reserved => 0
  | .outside => free

/-- Write byte lane `j` of a CDATA word; past the memory's size the write is ignored (R55). -/
def writeLane (size k : Nat) (v : Word) (j : Nat) (m : Mem Byte) : Mem Byte :=
  if k + j < size then memSet m (k + j) (lane v j) else m

/-- A write of a CDATA word: its four lanes (R58). -/
def writeCdata (size k : Nat) (v : Word) (m : Mem Byte) : Mem Byte :=
  writeLane size k v 3 (writeLane size k v 2 (writeLane size k v 1 (writeLane size k v 0 m)))

/-- A write of a place: a read-only region or a reserved word ignores it (R55), and UGPP does not see one outside its
window [log 12]. -/
def placeWrite (p : Place) (v : Word) (s : State) : State :=
  match p with
  | .register r => regWrite r v s
  | .gct i => { s with gct := memSet s.gct i (rgbOfWord v) }
  | .lct i => { s with lct := memSet s.lct i (rgbOfWord v) }
  | .cdata k => { s with cdata := writeCdata s.cfg.cdataBytes k v s.cdata }
  | .idxbuf _ | .rbuf _ | .out _ | .reserved | .outside => s

/-! ## Host operations -/

/-- A host read: the word, and the state with this read's free value drawn. Reads have no other effect (R61). -/
def busRead (addr width : Nat) (s : State) : Except Fault (Word × State) :=
  (accessPlace s addr width).bind fun p =>
    .ok (placeRead p (Config.freeWord s.draws) s, { s with draws := s.draws + 1 })

/-- A host write. -/
def busWrite (addr width : Nat) (v : Word) (s : State) : Except Fault State :=
  (accessPlace s addr width).bind fun p => .ok (placeWrite p v s)

/-- Power-on reset (R181): every piece of the hardware's state at its value of R53, whatever ran; the parameters and
what the host still has to do stay [log 20]. -/
def powerOn (s : State) : State :=
  { State.reset with cfg := s.cfg, host := s.host, sched := s.sched, replies := s.replies, draws := s.draws }

/-- A word goes to the host. -/
def reply (v : Word) (s : State) : State := { s with replies := v :: s.replies }

/-- One host operation; the queue no longer holds it. A poll that does not match is issued again (R82). -/
def hostAct (h : HostOp) (s : State) : Except Fault State :=
  match h with
  | .write addr width v => busWrite addr width v s
  | .read addr width => (busRead addr width s).bind fun r => .ok (reply r.1 r.2)
  | .poll addr mask value =>
    (busRead addr 4 s).bind fun r =>
      .ok (if r.1 &&& mask = value then r.2 else { r.2 with host := h :: r.2.host })
  | .quitIf addr mask =>
    (busRead addr 4 s).bind fun r =>
      .ok (reply r.1 (if r.1 &&& mask = 0 then r.2 else { r.2 with host := [] }))
  | .powerOnReset => .ok (powerOn s)

/-- The command word of a host operation that is an accepted bus write to CMD, at offset 0x04 (R18, R21). -/
def cmdWriteWord (c : Config) : HostOp → Option Word
  | .write addr width v => if addr = c.base + 4 ∧ width = 4 then some v else none
  | .read _ _ | .poll _ _ _ | .quitIf _ _ | .powerOnReset => none

end Sys2Proof.Machine
end

