-- ==== Sys2Proof/Machine/Engine.lean ====
section
/-! DEFINITION. The engine's own steps (R50, R92, R184), the grain at which host operations can land inside a command:
one LZW code, one canvas pixel, one sub-phase [log 7]. Every step is one of the units' operations, so the steps of an
uninterrupted command end where its meaning does. -/

namespace Sys2Proof.Machine

/-- The first step of an accepted command: its checks (R84), then the whole work of a command of one step, or the start
of a longer one. -/
def startStep (op : Op) (s : State) : Except Fault State :=
  match op with
  | .nop | .sreset | .newstream | .bitread | .reorder => commandBody op s
  | .decode | .frame => checked op (fun s => .ok (setPhase (.busy op .lzw) (lzwStart s))) s
  | .compose => checked op (fun s => .ok (setPhase (.busy op .resolve) s)) s

/-- After a step of the decode loop: the loop goes on until STOP is set (R97). -/
def afterCode (op : Op) (s : State) : State :=
  if s.status.stop = .none then s else setPhase (.busy op .lzwEnd) s

/-- The end of the decode (R89, R92): LZWCODE, FRAME's sub-phase REORDER, or completion. -/
def lzwExit (op : Op) (s : State) : State :=
  if s.status.stop = .invalid then raiseError .lzwcode s
  else if op = .frame then setPhase (.busy op .reorder) s else complete s

/-- One step of the engine. -/
def engineStep (s : State) : Except Fault State :=
  match s.phase with
  | .idle => .ok s
  | .busy op .start => startStep op s
  | .busy op .lzw => (lzwStep s).bind fun t => .ok (afterCode op t)
  | .busy op .lzwEnd => .ok (setPhase (.busy op .lzwExit) (underrunCheck s))
  | .busy op .lzwExit => .ok (lzwExit op s)
  | .busy op .reorder => .ok (setPhase (.busy op .resolve) (reorderRows s))
  | .busy op .resolve => (background s).bind fun _ => .ok (setPhase (.busy op .seed) s)
  | .busy op .seed => (seedBy s.frameInfo.lastDisp s).bind fun t => .ok (setPhase (.busy op (.paint 0 0)) t)
  | .busy op (.paint k j) =>
    if k < canvasCount s.snap then
      (paintCell k j s).bind fun r => .ok (setPhase (.busy op (.paint (k + 1) r.2)) r.1)
    else .ok (setPhase (.busy op .emit) s)
  | .busy _ .emit => .ok (complete (emitFrame s))

/-- `n` engine steps; an idle engine stays as it is. -/
def engineRun : Nat → State → Except Fault State
  | 0, s => .ok s
  | n + 1, s => (engineStep s).bind (engineRun n)

/-- Whose turn it is (R190) [log 5]: the schedule's, or, when it is empty, the engine's while a command runs and the
host's otherwise. -/
def nextAgent (s : State) : Agent :=
  match s.sched with
  | a :: _ => a
  | [] => if busy s then .engine else .host

/-- The turn is used up. -/
def popTurn (s : State) : State := { s with sched := s.sched.tail }

/-- The host's first operation leaves the queue, and the turn is used up. -/
def takeOp (rest : List HostOp) (s : State) : State := { popTurn s with host := rest }

/-- The two bytes of a 16-bit table word, the first at the lowest index, in CDATA (R58, R59). -/
def stageCode (w : Nat) (m : Mem Byte) : Mem Byte :=
  memSet (memSet m 0 (BitVec.ofNat 8 w)) 1 (BitVec.ofNat 8 (w / 256))

/-- The decoder in the context of `tableCodeCtx`, about to read a 12-bit code from the first two bytes of CDATA, one
pixel expected [log 16]. -/
def stageDecoder (w : Nat) (s : State) : State :=
  let snap := { s.snap with iw := 1, ih := 1, clen := 2, imgCfg := { s.snap.imgCfg with mcs := 3 } }
  let t := dictReset { s with snap := snap }
  { t with
    phase := .busy .decode .lzw
    sched := [.engine]
    cdata := stageCode w s.cdata
    status := { s.status with stop := .none }
    lzw := ⟨12, 10, some (Str.single 0), 0, 0⟩ }

/-- The compositor about to seed by the disposal code of a packed byte: LAST_DISP is where Seed fetches it (R129). -/
def stageSeed (b : Byte) (s : State) : State :=
  { s with
    phase := .busy .compose .seed
    sched := [.engine]
    frameInfo := { s.frameInfo with lastDisp := packedDisp b } }

/-- The host about to write a word to CMD, and not to act again before the command ends. -/
def stageCommand (w : Word) (s : State) : State :=
  { s with host := .write (s.cfg.base + 4) 4 w :: s.host, sched := [.host] }

end Sys2Proof.Machine
end

