-- ==== Sys2Proof/Machine/Step.lean ====
section
/-! DEFINITION. One step of the machine: the engine's next step, or the host's next operation. A CMD write with no turn
scheduled after it is the whole command, `exec` of the decoded word (R64: "sequential ... at command granularity"); with
turns scheduled after it, it is the acceptance alone, and the engine's steps follow as the schedule says [log 6]. -/

namespace Sys2Proof.Machine

/-- The host's turn. -/
def hostStep (h : HostOp) (s : State) : Host.Outcome State Fault Refusal :=
  match cmdWriteWord s.cfg h with
  | some w => if s.sched.isEmpty then exec (decodeCommand w) s else .next (acceptWord w s)
  | none => asOutcome (hostAct h s)

/-- One step. A host with nothing to do leaves UGPP as it is ("idle for ever, which is not a hang", R165, R180). -/
def step (s : State) : Host.Outcome State Fault Refusal :=
  match nextAgent s with
  | .engine => asOutcome (engineStep (popTurn s))
  | .host =>
    match s.host with
    | [] => .next (popTurn s)
    | h :: rest => hostStep h (takeOp rest s)

/-- The state in which the next step fetches and runs exactly the instruction whose bits are `w` [log 17]: a command
word stands before the host to be written to CMD; a packed byte's disposal code stands in LAST_DISP with the engine at
Seed; an LZW code stands in CDATA with the decoder about to read it. -/
def State.withFetchWord (s : State) (nbits w : Nat) : State :=
  if nbits = 32 then stageCommand (BitVec.ofNat 32 w) s
  else if nbits = 8 then stageSeed (BitVec.ofNat 8 w) s
  else if nbits = 16 then stageDecoder w s
  else s

end Sys2Proof.Machine
end

