-- ==== Sys2Proof/Machine/Container.lean ====
section
/-! DEFINITION. The host's parser of a GIF stream (48_host_interface.md section 1): the source's ContainerParser, which is
the host's duty and not part of the block (R5). Pure functions of the stream's bytes; "a single shared read cursor"
(R146) is the list of the bytes not yet read. PRESUMED by the spec itself (I2, I5) [log 14]: the image descriptor's and
the extensions' byte layouts. -/

namespace Sys2Proof.Machine

/-- The two fatal errors of a parse (R147, R158, R159). -/
inductive ParseError where
  | format
  | malformed
  deriving DecidableEq, Repr

/-- A graphic control extension's fields (R155). -/
structure GceRec where
  packed : Byte
  delay : BitVec 16
  tidx : Byte
  deriving DecidableEq, Repr

/-- An image block (R152) with the GCE associated with it (R156) and its de-framed payload (R153). -/
structure ImageRec where
  left : BitVec 16
  top : BitVec 16
  width : BitVec 16
  height : BitVec 16
  packed : Byte
  lct : List Rgb
  mcs : Byte
  data : List Byte
  gce : Option GceRec
  deriving DecidableEq, Repr

/-- A parsed stream: the screen (R148), the global table (R149), the image blocks in stream order (R150) and the
metadata of R164. `version` is read and kept, not checked (R147, C6). -/
structure Parsed where
  version : List Byte
  width : BitVec 16
  height : BitVec 16
  lsd : Byte
  bgIdx : Byte
  aspect : Byte
  gct : List Rgb
  images : List ImageRec
  comments : List (List Byte)
  plainTexts : List (List Byte)
  loopCount : Option Nat
  deriving DecidableEq, Repr

/-- Read `n` bytes; a read past the end of the buffer is `MalformedStreamError` (R158). -/
def takeBytes (n : Nat) (bs : List Byte) : Except ParseError (List Byte × List Byte) :=
  if bs.length < n then .error .malformed else .ok (bs.take n, bs.drop n)

/-- A 16-bit little-endian field (R146). -/
def le16 (lo hi : Byte) : BitVec 16 := hi ++ lo

/-- RGB triples, three bytes each (R149). -/
def triples : List Byte → List Rgb
  | r :: g :: b :: bs => ⟨r, g, b⟩ :: triples bs
  | _ => []

/-- A sub-block run (R151): the data of its sub-blocks; a length byte 0 ends it. Each sub-block takes at least one byte,
so the buffer's length bounds their number. -/
def subBlocks : Nat → List Byte → Except ParseError (List (List Byte) × List Byte)
  | 0, _ => .error .malformed
  | _ + 1, [] => .error .malformed
  | n + 1, len :: bs =>
    if len = 0 then .ok ([], bs)
    else (takeBytes len.toNat bs).bind fun d => (subBlocks n d.2).bind fun r => .ok (d.1 :: r.1, r.2)

/-- A sub-block run of a buffer. -/
def readRun (bs : List Byte) : Except ParseError (List (List Byte) × List Byte) := subBlocks (bs.length + 1) bs

/-- A colour table of 2^(exp + 1) entries if its flag is set, else nothing is read (R149, R152). -/
def readTable (flag : Bool) (exp : BitVec 3) (bs : List Byte) : Except ParseError (List Rgb × List Byte) :=
  if flag then (takeBytes (3 * tableSize exp) bs).bind fun d => .ok (triples d.1, d.2) else .ok ([], bs)

/-- The image block after its tag 0x2C (R152, I2). -/
def readImage (gce : Option GceRec) (bs : List Byte) : Except ParseError (ImageRec × List Byte) :=
  match bs with
  | l0 :: l1 :: t0 :: t1 :: w0 :: w1 :: h0 :: h1 :: packed :: bs =>
    (readTable (packed.getLsbD 7) (packed.extractLsb' 0 3) bs).bind fun lct =>
      match lct.2 with
      | [] => .error .malformed
      | mcs :: bs => (readRun bs).bind fun run =>
        .ok (⟨le16 l0 l1, le16 t0 t1, le16 w0 w1, le16 h0 h1, packed, lct.1, mcs, run.1.flatten, gce⟩, run.2)
  | _ => .error .malformed

/-- The graphic control extension after 0x21 0xF9: size byte, packed, delay (LE16), transparent index, terminator
(R155, I5). DESIGN CHOICE: the size byte and the terminator are read and not checked [log 18]. -/
def readGce (bs : List Byte) : Except ParseError (GceRec × List Byte) :=
  match bs with
  | _ :: packed :: d0 :: d1 :: tidx :: _ :: bs => .ok (⟨packed, le16 d0 d1, tidx⟩, bs)
  | _ => .error .malformed

/-- The loop count of an application extension's run (R157): its first sub-block is the identifier and the
authentication code; the count comes from the next one if it begins with 0x01 and has three bytes. -/
def loopCountOf (run : List (List Byte)) : Option Nat :=
  match run with
  | _ :: (m :: lo :: hi :: _) :: _ => if m = 1 then some (lo.toNat + 256 * hi.toNat) else none
  | _ => none

/-- What the dispatch loop carries: the records so far and the GCE waiting for its image block (R156). -/
structure ParseAcc where
  out : Parsed
  gce : Option GceRec
  deriving DecidableEq, Repr

/-- An image block ends the association of the GCE before it (R156). -/
def ParseAcc.addImage (a : ParseAcc) (i : ImageRec) : ParseAcc :=
  { out := { a.out with images := a.out.images ++ [i] }, gce := none }

/-- An extension, after 0x21 (R154): graphic control (a later one replaces an earlier one, R156), comment, plain text,
application (the first well-formed marker gives the loop count, R157); any other sub-type is skipped. -/
def readExtension (a : ParseAcc) (bs : List Byte) : Except ParseError (ParseAcc × List Byte) :=
  match bs with
  | [] => .error .malformed
  | kind :: bs =>
    if kind = 0xF9 then (readGce bs).bind fun g => .ok ({ a with gce := some g.1 }, g.2)
    else (readRun bs).bind fun run =>
      if kind = 0xFE then .ok ({ a with out := { a.out with comments := a.out.comments ++ [run.1.flatten] } }, run.2)
      else if kind = 0x01 then
        .ok ({ a with out := { a.out with plainTexts := a.out.plainTexts ++ [run.1.flatten] } }, run.2)
      else if kind = 0xFF then
        .ok ({ a with out := { a.out with loopCount := a.out.loopCount.or (loopCountOf run.1) } }, run.2)
      else .ok (a, run.2)

/-- The dispatch loop (R150): every round reads a tag, so the buffer's length bounds their number; a buffer that ends
before the trailer is malformed (R158). -/
def readBlocks : Nat → ParseAcc → List Byte → Except ParseError Parsed
  | 0, _, _ => .error .malformed
  | _ + 1, _, [] => .error .malformed
  | n + 1, a, tag :: bs =>
    if tag = 0x3B then .ok a.out
    else if tag = 0x2C then (readImage a.gce bs).bind fun i => readBlocks n (a.addImage i.1) i.2
    else if tag = 0x21 then (readExtension a bs).bind fun r => readBlocks n r.1 r.2
    else .error .malformed

/-- The logical screen descriptor and the global table (R148, R149), then the blocks. -/
def readScreen (version : List Byte) (bs : List Byte) : Except ParseError Parsed :=
  match bs with
  | w0 :: w1 :: h0 :: h1 :: lsd :: bg :: aspect :: bs =>
    (readTable (lsdGctFlag lsd) (lsdGctExp lsd) bs).bind fun t =>
      readBlocks (t.2.length + 1)
        ⟨⟨version, le16 w0 w1, le16 h0 h1, lsd, bg, aspect, t.1, [], [], [], none⟩, none⟩ t.2
  | _ => .error .malformed

/-- The whole parse (R146, R147): "GIF" or `FormatError`, three version bytes, the screen and the blocks. -/
def parseGif (bs : List Byte) : Except ParseError Parsed :=
  match bs with
  | s0 :: s1 :: s2 :: bs =>
    if s0 = 0x47 ∧ s1 = 0x49 ∧ s2 = 0x46 then (takeBytes 3 bs).bind fun v => readScreen v.1 v.2
    else .error .format
  | _ => .error .format

/-- The stream's loop count, 0 (infinite) without a well-formed marker (R157). -/
def Parsed.loops (p : Parsed) : Nat := p.loopCount.getD 0

/-- Colour resolution, CRES + 1 bits per primary (R164). -/
def Parsed.colourBits (p : Parsed) : Nat := (lsdCres p.lsd).toNat + 1

end Sys2Proof.Machine
end

