-- ==== Sys2Proof/Machine/HostProgram.lean ====
section
/-! DEFINITION. The host's programs (30_encoding.md section 5, 48_host_interface.md section 2): the pseudo-instructions
of R82, the frame sequence of R160 for a parsed stream, and what the host makes of the replies (R161 to R163). -/

namespace Sys2Proof.Machine

/-- `WR <reg>, <value>`, by the register's offset (R18, R82). -/
def wr (c : Config) (off : Nat) (v : Word) : HostOp := .write (c.base + off) 4 v

/-- `RD <reg>` (R82). -/
def rd (c : Config) (off : Nat) : HostOp := .read (c.base + off) 4

/-- `CMD <mnemonic>` (R82): the word of R70. -/
def cmd (c : Config) (op : BitVec 4) : HostOp := wr c 0x04 (commandWord 0 op)

/-- `WAIT` (R82): poll DONE, then clear it. -/
def wait (c : Config) : List HostOp := [.poll (c.base + 0x08) 2 2, wr c 0x08 2]

/-- The words of a byte list, four bytes a word, missing bytes 0 (R82). -/
def packWords : List Byte → List Word
  | b0 :: b1 :: b2 :: b3 :: bs => wordOfBytes b0 b1 b2 b3 :: packWords bs
  | [b0, b1, b2] => [wordOfBytes b0 b1 b2 0]
  | [b0, b1] => [wordOfBytes b0 b1 0 0]
  | [b0] => [wordOfBytes b0 0 0 0]
  | [] => []

/-- Writes of consecutive words from a window offset. -/
def wrWords (c : Config) : Nat → List Word → List HostOp
  | _, [] => []
  | off, v :: vs => wr c off v :: wrWords c (off + 4) vs

/-- A number in a field of `n` bits, the field's largest value if it does not fit. DESIGN CHOICE [log 18]: UGPP then
refuses the block with CFG, as it refuses every size it cannot hold (R163). -/
def saturate (n v : Nat) : Nat := min v (2 ^ n - 1)

/-- `LOADC` (R82): the bytes into CDATA, then CLEN. Bytes past the CDATA region (2^24, R55) have no address. -/
def loadc (c : Config) (bs : List Byte) : List HostOp :=
  wrWords c 0x1000000 (packWords (bs.take (2 ^ 24))) ++ [wr c 0x28 (BitVec.ofNat 32 (saturate 25 bs.length))]

/-- `LOADT` (R82), by the table's window offset. -/
def loadt (c : Config) (off : Nat) (t : List Rgb) : List HostOp := wrWords c off (t.map rgbWord)

/-- IMG_CFG of an image block (R152, R156). -/
def imageCfg (i : ImageRec) : ImgCfg :=
  ⟨BitVec.ofNat 4 (saturate 4 i.mcs.toNat), i.packed.getLsbD 6, i.packed.getLsbD 7, i.gce.isSome,
    i.packed.extractLsb' 0 3⟩

/-- GCE of an image block, written only if it has one (R155, R160). -/
def gceOps (c : Config) : Option GceRec → List HostOp
  | some g => [wr c 0x24 (g.delay ++ g.tidx ++ g.packed)]
  | none => []

/-- The reads of a frame: OUT+0 .. OUT+4(n − 1) (R160). -/
def readOut (c : Config) (n : Nat) : List HostOp := (List.range n).map fun k => rd c (0x4000000 + 4 * k)

/-- The commands an image block is processed with: FRAME, or DECODE, REORDER and COMPOSE "in place of FRAME, in that
order" (R160). -/
inductive BlockMode where
  | whole
  | separate
  deriving DecidableEq, Repr

/-- Their OP values (R70). -/
def BlockMode.ops : BlockMode → List (BitVec 4)
  | .whole => [7]
  | .separate => [4, 5, 6]

/-- One command of a block (R160, R163): issue it, wait for DONE, and end the stream on STATUS.ERR. -/
def commandOps (c : Config) (op : BitVec 4) : List HostOp := [cmd c op] ++ wait c ++ [.quitIf (c.base + 0x08) 4]

/-- One image block (R160): configuration, tables, payload, its commands, the frame and its delay. -/
def imageOps (c : Config) (mode : BlockMode) (pixels : Nat) (i : ImageRec) : List HostOp :=
  [wr c 0x18 (i.top ++ i.left), wr c 0x1C (i.height ++ i.width), wr c 0x20 (imgCfgWord (imageCfg i))] ++
  gceOps c i.gce ++ loadt c 0x800 i.lct ++ loadc c i.data ++ mode.ops.flatMap (commandOps c) ++
  readOut c pixels ++ [rd c 0x4C]

/-- SW × SH of a stream: the pixels of each of its frames (R142). -/
def Parsed.pixels (p : Parsed) : Nat := p.width.toNat * p.height.toNat

/-- The host's operations for one parsed stream (R160). -/
def streamOps (c : Config) (mode : BlockMode) (p : Parsed) : List HostOp :=
  [cmd c 2] ++ wait c ++
  [wr c 0x10 (p.height ++ p.width), wr c 0x14 ((0 : BitVec 8) ++ p.aspect ++ p.bgIdx ++ p.lsd)] ++
  loadt c 0x400 p.gct ++ p.images.flatMap (imageOps c mode p.pixels) ++ [rd c 0x0C]

/-- The host's operations for a stream's bytes; a fatal parse error issues none (R159). -/
def decodeOps (c : Config) (mode : BlockMode) (bs : List Byte) : Except ParseError (List HostOp) :=
  (parseGif bs).map (streamOps c mode)

/-! ## What the host makes of the replies (R160 to R163) -/

/-- `DelaySeconds(DLY)` as an exact rational (R161, R126). -/
def delaySeconds (d : Dly) : ℚ := if d.tick then 1 / 60 else (d.cs.toNat : ℚ) / 100

/-- DLY from the word it reads as (R39). -/
def dlyOfWord (v : Word) : Dly := ⟨v.extractLsb' 0 16, v.getLsbD 16, v.getLsbD 17⟩

/-- One decoded frame, `(frame_b, delay_b)` (R160): its OUT words and its delay in seconds, exactly. -/
structure FrameOut where
  pixels : List Word
  delay : ℚ
  deriving DecidableEq, Repr

/-- The host's `delaySeconds: float` of a frame (R161, D43). -/
def FrameOut.delayFloat (f : FrameOut) : Float := Config.delayToFloat f.delay

/-- WARN from the word it reads as (R23). -/
def warnOfWord (v : Word) : Warn := ⟨v.getLsbD 0, v.getLsbD 1, v.getLsbD 2⟩

/-- Does the host report `TruncatedDataWarning` (R162: WARN ≠ 0)? -/
def truncatedData (w : Warn) : Bool := w.underrun || w.badidx || w.exhaust

/-- ERRCODE of a STATUS word (R22, R166); the codes 5 to 15 are never written. -/
def errCodeOfStatus (v : Word) : ErrCode :=
  match (v.extractLsb' 4 4).toNat with
  | 1 => .badcmd
  | 2 => .cfg
  | 3 => .brrange
  | 4 => .lzwcode
  | _ => .none

/-- Why a stream gives no frames. -/
inductive StreamError where
  /-- A fatal error of the parse (R159). -/
  | parse (e : ParseError)
  /-- A command of image block `block`, counted from 0, ended with STATUS.ERR = 1 (R163). -/
  | command (block : Nat) (code : ErrCode)
  /-- The replies are not those of a finished stream: the host still waits. -/
  | unfinished
  deriving DecidableEq, Repr

/-- What an error code says (R166). -/
def errCodeText : ErrCode → String
  | .none => "no error"
  | .badcmd => "BADCMD: reserved command word"
  | .cfg => "CFG: minimum code size, image, canvas or payload outside what UGPP holds"
  | .brrange => "BRRANGE: bit field outside the data"
  | .lzwcode => "LZWCODE: invalid LZW code in strict mode"

/-- The "descriptive error" (R159, R163). -/
def StreamError.text : StreamError → String
  | .parse .format => "FormatError: signature mismatch"
  | .parse .malformed => "MalformedStreamError"
  | .command block code => "image block " ++ toString block ++ ": " ++ errCodeText code
  | .unfinished => "unfinished"

/-- The STATUS words of a block's commands, one each; the first with ERR = 1 fails the stream (R163). -/
def takeStatuses (block : Nat) : Nat → List Word → Except StreamError (List Word)
  | 0, ws => .ok ws
  | _ + 1, [] => .error .unfinished
  | k + 1, st :: ws => if st.getLsbD 2 then .error (.command block (errCodeOfStatus st)) else takeStatuses block k ws

/-- A block's OUT words and its DLY word (R160, R161). -/
def takeFrame (pixels : Nat) (ws : List Word) : Except StreamError (FrameOut × List Word) :=
  match ws.drop pixels with
  | d :: rest => .ok (⟨ws.take pixels, delaySeconds (dlyOfWord d)⟩, rest)
  | [] => .error .unfinished

/-- The frames of `n` blocks from number `block` on, and WARN at the end, from the words the host received, oldest first
(R160, R162, R163). -/
def collect (mode : BlockMode) (pixels block : Nat) : Nat → List Word → Except StreamError (List FrameOut × Warn)
  | 0, [w] => .ok ([], warnOfWord w)
  | 0, _ => .error .unfinished
  | n + 1, ws =>
    (takeStatuses block mode.ops.length ws).bind fun vs =>
      (takeFrame pixels vs).bind fun f =>
        (collect mode pixels (block + 1) n f.2).map fun r => (f.1 :: r.1, r.2)

/-- `return [(frame_b, delay_b) for each b], warnings` (R160), for a machine that had returned no word before the stream and
has performed `streamOps`. -/
def streamResult (mode : BlockMode) (p : Parsed) (s : State) : Except StreamError (List FrameOut × Warn) :=
  collect mode p.pixels 0 p.images.length s.replies.reverse

/-- The same from the stream's bytes: a fatal parse error gives no frames (R159). -/
def decodeResult (mode : BlockMode) (bs : List Byte) (s : State) : Except StreamError (List FrameOut × Warn) :=
  match parseGif bs with
  | .error e => .error (.parse e)
  | .ok p => streamResult mode p s

end Sys2Proof.Machine
end

