-- ==== Sys2Proof/Safety.lean ====
section
/-! DEFINITION. What counts as a safe state and a safe run, in the terms the claims use: the invariant of the whole machine,
the invariants of a decode (R116), what a command needs loaded so that no model fault comes (R172, R183), and a run of
steps without a fault. -/

namespace Sys2Proof.Machine

/-! ## The invariant of a decode (R116) -/

/-- Every byte of a string is a colour index below `b`. -/
def bytesBelow (b : Nat) (l : List Byte) : Prop := ∀ x ∈ l, x.toNat < b

/-- What holds after LzwStart and between the steps of a decode (R77, R116). R116's clause that a new entry is DICT[p] ++ [b]
for a p < c holds of every entry but that of code 2^MCS + 2 where R109 makes it from a P of 2 bytes or more that a forced
reset kept (R111) and that is no entry any more; before any forced reset it holds of that one too (`DictPrefixInv`) [log 23].
A string of L bytes has cost at least 1 + 2 + … + (L - 1) pixels (`entryLen`, `prevLen`), forced resets or not. -/
structure LzwInv (s : State) : Prop where
  mcs : 2 ≤ s.snap.imgCfg.mcs.toNat ∧ s.snap.imgCfg.mcs.toNat ≤ Config.mcsHi
  width : s.snap.imgCfg.mcs.toNat + 1 ≤ s.lzw.w ∧ s.lzw.w ≤ Config.wMax
  count : clearCode s.snap + 2 ≤ s.lzw.n ∧ s.lzw.n ≤ Config.dMax
  fits : s.lzw.n < 2 ^ s.lzw.w ∨ s.lzw.w = Config.wMax ∧ s.lzw.n = Config.dMax
  least : s.lzw.w = s.snap.imgCfg.mcs.toNat + 1 ∨ 2 ^ (s.lzw.w - 1) ≤ s.lzw.n
  defined : ∀ c, (memGet s.dict c).isSome = true ↔
    c < clearCode s.snap ∨ clearCode s.snap + 2 ≤ c ∧ c < s.lzw.n
  literal : ∀ c, c < clearCode s.snap → memGet s.dict c = some (Str.single (BitVec.ofNat 8 c))
  longer : ∀ c str, clearCode s.snap + 2 ≤ c → memGet s.dict c = some str → 2 ≤ str.length
  prefixed : ∀ c str, clearCode s.snap + 2 ≤ c → memGet s.dict c = some str →
    (c = clearCode s.snap + 2 → str.length = 2) → ∃ q b pre, q < c ∧ memGet s.dict q = some pre ∧ str = pre.snoc b
  prevEntry : clearCode s.snap + 2 < s.lzw.n → ∀ str, s.lzw.p = some str →
    ∃ q, q < s.lzw.n ∧ memGet s.dict q = some str
  dictBytes : ∀ c str, memGet s.dict c = some str → bytesBelow (clearCode s.snap) str.bytes
  prevBytes : ∀ str, s.lzw.p = some str → bytesBelow (clearCode s.snap) str.bytes
  outn : s.lzw.outn ≤ pixelCount s.snap
  output : ∀ k b, memGet s.idxbuf k = some b → k < s.lzw.outn ∧ b.toNat < clearCode s.snap
  written : ∀ k, k < s.lzw.outn → (memGet s.idxbuf k).isSome = true
  pos : s.lzw.pos ≤ streamBits s.snap
  entryLen : ∀ c str, memGet s.dict c = some str → str.length * (str.length - 1) ≤ 2 * s.lzw.outn
  prevLen : ∀ str, s.lzw.p = some str → str.length * (str.length - 1) ≤ 2 * s.lzw.outn ∧
    (str.length * (str.length + 1) ≤ 2 * s.lzw.outn ∨ s.lzw.outn = pixelCount s.snap)

/-- What a forced reset alone can end: the previous entry is a string of the dictionary, every new entry, the first one too,
is an earlier string plus one byte (R116), and every string is at most 4096 bytes long (R48). -/
structure DictPrefixInv (s : State) : Prop where
  prev : ∀ str, s.lzw.p = some str → ∃ q, q < s.lzw.n ∧ memGet s.dict q = some str
  entry : ∀ c str, clearCode s.snap + 2 ≤ c → memGet s.dict c = some str →
    ∃ q b pre, q < c ∧ memGet s.dict q = some pre ∧ str = pre.snoc b
  short : ∀ c str, memGet s.dict c = some str → str.length ≤ 4096

/-- The pixels that must come out before a string of 4097 bytes can arise: 1 + 2 + … + 4096. -/
def overlongPixels : Nat := 4096 * 4097 / 2

/-- R48's bound on the strings of DICT, which every step keeps where no image can reach `overlongPixels`: with the default
PIX_MAX = 2^20 of R7, and up to 2^23. Beyond, after a forced reset, R109 and R48 part [log 27]. -/
def dictShort (s : State) : Prop :=
  s.cfg.pixMax < overlongPixels → ∀ c str, memGet s.dict c = some str → str.length ≤ 4096

/-! ## The invariant of the machine -/

/-- While BUSY, DONE = 0, ERR = 0 and ERRCODE = 0 (R83, R186); and always ERR = 0 exactly when ERRCODE = 0 (R22). -/
def statusInv (s : State) : Prop :=
  (busy s = true → s.status.done = false ∧ s.status.err = false ∧ s.status.errcode = .none) ∧
  (s.status.err = false ↔ s.status.errcode = .none)

/-- Every block memory is in canonical form and inside its size (R40 to R48). -/
def memsWf (s : State) : Bool :=
  memWf s.cfg.cdataBytes s.cdata && memWf Config.ctMax s.gct && memWf Config.ctMax s.lct &&
  memWf s.cfg.pixMax s.idxbuf && memWf s.cfg.pixMax s.rbuf && memWf s.cfg.canvasPixMax s.canvas &&
  memWf s.cfg.canvasPixMax s.prev && memWf s.cfg.canvasPixMax s.keep && memWf Config.dMax s.dict

/-- The LZW working registers stay inside what the parameters allow, so inside their fields (R17, R49). -/
def lzwFit (s : State) : Prop :=
  s.lzw.w ≤ Config.wMax ∧ s.lzw.n ≤ Config.dMax ∧ s.lzw.outn ≤ s.cfg.pixMax ∧ s.lzw.pos ≤ 8 * s.cfg.cdataBytes

/-- Which commands pass through a sub-phase (R92). -/
def pointOk (op : Op) : Point → Bool
  | .start => true
  | .lzw | .lzwEnd | .lzwExit => op == .decode || op == .frame
  | .reorder => op == .frame
  | .resolve | .seed | .paint _ _ | .emit => op == .compose || op == .frame

/-- Past its first step a command has passed its checks (R84) and stands in a sub-phase of its own (R92). -/
def phaseInv (s : State) : Prop :=
  match s.phase with
  | .idle => True
  | .busy op p => pointOk op p = true ∧ (p ≠ .start → failedCheck op s.cfg s.snap = none)

/-- An accepted DECODE or FRAME starts with STOP = NONE (R83); in the decode loop the invariants of a decode hold and STOP is
still NONE; after the loop they hold and STOP says why it ended (R97, R113, R116). -/
def decodeInv (s : State) : Prop :=
  match s.phase with
  | .idle => True
  | .busy op .start => op = .decode ∨ op = .frame → s.status.stop = .none
  | .busy _ .lzw => LzwInv s ∧ s.status.stop = .none
  | .busy _ .lzwEnd | .busy _ .lzwExit => LzwInv s ∧ s.status.stop ≠ .none
  | .busy _ .reorder | .busy _ .resolve | .busy _ .seed | .busy _ (.paint _ _) | .busy _ .emit => True

/-- The invariant of the machine. -/
structure Inv (s : State) : Prop where
  cfg : s.cfg.valid = true
  status : statusInv s
  mems : memsWf s = true
  lzw : lzwFit s
  strings : dictShort s
  phase : phaseInv s
  decode : decodeInv s

/-! ## What a command needs loaded (R172, R183) -/

/-- Every CDATA byte below CLEN.LEN holds a value. -/
def cdataLoaded (c : Conf) (s : State) : Prop := ∀ k, k < c.clen.toNat → (memGet s.cdata k).isSome = true

/-- Every entry of the active table below TLEN holds a value. -/
def tableLoaded (c : Conf) (s : State) : Prop :=
  ∀ i, i < tableLen c →
    match tableSel c with
    | .localTable => (memGet s.lct i).isSome = true
    | .globalTable => (memGet s.gct i).isSome = true
    | .none => True

/-- The canvas that the previous frame's disposal seeds from holds a value in every cell (R131, R133). -/
def historyLoaded (c : Conf) (s : State) : Prop :=
  ∀ k, k < canvasCount c →
    (s.frameInfo.lastDisp = 1 → (memGet s.prev k).isSome = true) ∧
    (s.frameInfo.lastDisp = 3 → s.frameInfo.keepV = true → (memGet s.keep k).isSome = true)

/-! ## What the claims about results are written with -/

/-- The instruction of a command. -/
def instrOf : Op → Instr
  | .nop => .nop
  | .sreset => .sreset
  | .newstream => .newstream
  | .bitread => .bitread
  | .decode => .decode
  | .reorder => .reorder
  | .compose => .compose
  | .frame => .frame

/-- Is it read from a command word (R70 to R72)? -/
def isCommandWord : Instr → Bool
  | .nop | .sreset | .newstream | .bitread | .decode | .reorder | .compose | .frame => true
  | .reservedOp _ | .reservedRes _ _ => true
  | .lzwClear _ _ | .lzwEnd _ _ | .lzwDict _ _ | .lzwKwkwk _ _ | .lzwInvalid _ _ => false
  | .dispUnspecified | .dispDoNotDispose | .dispRestoreBackground | .dispRestoreToPrevious => false
  | .dispReserved4 | .dispReserved5 | .dispReserved6 | .dispReserved7 => false

/-- STATUS after a command of `s` that ended with `code` (R83, R167), STOP as the command left it. -/
def endStatus (s : State) (code : ErrCode) (stop : Stop) : Status :=
  ⟨true, code != .none, s.status.ovr, code, stop⟩

/-- A DICT or KWKWK code with the string it emits (R105, R106). -/
def IsStringCode (i : Instr) (s : State) (str : Str) : Prop :=
  (∃ w c, i = .lzwDict w c ∧ memGet s.dict c = some str) ∨
  (∃ w c p, i = .lzwKwkwk w c ∧ s.lzw.p = some p ∧ str = p.snoc p.head)

/-- N after such a code (R109). -/
def grownCount (s : State) : Nat := if s.lzw.p.isSome ∧ s.lzw.n < 4096 then s.lzw.n + 1 else s.lzw.n

/-- W after such a code (R110). -/
def grownWidth (s : State) : Nat :=
  if grownCount s = 2 ^ s.lzw.w ∧ s.lzw.w < 12 then s.lzw.w + 1 else s.lzw.w

/-- Does such a code come to the peek of R111? -/
def peekDue (s : State) : Prop :=
  s.snap.ctrl.earlyReset = true ∧ grownWidth s = 12 ∧ grownCount s = 4096

/-- OUTN after emitting a string (R108). -/
def emittedCount (s : State) (str : Str) : Nat := min (s.lzw.outn + str.length) (pixelCount s.snap)

/-- IDXBUF after emitting a string: its bytes from OUTN on, cut at E (R108). -/
def emittedCell (s : State) (str : Str) (k : Nat) : Option Byte :=
  if s.lzw.outn ≤ k ∧ k < emittedCount s str then str.bytes[k - s.lzw.outn]? else memGet s.idxbuf k

/-- DICT after such a code without a reset (R48, R109). -/
def grownEntry (s : State) (str : Str) (c : Nat) : Option Str :=
  match s.lzw.p with
  | some p =>
    if c = s.lzw.n ∧ s.lzw.n < 4096 then some (p.snoc str.head)
    else memGet s.dict c
  | none => memGet s.dict c

/-- DICT after a reset (R98). -/
def literalEntry (c : Conf) (k : Nat) : Option Str :=
  if k < clearCode c then some (Str.single (BitVec.ofNat 8 k)) else none

/-- T[v], if there is a table and the entry is loaded (R127). -/
def tableColour (c : Conf) (s : State) (v : Nat) : Option Rgb :=
  match tableSel c with
  | .localTable => memGet s.lct v
  | .globalTable => memGet s.gct v
  | .none => none

/-- bg (R128). -/
def backgroundPixel (c : Conf) (s : State) : Option Rgba :=
  let alpha : Byte := if resolveTrans c = some c.bgIdx then 0 else 255
  if c.bgIdx.toNat < tableLen c then (tableColour c s c.bgIdx.toNat).map fun t => ⟨t.r, t.g, t.b, alpha⟩
  else some ⟨0, 0, 0, alpha⟩

/-- What canvas cell `k` starts as (R129). -/
def seedPixel (c : Conf) (s : State) (k : Nat) : Option Rgba :=
  if s.frameInfo.lastDisp = 1 then memGet s.prev k
  else if s.frameInfo.lastDisp = 3 ∧ s.frameInfo.keepV = true then memGet s.keep k
  else backgroundPixel c s

/-- IWc (R137). -/
def clippedWidth (c : Conf) : Nat :=
  if c.left.toNat < c.sw.toNat then min c.iw.toNat (c.sw.toNat - c.left.toNat) else 0

/-- The RBUF cell that canvas pixel (x, y) receives when it is inside: r × IWc + (x − LEFT) with r = y − TOP (R137). -/
def sourceCell (c : Conf) (x y : Nat) : Nat := (y - c.top.toNat) * clippedWidth c + (x - c.left.toNat)

/-- Pixel (x, y) of the emitted frame (R135, R137). -/
def framePixel (c : Conf) (s : State) (x y : Nat) : Option Rgba :=
  let seed := seedPixel c s (y * c.sw.toNat + x)
  if inside c x y then
    match memGet s.rbuf (sourceCell c x y) with
    | none => seed
    | some v =>
      if resolveTrans c = some v then seed
      else if tableLen c ≤ v.toNat then seed
      else (tableColour c s v.toNat).map fun t => ⟨t.r, t.g, t.b, 255⟩
  else seed

/-- A frame's pixels and disposal, as the source's history keeps them (R139). -/
def Represents (n : Nat) (h : List ((Nat → Option Rgba) × BitVec 3)) (s : State) : Prop :=
  s.frameInfo.lastDisp = ((h.getLast?).map Prod.snd).getD 2 ∧
  (∀ f, h.getLast? = some f → ∀ k, k < n → memGet s.prev k = f.1 k) ∧
  (s.frameInfo.keepV = true ↔ ∃ f ∈ h, f.2 = 0 ∨ f.2 = 1) ∧
  (∀ f, h.reverse.find? (fun f => f.2 = 0 || f.2 = 1) = some f → ∀ k, k < n → memGet s.keep k = f.1 k)

/-- An aligned word read at a window offset returns the word, and changes nothing but the count of draws (R61) [log 2]. -/
def readsAs (s : State) (off : Nat) (v : Word) : Prop :=
  busRead (s.cfg.base + off) 4 s = .ok (v, { s with draws := s.draws + 1 })

/-- An aligned word write at a window offset leaves this live configuration, and changes nothing else. -/
def configures (s : State) (off : Nat) (v : Word) (c : Conf) : Prop :=
  busWrite (s.cfg.base + off) 4 v s = .ok { s with conf := c }

/-- The code of STATUS.STOP (R22). -/
def stopField : Stop → BitVec 3
  | .none => 0
  | .endCode => 1
  | .count => 2
  | .input => 3
  | .invalid => 4

/-- The code of STATUS.ERRCODE (R166). -/
def errField : ErrCode → BitVec 4
  | .none => 0
  | .badcmd => 1
  | .cfg => 2
  | .brrange => 3
  | .lzwcode => 4

/-! ## Runs -/

/-- A run of `n` steps that meets no model fault and no refusal. -/
def safeRun : Nat → State → Bool
  | 0, _ => true
  | n + 1, s =>
    match step s with
    | .next t => safeRun n t
    | .fault _ | .refused _ => false

end Sys2Proof.Machine
end

