-- ==== Sys2Proof/Certificates/Slice0/Obligations.lean ====
section
/-! DEFINITION. The statements for the provers. Each names the rules of spec/ it formalises. -/

open Sys2Proof Sys2Proof.Machine

/-! ## Encoding -/

/-- Decoding an encoded well-formed instruction, in a context it stands in, gives it back (R70, R74, R80). -/
def Obligations.DecodeEncodeRoundTrip : Prop :=
  ∀ (x : CodeCtx) (i : Instr), i.wellFormed = true → i.inContext x = true → decode x (encode i) = .ok i

/-- What the decoder reads stands in its context, and encoding it gives the datum back, for a packed byte its bits
DISP (R70 to R72, R76, R79). -/
def Obligations.EncodeDecodeRoundTrip : Prop :=
  ∀ (x : CodeCtx) (e : Encoded) (i : Instr), decode x e = .ok i →
    i.inContext x = true ∧
    encode i = (match e with
      | .packed b => .packed (packedOfDisp (packedDisp b))
      | .command w => .command w
      | .code width c => .code width c)

/-- The classes of R76, each by its condition, in its order. -/
def Obligations.CodeClassesInTableOrder : Prop :=
  ∀ (x : CodeCtx) (c : Nat),
    (c = 2 ^ x.mcs → decodeCode x c = .lzwClear x.width c) ∧
    (c = 2 ^ x.mcs + 1 → decodeCode x c = .lzwEnd x.width c) ∧
    (c < x.count → c ≠ 2 ^ x.mcs → c ≠ 2 ^ x.mcs + 1 → decodeCode x c = .lzwDict x.width c) ∧
    (c = x.count → x.hasPrev = true → c ≠ 2 ^ x.mcs → c ≠ 2 ^ x.mcs + 1 → decodeCode x c = .lzwKwkwk x.width c) ∧
    (c > x.count ∨ c = x.count ∧ x.hasPrev = false → c ≠ 2 ^ x.mcs → c ≠ 2 ^ x.mcs + 1 →
      decodeCode x c = .lzwInvalid x.width c)

/-- A few words of the opcode table decode to their rows (R70 to R72, R80). -/
def Obligations.TableWordsDecode : Prop :=
  decodeTableWord 32 0x00000000 = some .nop ∧ decodeTableWord 32 0x00000004 = some .decode ∧
  decodeTableWord 32 0x00000007 = some .frame ∧ decodeTableWord 32 0x0000000F = some (.reservedOp 15) ∧
  decodeTableWord 32 0x80000007 = some (.reservedRes 0x8000000 7) ∧
  decodeTableWord 8 0x0C = some .dispRestoreToPrevious ∧ decodeTableWord 8 0xE4 = some .dispDoNotDispose

/-! ## The step -/

/-- A CMD write whose turn is the last one scheduled runs the decoded word: the step is `exec` of it, with the operation
taken from the queue. That nothing scheduled means no interleaving is the model's choice [log 5], [log 6]. -/
def Obligations.StepRunsCommandWord : Prop :=
  ∀ (s : State) (w : Word) (rest : List HostOp),
    s.host = .write (s.cfg.base + 4) 4 w :: rest → nextAgent s = .host → s.sched.tail = [] →
    step s = exec (decodeCommand w) (takeOp rest s)

/-- A CMD write with turns scheduled after it is the acceptance of R83 alone: OVR while BUSY; BADCMD for a reserved word;
else the snapshot is taken and the phase is BUSY(op). The schedule is the model's [log 5], [log 6]. -/
def Obligations.StepAcceptsCommandWord : Prop :=
  ∀ (s : State) (w : Word) (rest : List HostOp),
    s.host = .write (s.cfg.base + 4) 4 w :: rest → nextAgent s = .host → s.sched.tail ≠ [] →
    (busy s = true →
      step s = .next { takeOp rest s with status := { s.status with ovr := true } }) ∧
    (busy s = false → opOf (decodeCommand w) = none →
      step s = .next { takeOp rest s with status := ⟨true, true, s.status.ovr, .badcmd, s.status.stop⟩ }) ∧
    (∀ op, busy s = false → opOf (decodeCommand w) = some op →
      step s = .next { takeOp rest s with
        snap := s.conf
        phase := .busy op .start
        status := ⟨false, false, s.status.ovr, .none,
          if op = .decode ∨ op = .frame then .none else s.status.stop⟩ })

/-- In the decode loop, the engine's step reads W bits at POS, moves POS past them and runs the decoded code
(R100, R102). One code a step is the model's grain [log 7]. -/
def Obligations.StepRunsDecodedCode : Prop :=
  ∀ (s : State) (op : Op) (c : Nat),
    s.phase = .busy op .lzw → nextAgent s = .engine → s.lzw.outn < pixelCount s.snap →
    s.lzw.pos + s.lzw.w ≤ streamBits s.snap → readBits s.cdata s.lzw.pos s.lzw.w = .ok c →
    step s = (match exec (decodeCode (codeCtx s) c) (advancePos (popTurn s)) with
      | .next t => .next (afterCode op t)
      | .fault f => .fault f
      | .refused r => .refused r)

/-- In the sub-phase Seed, the engine's step runs the disposal code that LAST_DISP holds, and paints next (R129).
One sub-phase a step is the model's grain [log 7]. -/
def Obligations.StepRunsDisposalCode : Prop :=
  ∀ (s : State) (op : Op), s.phase = .busy op .seed → nextAgent s = .engine →
    step s = (match exec (decodeDisposal s.frameInfo.lastDisp) (popTurn s) with
      | .next t => .next (setPhase (.busy op (.paint 0 0)) t)
      | .fault f => .fault f
      | .refused r => .refused r)

/-! ## Commands: acceptance, checks, errors -/

/-- A command word written while BUSY only sets OVR, whatever the command (R83, R187). -/
def Obligations.BusyCommandOnlySetsOvr : Prop :=
  ∀ (s : State) (i : Instr), isCommandWord i = true → busy s = true →
    exec i s = .next { s with status := { s.status with ovr := true } }

/-- Reserved command words: which words they are (R71, R72), and that each ends at once with BADCMD, no snapshot, and
nothing else changed (R166, R167). -/
def Obligations.ReservedWordsRaiseBadcmd : Prop :=
  (∀ w : Word, (w.extractLsb' 4 28 = 0 ∧ 8 ≤ (w.extractLsb' 0 4).toNat →
      decodeCommand w = .reservedOp (w.extractLsb' 0 4)) ∧
    (w.extractLsb' 4 28 ≠ 0 → decodeCommand w = .reservedRes (w.extractLsb' 4 28) (w.extractLsb' 0 4))) ∧
  ∀ (s : State) (res : BitVec 28) (op : BitVec 4), s.phase = .idle →
    exec (.reservedOp op) s = .next { s with status := ⟨true, true, s.status.ovr, .badcmd, s.status.stop⟩ } ∧
    exec (.reservedRes res op) s = .next { s with status := ⟨true, true, s.status.ovr, .badcmd, s.status.stop⟩ }

/-- The first failing check in table order ends the command with its code, and only the acceptance has changed anything
else (R84, R168); R84's table, row by row: what each command ends with when a check of its own fails, and that otherwise
no check of it fails. -/
def Obligations.FirstFailingCheckEndsCommand : Prop :=
  (∀ (s : State) (op : Op) (before after : List Check) (c : Check), s.phase = .idle →
    checksOf op = before ++ c :: after →
    (∀ d ∈ before, checkFails d s.cfg s.conf = false) → checkFails c s.cfg s.conf = true →
    exec (instrOf op) s = .next { s with
      snap := s.conf
      status := endStatus s (checkCode c) (if op = .decode ∨ op = .frame then .none else s.status.stop) }) ∧
  ∀ s : State, s.phase = .idle →
    let v1 : Prop := s.conf.imgCfg.mcs.toNat < s.cfg.mcsLo ∨ s.conf.imgCfg.mcs.toNat > 8
    let v2 : Prop := s.conf.iw.toNat * s.conf.ih.toNat > s.cfg.pixMax
    let v3 : Prop := s.conf.clen.toNat > s.cfg.cdataBytes
    let v4 : Prop := s.conf.sw.toNat * s.conf.sh.toNat > s.cfg.canvasPixMax
    let v5 : Prop := s.conf.brN.toNat > 16
    let v6 : Prop := s.conf.brOff.toNat + s.conf.brN.toNat > 8 * s.conf.clen.toNat
    let ended (code : ErrCode) (stop : Stop) : Host.Outcome State Fault Refusal :=
      .next { s with snap := s.conf, status := ⟨true, true, s.status.ovr, code, stop⟩ }
    (v1 ∨ v2 ∨ v3 → exec .decode s = ended .cfg .none) ∧
    (v2 → exec .reorder s = ended .cfg s.status.stop) ∧
    (v2 ∨ v4 → exec .compose s = ended .cfg s.status.stop) ∧
    (v1 ∨ v2 ∨ v3 ∨ v4 → exec .frame s = ended .cfg .none) ∧
    (v3 → exec .bitread s = ended .cfg s.status.stop) ∧
    (¬ v3 → v5 ∨ v6 → exec .bitread s = ended .brrange s.status.stop) ∧
    (failedCheck .decode s.cfg s.conf = none ↔ ¬ (v1 ∨ v2 ∨ v3)) ∧
    (failedCheck .reorder s.cfg s.conf = none ↔ ¬ v2) ∧
    (failedCheck .compose s.cfg s.conf = none ↔ ¬ (v2 ∨ v4)) ∧
    (failedCheck .frame s.cfg s.conf = none ↔ ¬ (v1 ∨ v2 ∨ v3 ∨ v4)) ∧
    (failedCheck .bitread s.cfg s.conf = none ↔ ¬ (v3 ∨ v5 ∨ v6)) ∧
    (∀ op, op = .nop ∨ op = .sreset ∨ op = .newstream → failedCheck op s.cfg s.conf = none)

/-- NOP (R85): the word 0; only the acceptance and DONE; from reset STATUS reads 0x0000_0002; while BUSY it sets OVR. -/
def Obligations.NopCompletesAtOnce : Prop :=
  decodeCommand 0x00000000 = .nop ∧
  (∀ s : State, s.phase = .idle →
    exec .nop s = .next { s with snap := s.conf, status := endStatus s .none s.status.stop }) ∧
  (∀ s : State, busy s = true → exec .nop s = .next { s with status := { s.status with ovr := true } }) ∧
  statusWord false (endStatus State.reset .none State.reset.status.stop) (stopBits State.reset.status.stop) = 2

/-- SRESET (R86): the word 1; every register at its reset value, STATUS = DONE only, every memory kept; refused with OVR
while BUSY. -/
def Obligations.SresetResetsRegistersKeepsMemories : Prop :=
  decodeCommand 0x00000001 = .sreset ∧
  (∀ s : State, busy s = true → exec .sreset s = .next { s with status := { s.status with ovr := true } }) ∧
  ∀ s : State, s.phase = .idle →
    exec .sreset s = .next { s with
      conf := { ctrl := ⟨false, true, false⟩, sw := 0, sh := 0, lsd := 0, bgIdx := 0, aspect := 0, left := 0, top := 0,
                iw := 0, ih := 0, imgCfg := ⟨0, false, false, false, 0⟩, packed := 0, tidx := 0, delay := 0,
                clen := 0, brOff := 0, brN := 0 }
      snap := s.conf
      status := ⟨true, false, false, .none, .none⟩
      warn := ⟨false, false, false⟩
      brVal := 0
      lzw := ⟨0, 0, none, 0, 0⟩
      frameNo := 0
      frameInfo := ⟨2, false⟩
      dly := ⟨0, false, false⟩ }

/-- NEWSTREAM (R87): the word 2; FRAME_NO 0, LAST_DISP 2, KEEP_V 0, WARN 0, DLY 0, DONE, and nothing else. -/
def Obligations.NewstreamForgetsFrameHistory : Prop :=
  decodeCommand 0x00000002 = .newstream ∧
  ∀ s : State, s.phase = .idle →
    exec .newstream s = .next { s with
      snap := s.conf
      status := endStatus s .none s.status.stop
      warn := ⟨false, false, false⟩
      frameNo := 0
      frameInfo := ⟨2, false⟩
      dly := ⟨0, false, false⟩ }

/-- BITREAD (R88): the word 3; with its checks passed and the bytes of its field loaded it writes ReadBits(OFF, N) to BR_VAL
and completes, N = 0 and OFF + N = 8 × LEN included; a byte of the field never written is a fault; on a failed check BR_VAL
keeps its value; the LZW state is never touched. -/
def Obligations.BitreadReadsTheField : Prop :=
  decodeCommand 0x00000003 = .bitread ∧
  ∀ s : State, s.phase = .idle →
    (s.conf.clen.toNat ≤ s.cfg.cdataBytes → s.conf.brN.toNat ≤ 16 →
      s.conf.brOff.toNat + s.conf.brN.toNat ≤ 8 * s.conf.clen.toNat →
      ((∀ i, i < s.conf.brN.toNat → (memGet s.cdata ((s.conf.brOff.toNat + i) / 8)).isSome = true) →
        ∃ v, readBits s.cdata s.conf.brOff.toNat s.conf.brN.toNat = .ok v ∧ v < 2 ^ s.conf.brN.toNat ∧
          (s.conf.brN = 0 → v = 0) ∧
          exec .bitread s = .next { s with
            snap := s.conf, status := endStatus s .none s.status.stop, brVal := BitVec.ofNat 16 v }) ∧
      (∀ i, i < s.conf.brN.toNat → memGet s.cdata ((s.conf.brOff.toNat + i) / 8) = none →
        ∃ k, exec .bitread s = .fault (.bottomRead .cdata k) ∧ memGet s.cdata k = none)) ∧
    (s.conf.clen.toNat > s.cfg.cdataBytes →
      exec .bitread s = .next { s with snap := s.conf, status := endStatus s .cfg s.status.stop }) ∧
    (s.conf.clen.toNat ≤ s.cfg.cdataBytes →
      s.conf.brN.toNat > 16 ∨ s.conf.brOff.toNat + s.conf.brN.toNat > 8 * s.conf.clen.toNat →
      exec .bitread s = .next { s with snap := s.conf, status := endStatus s .brrange s.status.stop })

/-- ReadBits is the sum of R95, and its result is below 2^n. -/
def Obligations.ReadBitsIsTheWeightedSum : Prop :=
  ∀ (m : Mem Byte) (b : Nat → Byte) (off n : Nat),
    (∀ i, i < n → memGet m ((off + i) / 8) = some (b ((off + i) / 8))) →
    readBits m off n =
      .ok (∑ i ∈ Finset.range n, (b ((off + i) / 8)).toNat / 2 ^ ((off + i) % 8) % 2 * 2 ^ i) ∧
    ∑ i ∈ Finset.range n, (b ((off + i) / 8)).toNat / 2 ^ ((off + i) % 8) % 2 * 2 ^ i < 2 ^ n

/-- ReadBits with n ≥ 1 reads exactly the bytes (off div 8) to ((off + n − 1) div 8) (R96): it succeeds exactly when they
all hold a value, a ⊥ one is the fault of R172, and no other byte matters. -/
def Obligations.ReadBitsReadsExactlyItsBytes : Prop :=
  ∀ (m : Mem Byte) (off n : Nat), 1 ≤ n →
    ((∃ v, readBits m off n = .ok v) ↔ ∀ k, off / 8 ≤ k → k ≤ (off + n - 1) / 8 → (memGet m k).isSome = true) ∧
    (∀ f, readBits m off n = .error f →
      ∃ k, off / 8 ≤ k ∧ k ≤ (off + n - 1) / 8 ∧ memGet m k = none ∧ f = .bottomRead .cdata k) ∧
    (∀ m' : Mem Byte, (∀ k, off / 8 ≤ k → k ≤ (off + n - 1) / 8 → memGet m' k = memGet m k) →
      readBits m' off n = readBits m off n)

/-! ## The LZW decompressor -/

/-- CLEAR (R103): the code 2^MCS; DictReset and P <- none; POS, OUTN and everything else stay. -/
def Obligations.ClearCodeResetsDictionary : Prop :=
  (∀ s : State, decodeCode (codeCtx s) (2 ^ s.snap.imgCfg.mcs.toNat) =
    .lzwClear s.lzw.w (2 ^ s.snap.imgCfg.mcs.toNat)) ∧
  ∀ (s : State) (w c : Nat), ∃ t, exec (.lzwClear w c) s = .next t ∧
    t = { s with dict := t.dict, lzw := ⟨s.snap.imgCfg.mcs.toNat + 1, clearCode s.snap + 2, none, s.lzw.pos, s.lzw.outn⟩ } ∧
    ∀ k, memGet t.dict k = literalEntry s.snap k

/-- END (R104): STOP <- END and nothing else. INVALID (R107): in strict mode STOP <- INVALID, in tolerant mode nothing. -/
def Obligations.EndAndInvalidCodesTouchOnlyStop : Prop :=
  ∀ (s : State) (w c : Nat),
    exec (.lzwEnd w c) s = .next { s with status := { s.status with stop := .endCode } } ∧
    (s.snap.ctrl.strict = true →
      exec (.lzwInvalid w c) s = .next { s with status := { s.status with stop := .invalid } }) ∧
    (s.snap.ctrl.strict = false → exec (.lzwInvalid w c) s = .next s)

/-- DICT and KWKWK where no peek is due (R105, R106, R108 to R110, R112): the string is emitted up to E, the entry
P ++ [s[0]] is added while N < 4096, which for KWKWK is s itself, W grows when N reaches 2^W, P <- s; POS and everything else
stay. That the entry is held whole where it passes R48's 4096 bytes is the model's choice [log 27]. -/
def Obligations.StringCodeEmitsAndGrows : Prop :=
  ∀ (s : State) (i : Instr) (str : Str), IsStringCode i s str → s.lzw.outn ≤ pixelCount s.snap → ¬ peekDue s →
    ∃ t, exec i s = .next t ∧
      t = { s with
        idxbuf := t.idxbuf, dict := t.dict
        lzw := ⟨grownWidth s, grownCount s, some str, s.lzw.pos, emittedCount s str⟩ } ∧
      (∀ k, memGet t.idxbuf k = emittedCell s str k) ∧ (∀ c, memGet t.dict c = grownEntry s str c) ∧
      (∀ p, s.lzw.p = some p → s.lzw.n < 4096 →
        memGet t.dict s.lzw.n = some ⟨p.head, p.tail ++ [str.head]⟩ ∧
        ((∃ w c, i = .lzwKwkwk w c) → memGet t.dict s.lzw.n = some str))

/-- DICT and KWKWK where the peek of R111 is due: with 12 bits left and a peeked code that is not the clear code the
dictionary and the width are reset, P is kept and POS does not move; else nothing is reset, and the entry
is held whole, of any length, which is the model's choice [log 27]; a ⊥ byte under the peek is a fault. -/
def Obligations.ForcedResetKeepsPreviousEntry : Prop :=
  ∀ (s : State) (i : Instr) (str : Str), IsStringCode i s str → s.lzw.outn ≤ pixelCount s.snap → peekDue s →
    (∀ v, s.lzw.pos + 12 ≤ streamBits s.snap → readBits s.cdata s.lzw.pos 12 = .ok v → v ≠ clearCode s.snap →
      ∃ t, exec i s = .next t ∧
        t = { s with
          idxbuf := t.idxbuf, dict := t.dict
          lzw := ⟨s.snap.imgCfg.mcs.toNat + 1, clearCode s.snap + 2, some str, s.lzw.pos, emittedCount s str⟩ } ∧
        (∀ k, memGet t.idxbuf k = emittedCell s str k) ∧ (∀ c, memGet t.dict c = literalEntry s.snap c)) ∧
    (∀ f, s.lzw.pos + 12 ≤ streamBits s.snap → readBits s.cdata s.lzw.pos 12 = .error f → exec i s = .fault f) ∧
    (s.lzw.pos + 12 > streamBits s.snap ∨ readBits s.cdata s.lzw.pos 12 = .ok (clearCode s.snap) →
      ∃ t, exec i s = .next t ∧
        t = { s with
          idxbuf := t.idxbuf, dict := t.dict
          lzw := ⟨12, 4096, some str, s.lzw.pos, emittedCount s str⟩ } ∧
        (∀ k, memGet t.idxbuf k = emittedCell s str k) ∧ (∀ c, memGet t.dict c = grownEntry s str c))

/-- The count and input tests of a decode step (R101, R102): with E pixels out, STOP = COUNT and no read; else with fewer
than W bits left, STOP = INPUT, nothing read and POS where it is. -/
def Obligations.DecodeStopsBeforeReading : Prop :=
  ∀ s : State,
    (s.lzw.outn ≥ pixelCount s.snap → lzwStep s = .ok { s with status := { s.status with stop := .count } }) ∧
    (s.lzw.outn < pixelCount s.snap → s.lzw.pos + s.lzw.w > streamBits s.snap →
      lzwStep s = .ok { s with status := { s.status with stop := .input } })

/-- LzwStart establishes the invariants of a decode (R99, R116), R116's clause on the first new entry and R48's bound on the
strings among them. -/
def Obligations.LzwStartEstablishesInvariant : Prop :=
  ∀ s : State, 2 ≤ s.snap.imgCfg.mcs.toNat → s.snap.imgCfg.mcs.toNat ≤ 8 →
    LzwInv (lzwStart s) ∧ DictPrefixInv (lzwStart s)

/-- Every decode step keeps the invariants of a decode (R77, R116), R116's clause on the prefix of every entry but that of code
2^MCS + 2 after a forced reset [log 23] among them, and with its CDATA loaded it meets no fault: a ⊥ dictionary cell is never
read (R172). Between the steps every string of DICT has 1 to 4096 bytes (R48) where the image has fewer than
1 + 2 + … + 4096 pixels, forced resets or not [log 27]. -/
def Obligations.LzwStepKeepsInvariant : Prop :=
  ∀ s : State, LzwInv s →
    (∀ t, lzwStep s = .ok t → LzwInv t) ∧ (cdataLoaded s.snap s → ∃ t, lzwStep s = .ok t) ∧
    (pixelCount s.snap < 8390656 → ∀ c str, memGet s.dict c = some str → 1 ≤ str.length ∧ str.length ≤ 4096)

/-- Until a forced reset keeps a previous entry, every new entry, the first one too, is an earlier string plus one byte (R116)
and every string is at most 4096 bytes long (R48), between all steps; with EARLY_RESET = 0 always. That the forced reset ends
the first, and in an image of 8390656 pixels or more can end the second, is the model's finding [log 23], [log 27]. -/
def Obligations.DictionaryIsPrefixClosedWithoutEarlyReset : Prop :=
  ∀ s t : State, LzwInv s → DictPrefixInv s → lzwStep s = .ok t →
    (s.snap.ctrl.earlyReset = false → DictPrefixInv t) ∧
    (DictPrefixInv t ∨ peekDue (advancePos s) ∧ t.lzw.n = clearCode s.snap + 2 ∧ t.lzw.p.isSome = true)

/-- Every decode ends within 8 × CLEN.LEN div (MCS + 1) + 1 steps (R115). -/
def Obligations.DecodeLoopEndsWithinBound : Prop :=
  ∀ s t : State, lzwLoop (lzwBound s.snap) (lzwStart s) = .ok t → t.status.stop ≠ .none

/-- DECODE (R89, R97, R114): with its checks passed and its bytes loaded it ends with a stop reason, its pixels in IDXBUF and
⊥ after them, UNDERRUN when it stopped short, LZWCODE only in strict mode, and nothing else changed. -/
def Obligations.DecodeFillsIdxbuf : Prop :=
  ∀ s : State, s.phase = .idle → 2 ≤ s.cfg.mcsLo → failedCheck .decode s.cfg s.conf = none → cdataLoaded s.conf s →
    ∃ t stop, exec .decode s = .next t ∧
      t = { s with
        snap := s.conf, idxbuf := t.idxbuf, dict := t.dict, lzw := t.lzw
        warn := { s.warn with
          underrun := s.warn.underrun || (stop != .count && decide (t.lzw.outn < pixelCount s.conf)) }
        status := endStatus s (if stop = .invalid then .lzwcode else .none) stop } ∧
      stop ≠ .none ∧ (stop = .invalid → s.conf.ctrl.strict = true) ∧
      (stop = .count → t.lzw.outn = pixelCount s.conf) ∧
      t.lzw.outn ≤ pixelCount s.conf ∧ t.lzw.pos ≤ 8 * s.conf.clen.toNat ∧
      (∀ k, (memGet t.idxbuf k).isSome = true ↔ k < t.lzw.outn) ∧
      (∀ k b, memGet t.idxbuf k = some b → b.toNat < clearCode s.conf)

/-! ## The interlace reorderer -/

/-- The closed form of R120 is the pass order of R119. -/
def Obligations.DestRowIsPassOrder : Prop :=
  ∀ h : Nat, rowOrder h = (List.range h).map fun s => destRow s h

/-- Dest(·, H) is a bijection of [0, H) onto [0, H) (R121). -/
def Obligations.DestRowIsBijection : Prop :=
  ∀ h : Nat, Set.BijOn (fun s => destRow s h) {s | s < h} {d | d < h}

/-- Order(H) is its own inverse only for H ≤ 4 (R122, C2). -/
def Obligations.DestRowSelfInverseOnlyUpToFour : Prop :=
  ∀ h : Nat, (∀ s, s < h → destRow (destRow s h) h = s) ↔ h ≤ 4

/-- REORDER (R90, R118): every cell of [0, E), ⊥ included, goes to its destination; cells from E on and everything else
stay. -/
def Obligations.ReorderMovesEveryCell : Prop :=
  ∀ s : State, s.phase = .idle → failedCheck .reorder s.cfg s.conf = none → memWf s.cfg.pixMax s.rbuf = true →
    ∃ t, exec .reorder s = .next t ∧
      t = { s with snap := s.conf, status := endStatus s .none s.status.stop, rbuf := t.rbuf } ∧
      (∀ k, k < pixelCount s.conf → memGet t.rbuf (destCell s.conf k) = memGet s.idxbuf k) ∧
      (∀ j, pixelCount s.conf ≤ j → memGet t.rbuf j = memGet s.rbuf j)

/-! ## The frame compositor -/

/-- Disposals 0, 2 and the reserved 4 to 7 fill the canvas with the background (R130, R132), and nothing else. -/
def Obligations.BackgroundDisposalsFillCanvas : Prop :=
  ∀ (s : State) (i : Instr) (bg : Rgba),
    i = .dispUnspecified ∨ i = .dispRestoreBackground ∨ i = .dispReserved4 ∨ i = .dispReserved5 ∨
      i = .dispReserved6 ∨ i = .dispReserved7 →
    backgroundPixel s.snap s = some bg →
    ∃ t, exec i s = .next t ∧ t = { s with canvas := t.canvas } ∧
      ∀ k, memGet t.canvas k = if k < canvasCount s.snap then some bg else memGet s.canvas k

/-- Disposal 1 (R131): the canvas starts as the previous frame; a ⊥ cell of it is a fault (R172). -/
def Obligations.DoNotDisposeCopiesPreviousFrame : Prop :=
  ∀ s : State,
    ((∀ k, k < canvasCount s.snap → (memGet s.prev k).isSome = true) →
      ∃ t, exec .dispDoNotDispose s = .next t ∧ t = { s with canvas := t.canvas } ∧
        ∀ k, memGet t.canvas k = if k < canvasCount s.snap then memGet s.prev k else memGet s.canvas k) ∧
    (∀ k, k < canvasCount s.snap → memGet s.prev k = none →
      ∃ j, exec .dispDoNotDispose s = .fault (.bottomRead .prev j) ∧ j ≤ k ∧ memGet s.prev j = none)

/-- Disposal 3 (R133): the canvas starts as the kept frame when KEEP_V = 1, else as background. -/
def Obligations.RestoreToPreviousCopiesKeptFrame : Prop :=
  ∀ s : State,
    (s.frameInfo.keepV = true → (∀ k, k < canvasCount s.snap → (memGet s.keep k).isSome = true) →
      ∃ t, exec .dispRestoreToPrevious s = .next t ∧ t = { s with canvas := t.canvas } ∧
        ∀ k, memGet t.canvas k = if k < canvasCount s.snap then memGet s.keep k else memGet s.canvas k) ∧
    (∀ bg, s.frameInfo.keepV = false → backgroundPixel s.snap s = some bg →
      ∃ t, exec .dispRestoreToPrevious s = .next t ∧ t = { s with canvas := t.canvas } ∧
        ∀ k, memGet t.canvas k = if k < canvasCount s.snap then some bg else memGet s.canvas k)

/-- Resolve and Delay with its seconds (R125, R126), Table (R127), and Background as an engine read of T[BG_IDX] only when BG_IDX < TLEN
(R128, R172). -/
def Obligations.FrameParametersResolve : Prop :=
  (∀ c : Conf,
    (c.imgCfg.gceV = true →
      resolveDisp c = c.packed.extractLsb' 2 3 ∧
      (c.packed.getLsbD 0 = true → resolveTrans c = some c.tidx) ∧
      (c.packed.getLsbD 0 = false → resolveTrans c = none) ∧
      (c.delay = 0 → frameDelay c = ⟨10, false, true⟩ ∧ delaySeconds (frameDelay c) = 1 / 10) ∧
      (c.delay ≠ 0 → frameDelay c = ⟨c.delay, false, false⟩ ∧ delaySeconds (frameDelay c) = c.delay.toNat / 100)) ∧
    (c.imgCfg.gceV = false → resolveDisp c = 2 ∧ resolveTrans c = none ∧ frameDelay c = ⟨0, true, false⟩ ∧
      delaySeconds (frameDelay c) = 1 / 60) ∧
    (c.imgCfg.lctEn = true → tableSel c = .localTable ∧ tableLen c = 2 ^ (c.imgCfg.lctExp.toNat + 1)) ∧
    (c.imgCfg.lctEn = false → c.lsd.getLsbD 7 = true →
      tableSel c = .globalTable ∧ tableLen c = 2 ^ ((c.lsd.extractLsb' 0 3).toNat + 1)) ∧
    (c.imgCfg.lctEn = false → c.lsd.getLsbD 7 = false → tableSel c = .none ∧ tableLen c = 0)) ∧
  (∀ s : State,
    (∀ bg, backgroundPixel s.snap s = some bg → background s = .ok bg) ∧
    (backgroundPixel s.snap s = none →
      (tableSel s.snap = .localTable ∧ background s = .error (.bottomRead .lct s.snap.bgIdx.toNat)) ∨
      (tableSel s.snap = .globalTable ∧ background s = .error (.bottomRead .gct s.snap.bgIdx.toNat))))

/-- COMPOSE, pixel by pixel (R124, R129, R134, R135, R137): the emitted frame's pixel (x, y) is the painted colour of its
RBUF cell, or the seeded value. -/
def Obligations.ComposePaintsEveryPixel : Prop :=
  ∀ s : State, s.phase = .idle → failedCheck .compose s.cfg s.conf = none → tableLoaded s.conf s →
    historyLoaded s.conf s →
    ∃ t, exec .compose s = .next t ∧
      ∀ x y, x < s.conf.sw.toNat → y < s.conf.sh.toNat →
        memGet t.prev (y * s.conf.sw.toNat + x) = framePixel s.conf s x y ∧
        (memGet t.prev (y * s.conf.sw.toNat + x)).isSome = true

/-- COMPOSE's frame and history (R91, R138): what a completed COMPOSE leaves in every field. -/
def Obligations.ComposeEmitsFrameAndHistory : Prop :=
  ∀ s t : State, s.phase = .idle → failedCheck .compose s.cfg s.conf = none → exec .compose s = .next t →
    t = { s with
      snap := s.conf
      status := endStatus s .none s.status.stop
      warn := { s.warn with badidx := t.warn.badidx, exhaust := t.warn.exhaust }
      canvas := t.canvas, prev := t.prev, keep := t.keep
      frameNo := s.frameNo + 1
      frameInfo := ⟨resolveDisp s.conf, s.frameInfo.keepV || (resolveDisp s.conf = 0 || resolveDisp s.conf = 1)⟩
      dly := frameDelay s.conf } ∧
    (∀ k, k < canvasCount s.conf → memGet t.prev k = memGet t.canvas k) ∧
    (∀ k, canvasCount s.conf ≤ k → memGet t.canvas k = memGet s.canvas k) ∧
    (∀ k, canvasCount s.conf ≤ k → memGet t.prev k = memGet s.prev k) ∧
    (∀ k, memGet t.keep k =
      if (resolveDisp s.conf = 0 ∨ resolveDisp s.conf = 1) ∧ k < canvasCount s.conf then memGet t.canvas k
      else memGet s.keep k)

/-- The warnings of Paint (R135, R170): BADIDX and EXHAUST are set exactly by a pixel that meets their condition, and stay
set. -/
def Obligations.ComposeWarnsExactlyOnBadPixels : Prop :=
  ∀ s t : State, s.phase = .idle → failedCheck .compose s.cfg s.conf = none → exec .compose s = .next t →
    (t.warn.exhaust = true ↔ s.warn.exhaust = true ∨
      ∃ x y, x < s.conf.sw.toNat ∧ y < s.conf.sh.toNat ∧ inside s.conf x y = true ∧
        memGet s.rbuf (sourceCell s.conf x y) = none) ∧
    (t.warn.badidx = true ↔ s.warn.badidx = true ∨
      ∃ x y v, x < s.conf.sw.toNat ∧ y < s.conf.sh.toNat ∧ inside s.conf x y = true ∧
        memGet s.rbuf (sourceCell s.conf x y) = some v ∧ resolveTrans s.conf ≠ some v ∧ tableLen s.conf ≤ v.toNat)

/-- COMPOSE reads only RBUF cells below E = IW × IH (R135, R136): with any other contents of the cells from E on, it has the
same outcome, a fault included, but for RBUF. -/
def Obligations.PaintReadsOnlyCellsBelowE : Prop :=
  ∀ (s : State) (m : Mem Byte), (∀ j, j < pixelCount s.conf → memGet m j = memGet s.rbuf j) →
    exec .compose { s with rbuf := m } = (match exec .compose s with
      | .next t => .next { t with rbuf := m }
      | .fault f => .fault f
      | .refused r => .refused r)

/-- Disposal-2 property (R143): outside the current rectangle every pixel is the background, alpha 0 exactly when the
background index is the transparent index. -/
def Obligations.AfterDisposal2OutsideIsBackground : Prop :=
  ∀ s t : State, s.phase = .idle → failedCheck .compose s.cfg s.conf = none → s.frameInfo.lastDisp = 2 →
    exec .compose s = .next t →
    ∀ x y, x < s.conf.sw.toNat → y < s.conf.sh.toNat → inside s.conf x y = false →
      ∃ bg, backgroundPixel s.conf s = some bg ∧ memGet t.prev (y * s.conf.sw.toNat + x) = some bg ∧
        (bg.a = 0 ↔ resolveTrans s.conf = some s.conf.bgIdx)

/-- Disposal-1 property (R144): outside the current rectangle every pixel is the previous frame's. -/
def Obligations.AfterDisposal1OutsideIsPreviousFrame : Prop :=
  ∀ s t : State, s.phase = .idle → failedCheck .compose s.cfg s.conf = none → s.frameInfo.lastDisp = 1 →
    exec .compose s = .next t →
    ∀ x y, x < s.conf.sw.toNat → y < s.conf.sh.toNat → inside s.conf x y = false →
      memGet t.prev (y * s.conf.sw.toNat + x) = memGet s.prev (y * s.conf.sw.toNat + x)

/-- PREV, KEEP, KEEP_V and LAST_DISP carry the whole history (R139): they represent the empty history after NEWSTREAM, and
every frame a COMPOSE or FRAME emits is appended to the history they represent. -/
def Obligations.FrameHistoryNeedsOnlyPrevAndKeep : Prop :=
  (∀ (n : Nat) (s t : State), s.phase = .idle → exec .newstream s = .next t → Represents n [] t) ∧
  (∀ (s t : State) (i : Instr) (h : List ((Nat → Option Rgba) × BitVec 3)), i = .compose ∨ i = .frame →
    s.phase = .idle → Represents (canvasCount s.conf) h s → exec i s = .next t → t.status.err = false →
    Represents (canvasCount s.conf) (h ++ [(fun k => memGet t.prev k, resolveDisp s.conf)]) t)

/-! ## FRAME, and whole-command claims -/

/-- FRAME is DECODE, REORDER, COMPOSE issued one after another when no check fails and no LZWCODE error occurs
(R92, C8). -/
def Obligations.FrameIsDecodeReorderCompose : Prop :=
  ∀ s a b : State, s.phase = .idle → failedCheck .frame s.cfg s.conf = none →
    exec .decode s = .next a → a.status.err = false → exec .reorder a = .next b →
    exec .frame s = exec .compose b

/-- FRAME with an LZWCODE error leaves what DECODE leaves, and no frame is emitted (R92, R166). -/
def Obligations.FrameStopsAtLzwcode : Prop :=
  ∀ s a : State, s.phase = .idle → failedCheck .frame s.cfg s.conf = none →
    exec .decode s = .next a → a.status.errcode = .lzwcode →
    exec .frame s = .next a ∧ a.frameNo = s.frameNo ∧ a.prev = s.prev ∧ a.rbuf = s.rbuf

/-- FRAME completes (R92): in tolerant mode, with its checks passed and its inputs loaded, it ends without error and emits
one frame of SW × SH pixels (R142). -/
def Obligations.FrameEmitsOneFrame : Prop :=
  ∀ s : State, s.phase = .idle → 2 ≤ s.cfg.mcsLo → failedCheck .frame s.cfg s.conf = none →
    s.conf.ctrl.strict = false → cdataLoaded s.conf s → tableLoaded s.conf s → historyLoaded s.conf s →
    ∃ t stop, exec .frame s = .next t ∧ t.phase = .idle ∧ t.status = endStatus s .none stop ∧
      t.frameNo = s.frameNo + 1 ∧ t.frameInfo.lastDisp = resolveDisp s.conf ∧ t.dly = frameDelay s.conf ∧
      (∀ k, k < canvasCount s.conf → (memGet t.prev k).isSome = true) ∧
      (∀ k, canvasCount s.conf ≤ k → memGet t.prev k = memGet s.prev k) ∧
      t.conf = s.conf ∧ t.cdata = s.cdata ∧ t.gct = s.gct ∧ t.lct = s.lct ∧ t.brVal = s.brVal

/-- The frames are a function of the inputs and the history (R145): two states that agree on these emit the same frame,
whatever IDXBUF, RBUF, CANVAS, DICT and the LZW registers held. -/
def Obligations.FrameDependsOnlyOnItsInputs : Prop :=
  ∀ s s' t t' : State, s.phase = .idle → s'.phase = .idle → memsWf s = true → memsWf s' = true →
    s'.cfg = s.cfg → s'.conf = s.conf → s'.cdata = s.cdata → s'.gct = s.gct → s'.lct = s.lct →
    s'.frameInfo = s.frameInfo → s'.frameNo = s.frameNo → s'.prev = s.prev → s'.keep = s.keep →
    exec .frame s = .next t → exec .frame s' = .next t' →
    t'.status.errcode = t.status.errcode ∧ t'.frameNo = t.frameNo ∧ t'.frameInfo = t.frameInfo ∧
    (t.status.err = false → t'.dly = t.dly) ∧
    (∀ k, memGet t'.prev k = memGet t.prev k) ∧ (∀ k, memGet t'.keep k = memGet t.keep k)

/-- The engine's own steps of an uninterrupted command end where its meaning does: for every command, some number of
engine steps from its acceptance gives exactly what its body gives, a model fault included (R83, R92). The grain of the steps
is the model's [log 7]. -/
def Obligations.EngineStepsRefineCommands : Prop :=
  ∀ (op : Op) (s : State), ∃ n, engineRun n (accept op s) = commandBody op (accept op s)

/-- Every command ends (R184): from any state whose decode width is at least 1, some number of engine steps leaves the engine
idle or at a model fault. The grain of the steps is the model's [log 7], and so is that they come when scheduled [log 26]. -/
def Obligations.EngineAlwaysEnds : Prop :=
  ∀ s : State, (∀ op, s.phase = .busy op .lzw → 1 ≤ s.lzw.w) →
    ∃ n, (∃ t, engineRun n s = .ok t ∧ t.phase = .idle) ∨ ∃ f, engineRun n s = .error f

/-- A running command does not see a configuration write (R51, R186): wherever it stands, its next step with any other live
configuration is the same but for that configuration, and so is what is left of the command from its acceptance on. SRESET
alone rewrites the live configuration, in its one step. The grain of the steps is the model's [log 7]. -/
def Obligations.RunningCommandIgnoresConfiguration : Prop :=
  (∀ (s : State) (c : Conf), s.phase ≠ .busy .sreset .start →
    engineStep { s with conf := c } = (engineStep s).map fun t => { t with conf := c }) ∧
  (∀ (op : Op) (s : State) (c : Conf), op ≠ .sreset →
    commandBody op { s with conf := c } = (commandBody op s).map fun t => { t with conf := c })

/-- The interrupt (R171): it equals DONE ∧ IE after every command; acknowledging DONE drops it; a write of CTRL with DONE = 1
sets it to IE. -/
def Obligations.InterruptFollowsDoneAndEnable : Prop :=
  (∀ (s t : State) (op : Op), s.phase = .idle → exec (instrOf op) s = .next t → irq t = t.conf.ctrl.ie) ∧
  (∀ (s : State) (v : Word), v.getLsbD 1 = true → irq (regWrite .status v s) = false) ∧
  (∀ (s : State) (v : Word), s.status.done = true → irq (regWrite .ctrl v s) = v.getLsbD 0)

/-! ## The host window -/

/-- Accesses that are not aligned 32-bit words are bus errors (R60, R173); accesses to reserved offsets are not: they read 0
and write nothing (R19, R55). That a misaligned access to a memory while BUSY is a bus error before it is the hazard of R185,
that UGPP does not see an access outside its window, nor one that begins below it and ends inside it, and that a read draws a
free word are the model's choices [log 11], [log 12], [log 29], [log 2]. -/
def Obligations.UnalignedAccessIsBusError : Prop :=
  (∀ (s : State) (off : Nat) (v : Word), off % 4 = 0 →
    (0x50 ≤ off ∧ off < 0x400) ∨ (0xC00 ≤ off ∧ off < 0x1000000) ∨ (0x8000000 ≤ off ∧ off < 2 ^ 28) →
    busWrite (s.cfg.base + off) 4 v s = .ok s ∧
    busRead (s.cfg.base + off) 4 s = .ok (0, { s with draws := s.draws + 1 })) ∧
  (∀ (s : State) (addr width : Nat) (v : Word), s.cfg.base ≤ addr → addr < s.cfg.base + 2 ^ 28 →
    width ≠ 4 ∨ (addr - s.cfg.base) % 4 ≠ 0 →
    busWrite addr width v s = .error (.busError addr width) ∧ busRead addr width s = .error (.busError addr width)) ∧
  ∀ (s : State) (addr width : Nat) (v : Word), addr < s.cfg.base ∨ s.cfg.base + 2 ^ 28 ≤ addr →
    busWrite addr width v s = .ok s ∧
    ∃ w, busRead addr width s = .ok (w, { s with draws := s.draws + 1 })

/-- A host access to a memory region while BUSY is a fault (R185), and to nothing else: the register window stays open. That it
is one past the memory's size too, where R55 says that such an address reads 0 and ignores writes, is the model's choice
[log 28]. -/
def Obligations.MemoryAccessWhileBusyFaults : Prop :=
  ∀ (s : State) (off : Nat) (v : Word), busy s = true → off % 4 = 0 → off < 2 ^ 28 →
    ((0x400 ≤ off ∧ off < 0xC00) ∨ (0x1000000 ≤ off ∧ off < 0x8000000) →
      busWrite (s.cfg.base + off) 4 v s = .error (.memoryWhileBusy (s.cfg.base + off)) ∧
      busRead (s.cfg.base + off) 4 s = .error (.memoryWhileBusy (s.cfg.base + off))) ∧
    (off < 0x400 ∨ (0xC00 ≤ off ∧ off < 0x1000000) ∨ 0x8000000 ≤ off →
      (∃ t, busWrite (s.cfg.base + off) 4 v s = .ok t) ∧ ∃ r, busRead (s.cfg.base + off) 4 s = .ok r)

/-- The register window at R18's offsets. A write of a configuration register gives its fields their bits of the word (R20,
R24 to R32) and changes nothing else, idle or BUSY (R186); a write of a read-only register (R33 to R39) changes nothing. CMD
reads 0 (R21); every configuration register reads as its fields, reserved bits 0 (R19), idle or BUSY, so that it reads back
what was written. While idle STATUS and WARN (R22, R23) and the result registers (R33 to R39) read as the values they hold;
while BUSY, STATUS reads BUSY = 1, DONE = 0, ERR = 0, ERRCODE = 0 and OVR, with any STOP (R186). A read changes nothing but the
model's own draw counter (R61) [log 2]. -/
def Obligations.ConfigurationRegistersReadBack : Prop :=
  (∀ (s : State) (v : Word),
    configures s 0x00 v { s.conf with ctrl := ⟨v.getLsbD 0, v.getLsbD 1, v.getLsbD 2⟩ } ∧
    configures s 0x10 v { s.conf with sw := v.extractLsb' 0 16, sh := v.extractLsb' 16 16 } ∧
    configures s 0x14 v { s.conf with
      lsd := v.extractLsb' 0 8, bgIdx := v.extractLsb' 8 8, aspect := v.extractLsb' 16 8 } ∧
    configures s 0x18 v { s.conf with left := v.extractLsb' 0 16, top := v.extractLsb' 16 16 } ∧
    configures s 0x1C v { s.conf with iw := v.extractLsb' 0 16, ih := v.extractLsb' 16 16 } ∧
    configures s 0x20 v { s.conf with
      imgCfg := ⟨v.extractLsb' 0 4, v.getLsbD 4, v.getLsbD 5, v.getLsbD 6, v.extractLsb' 8 3⟩ } ∧
    configures s 0x24 v { s.conf with
      packed := v.extractLsb' 0 8, tidx := v.extractLsb' 8 8, delay := v.extractLsb' 16 16 } ∧
    configures s 0x28 v { s.conf with clen := v.extractLsb' 0 25 } ∧
    configures s 0x2C v { s.conf with brOff := v } ∧
    configures s 0x30 v { s.conf with brN := v.extractLsb' 0 5 } ∧
    ∀ off ∈ [0x34, 0x38, 0x3C, 0x40, 0x44, 0x48, 0x4C], configures s off v s.conf) ∧
  (∀ s : State,
    readsAs s 0x00 ((0 : BitVec 29) ++ BitVec.ofBool s.conf.ctrl.strict ++ BitVec.ofBool s.conf.ctrl.earlyReset ++
      BitVec.ofBool s.conf.ctrl.ie) ∧
    readsAs s 0x04 0 ∧
    readsAs s 0x10 (s.conf.sh ++ s.conf.sw) ∧
    readsAs s 0x14 ((0 : BitVec 8) ++ s.conf.aspect ++ s.conf.bgIdx ++ s.conf.lsd) ∧
    readsAs s 0x18 (s.conf.top ++ s.conf.left) ∧
    readsAs s 0x1C (s.conf.ih ++ s.conf.iw) ∧
    readsAs s 0x20 ((0 : BitVec 21) ++ s.conf.imgCfg.lctExp ++ (0 : BitVec 1) ++ BitVec.ofBool s.conf.imgCfg.gceV ++
      BitVec.ofBool s.conf.imgCfg.lctEn ++ BitVec.ofBool s.conf.imgCfg.ilace ++ s.conf.imgCfg.mcs) ∧
    readsAs s 0x24 (s.conf.delay ++ s.conf.tidx ++ s.conf.packed) ∧
    readsAs s 0x28 ((0 : BitVec 7) ++ s.conf.clen) ∧
    readsAs s 0x2C s.conf.brOff ∧
    readsAs s 0x30 ((0 : BitVec 27) ++ s.conf.brN)) ∧
  (∀ s : State, busy s = false →
    readsAs s 0x08 ((0 : BitVec 21) ++ stopField s.status.stop ++ errField s.status.errcode ++
      BitVec.ofBool s.status.ovr ++ BitVec.ofBool s.status.err ++ BitVec.ofBool s.status.done ++ (0 : BitVec 1)) ∧
    readsAs s 0x0C ((0 : BitVec 29) ++ BitVec.ofBool s.warn.exhaust ++ BitVec.ofBool s.warn.badidx ++
      BitVec.ofBool s.warn.underrun) ∧
    readsAs s 0x34 ((0 : BitVec 16) ++ s.brVal) ∧
    readsAs s 0x38 ((0 : BitVec 7) ++ BitVec.ofNat 25 s.lzw.outn) ∧
    readsAs s 0x3C ((0 : BitVec 3) ++ BitVec.ofNat 13 s.lzw.n ++ (0 : BitVec 11) ++ BitVec.ofBool s.lzw.p.isSome ++
      BitVec.ofNat 4 s.lzw.w) ∧
    readsAs s 0x40 (BitVec.ofNat 32 s.lzw.pos) ∧
    readsAs s 0x44 s.frameNo ∧
    readsAs s 0x48 ((0 : BitVec 28) ++ BitVec.ofBool s.frameInfo.keepV ++ s.frameInfo.lastDisp) ∧
    readsAs s 0x4C ((0 : BitVec 14) ++ BitVec.ofBool s.dly.clamp ++ BitVec.ofBool s.dly.tick ++ s.dly.cs)) ∧
  (∀ s : State, busy s = true → statusInv s →
    ∃ stop : BitVec 3, readsAs s 0x08 ((0 : BitVec 21) ++ stop ++ (0 : BitVec 4) ++ BitVec.ofBool s.status.ovr ++
      (0 : BitVec 1) ++ (0 : BitVec 1) ++ (1 : BitVec 1))) ∧
  (∀ (s : State) (v : Word) (r : Nat × Word), r ∈ [(0x00, 0x00000007), (0x10, 0xFFFFFFFF), (0x14, 0x00FFFFFF),
      (0x18, 0xFFFFFFFF), (0x1C, 0xFFFFFFFF), (0x20, 0x0000077F), (0x24, 0xFFFFFFFF), (0x28, 0x01FFFFFF),
      (0x2C, 0xFFFFFFFF), (0x30, 0x0000001F)] →
    ∃ t, busWrite (s.cfg.base + r.1) 4 v s = .ok t ∧ readsAs t r.1 (v &&& r.2))

/-- CDATA words (R55, R58): a written word reads back, byte j of it is lane j, every other byte stays; bytes past the size
read 0 and ignore the write. Colour-table words (R56): R, G, B in the three low bytes, the high byte reads 0, the write
replaces ⊥ and changes no other entry. Nothing but the written memory changes. OUT words (R57): R, G, B, A from the lowest
byte on, 0 past the size. IDXBUF and RBUF words (R43, R44, R55): ⊥ and the bytes past the size read 0. Writes of IDXBUF, RBUF
and OUT are ignored (R55). A read changes nothing but the model's own draw counter (R61) [log 2]. That in a CDATA word with
some ⊥ bytes the loaded bytes and those past the size still read as themselves, where R62 lets a ⊥ cell read as any value, is
the model's choice [log 9]. -/
def Obligations.MemoryWordsReadBack : Prop :=
  (∀ (s : State) (k : Nat) (v : Word), busy s = false → k % 4 = 0 → k < 2 ^ 24 →
    ∃ t, busWrite (s.cfg.base + 0x1000000 + k) 4 v s = .ok t ∧ t = { s with cdata := t.cdata } ∧
      (∀ i, memGet t.cdata i =
        if k ≤ i ∧ i < k + 4 ∧ i < s.cfg.cdataBytes then some (v.extractLsb' (8 * (i - k)) 8) else memGet s.cdata i) ∧
      (k + 4 ≤ s.cfg.cdataBytes → readsAs t (0x1000000 + k) v)) ∧
  (∀ (s : State) (k : Nat), busy s = false → k % 4 = 0 → k < 2 ^ 24 →
    ∃ v, readsAs s (0x1000000 + k) v ∧ ∀ j, j < 4 →
      (s.cfg.cdataBytes ≤ k + j → v.extractLsb' (8 * j) 8 = 0) ∧
      (∀ b, k + j < s.cfg.cdataBytes → memGet s.cdata (k + j) = some b → v.extractLsb' (8 * j) 8 = b)) ∧
  (∀ (s : State) (i : Nat) (v : Word), busy s = false → i < 256 →
    (∃ t, busWrite (s.cfg.base + 0x400 + 4 * i) 4 v s = .ok t ∧ t = { s with gct := t.gct } ∧
      readsAs t (0x400 + 4 * i) (v &&& 0x00FFFFFF) ∧
      memGet t.gct i = some ⟨v.extractLsb' 0 8, v.extractLsb' 8 8, v.extractLsb' 16 8⟩ ∧
      ∀ j, j ≠ i → memGet t.gct j = memGet s.gct j) ∧
    (∃ t, busWrite (s.cfg.base + 0x800 + 4 * i) 4 v s = .ok t ∧ t = { s with lct := t.lct } ∧
      readsAs t (0x800 + 4 * i) (v &&& 0x00FFFFFF) ∧
      memGet t.lct i = some ⟨v.extractLsb' 0 8, v.extractLsb' 8 8, v.extractLsb' 16 8⟩ ∧
      ∀ j, j ≠ i → memGet t.lct j = memGet s.lct j)) ∧
  (∀ (s : State) (k : Nat) (v : Word), busy s = false → k < 2 ^ 24 →
    (∀ p, k < s.cfg.canvasPixMax → memGet s.prev k = some p →
      readsAs s (0x4000000 + 4 * k) (p.a ++ p.b ++ p.g ++ p.r)) ∧
    (s.cfg.canvasPixMax ≤ k → readsAs s (0x4000000 + 4 * k) 0) ∧
    busWrite (s.cfg.base + 0x4000000 + 4 * k) 4 v s = .ok s ∧
    (k % 4 = 0 →
      busWrite (s.cfg.base + 0x2000000 + k) 4 v s = .ok s ∧ busWrite (s.cfg.base + 0x3000000 + k) 4 v s = .ok s ∧
      (∃ w, readsAs s (0x2000000 + k) w ∧
        ∀ j, j < 4 → w.extractLsb' (8 * j) 8 =
          if k + j < s.cfg.pixMax then (memGet s.idxbuf (k + j)).getD 0 else 0) ∧
      ∃ w, readsAs s (0x3000000 + k) w ∧
        ∀ j, j < 4 → w.extractLsb' (8 * j) 8 =
          if k + j < s.cfg.pixMax then (memGet s.rbuf (k + j)).getD 0 else 0))

/-- Writes to STATUS and WARN clear the bits written 1 and nothing else (R22, R23, R61, R169). -/
def Obligations.WriteOneClearsStatusAndWarn : Prop :=
  ∀ (s : State) (v : Word),
    busWrite (s.cfg.base + 0x08) 4 v s = .ok { s with
      status := ⟨s.status.done && !v.getLsbD 1, s.status.err, s.status.ovr && !v.getLsbD 3, s.status.errcode,
        s.status.stop⟩ } ∧
    busWrite (s.cfg.base + 0x0C) 4 v s = .ok { s with
      warn := ⟨s.warn.underrun && !v.getLsbD 0, s.warn.badidx && !v.getLsbD 1, s.warn.exhaust && !v.getLsbD 2⟩ }

/-! ## Reset, invariants -/

/-- What the registers read after power-on reset (R53): CTRL 2, FRAME_INFO 2, every other one 0, and every memory ⊥. The
power-on reset signal takes any state there at once, a running command included (R181); the parameters and what the host still
has to do are kept, which is the model's choice [log 20], and so is the snapshot's 0 [log 3]. -/
def Obligations.ResetRegistersAndMemories : Prop :=
  (∀ r : Reg, r ≠ .ctrl → r ≠ .frameInfo → regWord r State.reset = 0) ∧
  regWord .ctrl State.reset = 2 ∧ regWord .frameInfo State.reset = 2 ∧ irq State.reset = false ∧
  busy State.reset = false ∧
  (∀ k, memGet State.reset.cdata k = none ∧ memGet State.reset.gct k = none ∧ memGet State.reset.lct k = none ∧
    memGet State.reset.idxbuf k = none ∧ memGet State.reset.rbuf k = none ∧ memGet State.reset.canvas k = none ∧
    memGet State.reset.prev k = none ∧ memGet State.reset.keep k = none ∧ memGet State.reset.dict k = none) ∧
  ∀ (s : State) (rest : List HostOp), s.host = .powerOnReset :: rest → nextAgent s = .host →
    step s = .next { State.reset with
      cfg := s.cfg, host := rest, sched := s.sched.tail, replies := s.replies, draws := s.draws }

/-- The reset state meets the invariant of the machine. -/
def Obligations.ResetMeetsInvariant : Prop := Inv State.reset

/-- Every step keeps the invariant of the machine, whoever's turn it is and wherever the engine stands, and changes no
implementation parameter (R7) [log 1]. The invariant holds the invariants of a decode (R77, R116) while one runs, but for
R116's clause on the entry of code 2^MCS + 2 after a forced reset [log 23], and R48's bound on the strings of DICT at every
moment, for every PIX_MAX below 1 + 2 + … + 4096 [log 27]. -/
def Obligations.StepKeepsInvariant : Prop :=
  ∀ s t : State, Inv s → step s = .next t → Inv t ∧ t.cfg = s.cfg

/-! ## The host's parser -/

/-- `FormatError` exactly when the first three bytes are not "GIF" (R147, D46). -/
def Obligations.FormatErrorExactlyOnBadSignature : Prop :=
  ∀ bs : List Byte, parseGif bs = .error .format ↔ bs.take 3 ≠ [0x47, 0x49, 0x46]

/-- A sub-block run of non-empty sub-blocks of at most 255 bytes reads as those sub-blocks, and leaves what follows its
terminator (R151). -/
def Obligations.SubBlockRunsReadBack : Prop :=
  ∀ (blocks : List (List Byte)) (rest : List Byte), (∀ b ∈ blocks, 1 ≤ b.length ∧ b.length ≤ 255) →
    readRun (blocks.flatMap (fun b => BitVec.ofNat 8 b.length :: b) ++ 0 :: rest) = .ok (blocks, rest)
end

