-- ==== Sys2Proof/Laws/Memory.lean ====
section
/-! SUPPORT. The laws of the block memories: what a cell reads after each operation, and that every operation keeps the
canonical form. -/

namespace Sys2Proof.Machine

variable {α : Type}

/-! ## Reads after writes -/

@[simp] theorem memGet_nil (i : Nat) : memGet ([] : Mem α) i = none := rfl

/-- A write is read back, and every other cell is as before. -/
theorem memGet_memSet (m : Mem α) (i j : Nat) (v : α) :
    memGet (memSet m i v) j = if i = j then some v else memGet m j := by
  induction m with
  | nil => simp [memSet, memGet]
  | cons e m ih =>
    obtain ⟨k, w⟩ := e
    simp only [memSet]
    split
    · simp only [memGet]
    · split
      · subst_vars
        simp only [memGet]
        split <;> rfl
      · simp only [memGet, ih]
        split <;> split <;> first | rfl | omega

theorem memGet_append (a b : Mem α) (i : Nat) : memGet (a ++ b) i = (memGet a i).or (memGet b i) := by
  induction a with
  | nil => simp
  | cons e a ih =>
    obtain ⟨k, w⟩ := e
    simp only [List.cons_append, memGet]
    split
    · simp
    · exact ih

theorem memGet_filter (p : Nat → Bool) (m : Mem α) (i : Nat) :
    memGet (m.filter fun e => p e.1) i = if p i then memGet m i else none := by
  induction m with
  | nil => simp
  | cons e m ih =>
    obtain ⟨k, w⟩ := e
    by_cases hk : k = i
    · subst hk
      by_cases hp : p k <;> simp_all [memGet]
    · by_cases hp : p k <;> simp_all [memGet]

/-- A table listed by a function on consecutive indices. -/
theorem memGet_map_range (n : Nat) (f : Nat → α) (i : Nat) :
    memGet ((List.range n).map fun k => (k, f k)) i = if i < n then some (f i) else none := by
  induction n with
  | zero => simp
  | succ n ih =>
    rw [List.range_succ, List.map_append, memGet_append, ih]
    simp only [List.map_cons, List.map_nil, memGet]
    by_cases h : i < n
    · simp [h, Nat.lt_succ_of_lt h]
    · by_cases h' : n = i
      · subst h'; simp
      · have : ¬ i < n + 1 := by omega
        simp [h, h', this]

theorem memGet_memCopy (n : Nat) (src dst : Mem α) (i : Nat) :
    memGet (memCopy n src dst) i = if i < n then memGet src i else memGet dst i := by
  unfold memCopy
  rw [memGet_append, memGet_filter (fun k => decide (k < n)), memGet_filter (fun k => decide (n ≤ k))]
  by_cases h : i < n
  · have : ¬ n ≤ i := by omega
    simp [h, this]
  · have : n ≤ i := by omega
    simp [h, this]

theorem memGet_memFill (n : Nat) (v : α) (dst : Mem α) (i : Nat) :
    memGet (memFill n v dst) i = if i < n then some v else memGet dst i := by
  unfold memFill
  rw [memGet_append, memGet_map_range n fun _ => v, memGet_filter (fun k => decide (n ≤ k))]
  by_cases h : i < n
  · simp [h]
  · have : n ≤ i := by omega
    simp [h, this]

/-! ## The canonical form -/

/-- The canonical form in one line: indices strictly rising, all below the size. -/
theorem memWf_iff (size : Nat) (m : Mem α) :
    memWf size m = true ↔ m.Pairwise (fun a b => a.1 < b.1) ∧ ∀ e ∈ m, e.1 < size := by
  induction m with
  | nil => simp [memWf]
  | cons e m ih =>
    obtain ⟨i, v⟩ := e
    cases m with
    | nil => simp [memWf]
    | cons e' m =>
      obtain ⟨j, w⟩ := e'
      simp only [memWf, Bool.and_eq_true, decide_eq_true_eq, ih]
      constructor
      · rintro ⟨hij, hp, hs⟩
        refine ⟨List.pairwise_cons.2 ⟨?_, hp⟩, ?_⟩
        · intro e he
          rcases List.mem_cons.1 he with rfl | he
          · exact hij
          · exact lt_trans hij ((List.pairwise_cons.1 hp).1 e he)
        · intro e he
          rcases List.mem_cons.1 he with rfl | he
          · exact lt_trans hij (hs _ (List.mem_cons_self ..))
          · exact hs e he
      · rintro ⟨hp, hs⟩
        exact ⟨(List.pairwise_cons.1 hp).1 _ (List.mem_cons_self ..), (List.pairwise_cons.1 hp).2,
          fun e he => hs e (List.mem_cons_of_mem _ he)⟩

theorem memGet_mem {m : Mem α} {i : Nat} {v : α} (h : memGet m i = some v) : (i, v) ∈ m := by
  induction m with
  | nil => simp at h
  | cons e m ih =>
    obtain ⟨k, w⟩ := e
    simp only [memGet] at h
    split at h
    · cases h; subst_vars; exact List.mem_cons_self ..
    · exact List.mem_cons_of_mem _ (ih h)

/-- In canonical form a cell past the size holds ⊥. -/
theorem memGet_lt_size {size : Nat} {m : Mem α} (hw : memWf size m = true) {i : Nat} {v : α}
    (h : memGet m i = some v) : i < size :=
  ((memWf_iff size m).1 hw).2 _ (memGet_mem h)

theorem memGet_memErase {size : Nat} {m : Mem α} (hw : memWf size m = true) (i j : Nat) :
    memGet (memErase m i) j = if i = j then none else memGet m j := by
  have hp := ((memWf_iff size m).1 hw).1
  clear hw
  induction m with
  | nil => simp [memErase]
  | cons e m ih =>
    obtain ⟨k, w⟩ := e
    simp only [memErase]
    obtain ⟨hk, hp'⟩ := List.pairwise_cons.1 hp
    split
    · subst_vars
      simp only [memGet]
      split
      · subst_vars
        cases hg : memGet m k with
        | none => rfl
        | some v => exact absurd (hk _ (memGet_mem hg)) (lt_irrefl _)
      · rfl
    · simp only [memGet, ih hp']
      split <;> split <;> first | rfl | omega

theorem memGet_memPut {size : Nat} {m : Mem α} (hw : memWf size m = true) (i j : Nat) (v : Option α) :
    memGet (memPut m i v) j = if i = j then v else memGet m j := by
  cases v with
  | none => exact memGet_memErase hw i j
  | some v => exact memGet_memSet m i j v

theorem mem_memSet {m : Mem α} {i : Nat} {v : α} {e : Nat × α} (h : e ∈ memSet m i v) : e = (i, v) ∨ e ∈ m := by
  induction m with
  | nil => exact .inl (by simpa [memSet] using h)
  | cons e' m ih =>
    obtain ⟨k, w⟩ := e'
    simp only [memSet] at h
    split at h
    · exact (List.mem_cons.1 h).imp_right id
    · split at h
      · exact (List.mem_cons.1 h).imp_right (List.mem_cons_of_mem _)
      · rcases List.mem_cons.1 h with rfl | h
        · exact .inr (List.mem_cons_self ..)
        · exact (ih h).imp_right (List.mem_cons_of_mem _)

/-- A write inside the size keeps the canonical form. -/
theorem memWf_memSet {size : Nat} {m : Mem α} (hw : memWf size m = true) {i : Nat} (hi : i < size) (v : α) :
    memWf size (memSet m i v) = true := by
  rw [memWf_iff] at hw ⊢
  obtain ⟨hp, hs⟩ := hw
  refine ⟨?_, fun e he => ?_⟩
  · clear hs
    induction m with
    | nil => simp [memSet]
    | cons e m ih =>
      obtain ⟨k, w⟩ := e
      obtain ⟨hk, hp'⟩ := List.pairwise_cons.1 hp
      simp only [memSet]
      split
      · refine List.pairwise_cons.2 ⟨fun e he => ?_, hp⟩
        rcases List.mem_cons.1 he with rfl | he
        · assumption
        · exact lt_trans ‹_› (hk e he)
      · split
        · subst_vars; exact List.pairwise_cons.2 ⟨hk, hp'⟩
        · refine List.pairwise_cons.2 ⟨fun e he => ?_, ih hp'⟩
          rcases mem_memSet he with rfl | he
          · show k < i; omega
          · exact hk e he
  · rcases mem_memSet he with rfl | he
    · exact hi
    · exact hs e he

theorem memErase_sublist (m : Mem α) (i : Nat) : (memErase m i).Sublist m := by
  induction m with
  | nil => simp [memErase]
  | cons e m ih =>
    obtain ⟨k, w⟩ := e
    simp only [memErase]
    split
    · exact List.sublist_cons_self ..
    · exact ih.cons_cons _

theorem memWf_sublist {size : Nat} {a b : Mem α} (h : a.Sublist b) (hw : memWf size b = true) : memWf size a = true := by
  rw [memWf_iff] at hw ⊢
  exact ⟨hw.1.sublist h, fun e he => hw.2 e (h.subset he)⟩

/-- Erasing a cell keeps the canonical form. -/
theorem memWf_memErase {size : Nat} {m : Mem α} (hw : memWf size m = true) (i : Nat) :
    memWf size (memErase m i) = true :=
  memWf_sublist (memErase_sublist m i) hw

theorem memWf_memPut {size : Nat} {m : Mem α} (hw : memWf size m = true) {i : Nat} (hi : i < size) (v : Option α) :
    memWf size (memPut m i v) = true := by
  cases v with
  | none => exact memWf_memErase hw i
  | some v => exact memWf_memSet hw hi v

theorem memWf_append {size n : Nat} {a b : Mem α} (ha : memWf size a = true) (hb : memWf size b = true)
    (hlo : ∀ e ∈ a, e.1 < n) (hhi : ∀ e ∈ b, n ≤ e.1) : memWf size (a ++ b) = true := by
  rw [memWf_iff] at *
  refine ⟨List.pairwise_append.2 ⟨ha.1, hb.1, fun e he f hf => lt_of_lt_of_le (hlo e he) (hhi f hf)⟩, fun e he => ?_⟩
  rcases List.mem_append.1 he with he | he
  · exact ha.2 e he
  · exact hb.2 e he

/-- Copying a block keeps the canonical form. -/
theorem memWf_memCopy {size : Nat} {src dst : Mem α} (n : Nat) (hs : memWf size src = true)
    (hd : memWf size dst = true) : memWf size (memCopy n src dst) = true := by
  refine memWf_append (n := n) (memWf_sublist List.filter_sublist hs) (memWf_sublist List.filter_sublist hd) ?_ ?_
  · intro e he; simpa using (List.mem_filter.1 he).2
  · intro e he; simpa using (List.mem_filter.1 he).2

theorem memWf_map_range {size n : Nat} (hn : n ≤ size) (f : Nat → α) :
    memWf size ((List.range n).map fun k => (k, f k)) = true := by
  rw [memWf_iff]
  refine ⟨?_, ?_⟩
  · rw [List.pairwise_map]; exact List.pairwise_lt_range
  · intro e he
    obtain ⟨k, hk, rfl⟩ := List.mem_map.1 he
    exact lt_of_lt_of_le (List.mem_range.1 hk) hn

/-- Filling a block inside the size keeps the canonical form. -/
theorem memWf_memFill {size n : Nat} (hn : n ≤ size) (v : α) {dst : Mem α} (hd : memWf size dst = true) :
    memWf size (memFill n v dst) = true := by
  refine memWf_append (n := n) (memWf_map_range hn _) (memWf_sublist List.filter_sublist hd) ?_ ?_
  · intro e he
    obtain ⟨k, hk, rfl⟩ := List.mem_map.1 he
    exact List.mem_range.1 hk
  · intro e he; simpa using (List.mem_filter.1 he).2

/-! ## Searching for ⊥ -/

theorem firstBottom_eq_none {n : Nat} {m : Mem α} :
    firstBottom n m = none ↔ ∀ k, k < n → (memGet m k).isSome = true := by
  simp [firstBottom, List.find?_eq_none, Option.isSome_iff_ne_none]

theorem firstBottom_eq_some {n k : Nat} {m : Mem α} (h : firstBottom n m = some k) : k < n ∧ memGet m k = none := by
  have h1 := List.mem_of_find?_eq_some h
  have h2 := List.find?_some h
  exact ⟨List.mem_range.1 h1, by simpa using h2⟩

/-- An engine read gives the cell's value, or the fault of R172. -/
theorem engineRead_eq_ok {name : MemName} {m : Mem α} {i : Nat} {v : α} :
    engineRead name m i = .ok v ↔ memGet m i = some v := by
  unfold engineRead
  split <;> simp_all

theorem engineRead_eq_error {name : MemName} {m : Mem α} {i : Nat} {f : Fault} :
    engineRead name m i = .error f ↔ memGet m i = none ∧ f = .bottomRead name i := by
  unfold engineRead
  split
  · simp_all
  · constructor
    · intro h; cases h; exact ⟨‹_›, rfl⟩
    · rintro ⟨-, rfl⟩; rfl

/-- Every memory of the reset state is in canonical form. -/
theorem reset_mems : memWf State.reset.cfg.cdataBytes State.reset.cdata = true ∧
    memWf Config.ctMax State.reset.gct = true ∧ memWf Config.ctMax State.reset.lct = true ∧
    memWf State.reset.cfg.pixMax State.reset.idxbuf = true ∧ memWf State.reset.cfg.pixMax State.reset.rbuf = true ∧
    memWf State.reset.cfg.canvasPixMax State.reset.canvas = true ∧
    memWf State.reset.cfg.canvasPixMax State.reset.prev = true ∧
    memWf State.reset.cfg.canvasPixMax State.reset.keep = true ∧ memWf Config.dMax State.reset.dict = true :=
  ⟨rfl, rfl, rfl, rfl, rfl, rfl, rfl, rfl, rfl⟩

end Sys2Proof.Machine
end

