-- ==== Sys2Proof/Laws/State.lean ====
section
/-! SUPPORT. What each named update leaves in each field of State: one lemma per field per update, so that no later proof
unfolds a record update. -/

namespace Sys2Proof.Machine

/-! ## warnUnderrun -/

@[simp] theorem warnUnderrun_cfg (s : State) : (warnUnderrun s).cfg = s.cfg := rfl
@[simp] theorem warnUnderrun_conf (s : State) : (warnUnderrun s).conf = s.conf := rfl
@[simp] theorem warnUnderrun_status (s : State) : (warnUnderrun s).status = s.status := rfl
@[simp] theorem warnUnderrun_warn (s : State) : (warnUnderrun s).warn = { s.warn with underrun := true } := rfl
@[simp] theorem warnUnderrun_brVal (s : State) : (warnUnderrun s).brVal = s.brVal := rfl
@[simp] theorem warnUnderrun_lzw (s : State) : (warnUnderrun s).lzw = s.lzw := rfl
@[simp] theorem warnUnderrun_frameNo (s : State) : (warnUnderrun s).frameNo = s.frameNo := rfl
@[simp] theorem warnUnderrun_frameInfo (s : State) : (warnUnderrun s).frameInfo = s.frameInfo := rfl
@[simp] theorem warnUnderrun_dly (s : State) : (warnUnderrun s).dly = s.dly := rfl
@[simp] theorem warnUnderrun_phase (s : State) : (warnUnderrun s).phase = s.phase := rfl
@[simp] theorem warnUnderrun_snap (s : State) : (warnUnderrun s).snap = s.snap := rfl
@[simp] theorem warnUnderrun_cdata (s : State) : (warnUnderrun s).cdata = s.cdata := rfl
@[simp] theorem warnUnderrun_gct (s : State) : (warnUnderrun s).gct = s.gct := rfl
@[simp] theorem warnUnderrun_lct (s : State) : (warnUnderrun s).lct = s.lct := rfl
@[simp] theorem warnUnderrun_idxbuf (s : State) : (warnUnderrun s).idxbuf = s.idxbuf := rfl
@[simp] theorem warnUnderrun_rbuf (s : State) : (warnUnderrun s).rbuf = s.rbuf := rfl
@[simp] theorem warnUnderrun_canvas (s : State) : (warnUnderrun s).canvas = s.canvas := rfl
@[simp] theorem warnUnderrun_prev (s : State) : (warnUnderrun s).prev = s.prev := rfl
@[simp] theorem warnUnderrun_keep (s : State) : (warnUnderrun s).keep = s.keep := rfl
@[simp] theorem warnUnderrun_dict (s : State) : (warnUnderrun s).dict = s.dict := rfl
@[simp] theorem warnUnderrun_host (s : State) : (warnUnderrun s).host = s.host := rfl
@[simp] theorem warnUnderrun_sched (s : State) : (warnUnderrun s).sched = s.sched := rfl
@[simp] theorem warnUnderrun_replies (s : State) : (warnUnderrun s).replies = s.replies := rfl
@[simp] theorem warnUnderrun_draws (s : State) : (warnUnderrun s).draws = s.draws := rfl

/-! ## warnBadidx -/

@[simp] theorem warnBadidx_cfg (s : State) : (warnBadidx s).cfg = s.cfg := rfl
@[simp] theorem warnBadidx_conf (s : State) : (warnBadidx s).conf = s.conf := rfl
@[simp] theorem warnBadidx_status (s : State) : (warnBadidx s).status = s.status := rfl
@[simp] theorem warnBadidx_warn (s : State) : (warnBadidx s).warn = { s.warn with badidx := true } := rfl
@[simp] theorem warnBadidx_brVal (s : State) : (warnBadidx s).brVal = s.brVal := rfl
@[simp] theorem warnBadidx_lzw (s : State) : (warnBadidx s).lzw = s.lzw := rfl
@[simp] theorem warnBadidx_frameNo (s : State) : (warnBadidx s).frameNo = s.frameNo := rfl
@[simp] theorem warnBadidx_frameInfo (s : State) : (warnBadidx s).frameInfo = s.frameInfo := rfl
@[simp] theorem warnBadidx_dly (s : State) : (warnBadidx s).dly = s.dly := rfl
@[simp] theorem warnBadidx_phase (s : State) : (warnBadidx s).phase = s.phase := rfl
@[simp] theorem warnBadidx_snap (s : State) : (warnBadidx s).snap = s.snap := rfl
@[simp] theorem warnBadidx_cdata (s : State) : (warnBadidx s).cdata = s.cdata := rfl
@[simp] theorem warnBadidx_gct (s : State) : (warnBadidx s).gct = s.gct := rfl
@[simp] theorem warnBadidx_lct (s : State) : (warnBadidx s).lct = s.lct := rfl
@[simp] theorem warnBadidx_idxbuf (s : State) : (warnBadidx s).idxbuf = s.idxbuf := rfl
@[simp] theorem warnBadidx_rbuf (s : State) : (warnBadidx s).rbuf = s.rbuf := rfl
@[simp] theorem warnBadidx_canvas (s : State) : (warnBadidx s).canvas = s.canvas := rfl
@[simp] theorem warnBadidx_prev (s : State) : (warnBadidx s).prev = s.prev := rfl
@[simp] theorem warnBadidx_keep (s : State) : (warnBadidx s).keep = s.keep := rfl
@[simp] theorem warnBadidx_dict (s : State) : (warnBadidx s).dict = s.dict := rfl
@[simp] theorem warnBadidx_host (s : State) : (warnBadidx s).host = s.host := rfl
@[simp] theorem warnBadidx_sched (s : State) : (warnBadidx s).sched = s.sched := rfl
@[simp] theorem warnBadidx_replies (s : State) : (warnBadidx s).replies = s.replies := rfl
@[simp] theorem warnBadidx_draws (s : State) : (warnBadidx s).draws = s.draws := rfl

/-! ## warnExhaust -/

@[simp] theorem warnExhaust_cfg (s : State) : (warnExhaust s).cfg = s.cfg := rfl
@[simp] theorem warnExhaust_conf (s : State) : (warnExhaust s).conf = s.conf := rfl
@[simp] theorem warnExhaust_status (s : State) : (warnExhaust s).status = s.status := rfl
@[simp] theorem warnExhaust_warn (s : State) : (warnExhaust s).warn = { s.warn with exhaust := true } := rfl
@[simp] theorem warnExhaust_brVal (s : State) : (warnExhaust s).brVal = s.brVal := rfl
@[simp] theorem warnExhaust_lzw (s : State) : (warnExhaust s).lzw = s.lzw := rfl
@[simp] theorem warnExhaust_frameNo (s : State) : (warnExhaust s).frameNo = s.frameNo := rfl
@[simp] theorem warnExhaust_frameInfo (s : State) : (warnExhaust s).frameInfo = s.frameInfo := rfl
@[simp] theorem warnExhaust_dly (s : State) : (warnExhaust s).dly = s.dly := rfl
@[simp] theorem warnExhaust_phase (s : State) : (warnExhaust s).phase = s.phase := rfl
@[simp] theorem warnExhaust_snap (s : State) : (warnExhaust s).snap = s.snap := rfl
@[simp] theorem warnExhaust_cdata (s : State) : (warnExhaust s).cdata = s.cdata := rfl
@[simp] theorem warnExhaust_gct (s : State) : (warnExhaust s).gct = s.gct := rfl
@[simp] theorem warnExhaust_lct (s : State) : (warnExhaust s).lct = s.lct := rfl
@[simp] theorem warnExhaust_idxbuf (s : State) : (warnExhaust s).idxbuf = s.idxbuf := rfl
@[simp] theorem warnExhaust_rbuf (s : State) : (warnExhaust s).rbuf = s.rbuf := rfl
@[simp] theorem warnExhaust_canvas (s : State) : (warnExhaust s).canvas = s.canvas := rfl
@[simp] theorem warnExhaust_prev (s : State) : (warnExhaust s).prev = s.prev := rfl
@[simp] theorem warnExhaust_keep (s : State) : (warnExhaust s).keep = s.keep := rfl
@[simp] theorem warnExhaust_dict (s : State) : (warnExhaust s).dict = s.dict := rfl
@[simp] theorem warnExhaust_host (s : State) : (warnExhaust s).host = s.host := rfl
@[simp] theorem warnExhaust_sched (s : State) : (warnExhaust s).sched = s.sched := rfl
@[simp] theorem warnExhaust_replies (s : State) : (warnExhaust s).replies = s.replies := rfl
@[simp] theorem warnExhaust_draws (s : State) : (warnExhaust s).draws = s.draws := rfl

/-! ## stopWith -/

@[simp] theorem stopWith_cfg (r : Stop) (s : State) : (stopWith r s).cfg = s.cfg := rfl
@[simp] theorem stopWith_conf (r : Stop) (s : State) : (stopWith r s).conf = s.conf := rfl
@[simp] theorem stopWith_status (r : Stop) (s : State) : (stopWith r s).status = { s.status with stop := r } := rfl
@[simp] theorem stopWith_warn (r : Stop) (s : State) : (stopWith r s).warn = s.warn := rfl
@[simp] theorem stopWith_brVal (r : Stop) (s : State) : (stopWith r s).brVal = s.brVal := rfl
@[simp] theorem stopWith_lzw (r : Stop) (s : State) : (stopWith r s).lzw = s.lzw := rfl
@[simp] theorem stopWith_frameNo (r : Stop) (s : State) : (stopWith r s).frameNo = s.frameNo := rfl
@[simp] theorem stopWith_frameInfo (r : Stop) (s : State) : (stopWith r s).frameInfo = s.frameInfo := rfl
@[simp] theorem stopWith_dly (r : Stop) (s : State) : (stopWith r s).dly = s.dly := rfl
@[simp] theorem stopWith_phase (r : Stop) (s : State) : (stopWith r s).phase = s.phase := rfl
@[simp] theorem stopWith_snap (r : Stop) (s : State) : (stopWith r s).snap = s.snap := rfl
@[simp] theorem stopWith_cdata (r : Stop) (s : State) : (stopWith r s).cdata = s.cdata := rfl
@[simp] theorem stopWith_gct (r : Stop) (s : State) : (stopWith r s).gct = s.gct := rfl
@[simp] theorem stopWith_lct (r : Stop) (s : State) : (stopWith r s).lct = s.lct := rfl
@[simp] theorem stopWith_idxbuf (r : Stop) (s : State) : (stopWith r s).idxbuf = s.idxbuf := rfl
@[simp] theorem stopWith_rbuf (r : Stop) (s : State) : (stopWith r s).rbuf = s.rbuf := rfl
@[simp] theorem stopWith_canvas (r : Stop) (s : State) : (stopWith r s).canvas = s.canvas := rfl
@[simp] theorem stopWith_prev (r : Stop) (s : State) : (stopWith r s).prev = s.prev := rfl
@[simp] theorem stopWith_keep (r : Stop) (s : State) : (stopWith r s).keep = s.keep := rfl
@[simp] theorem stopWith_dict (r : Stop) (s : State) : (stopWith r s).dict = s.dict := rfl
@[simp] theorem stopWith_host (r : Stop) (s : State) : (stopWith r s).host = s.host := rfl
@[simp] theorem stopWith_sched (r : Stop) (s : State) : (stopWith r s).sched = s.sched := rfl
@[simp] theorem stopWith_replies (r : Stop) (s : State) : (stopWith r s).replies = s.replies := rfl
@[simp] theorem stopWith_draws (r : Stop) (s : State) : (stopWith r s).draws = s.draws := rfl

/-! ## setPhase -/

@[simp] theorem setPhase_cfg (p : Phase) (s : State) : (setPhase p s).cfg = s.cfg := rfl
@[simp] theorem setPhase_conf (p : Phase) (s : State) : (setPhase p s).conf = s.conf := rfl
@[simp] theorem setPhase_status (p : Phase) (s : State) : (setPhase p s).status = s.status := rfl
@[simp] theorem setPhase_warn (p : Phase) (s : State) : (setPhase p s).warn = s.warn := rfl
@[simp] theorem setPhase_brVal (p : Phase) (s : State) : (setPhase p s).brVal = s.brVal := rfl
@[simp] theorem setPhase_lzw (p : Phase) (s : State) : (setPhase p s).lzw = s.lzw := rfl
@[simp] theorem setPhase_frameNo (p : Phase) (s : State) : (setPhase p s).frameNo = s.frameNo := rfl
@[simp] theorem setPhase_frameInfo (p : Phase) (s : State) : (setPhase p s).frameInfo = s.frameInfo := rfl
@[simp] theorem setPhase_dly (p : Phase) (s : State) : (setPhase p s).dly = s.dly := rfl
@[simp] theorem setPhase_phase (p : Phase) (s : State) : (setPhase p s).phase = p := rfl
@[simp] theorem setPhase_snap (p : Phase) (s : State) : (setPhase p s).snap = s.snap := rfl
@[simp] theorem setPhase_cdata (p : Phase) (s : State) : (setPhase p s).cdata = s.cdata := rfl
@[simp] theorem setPhase_gct (p : Phase) (s : State) : (setPhase p s).gct = s.gct := rfl
@[simp] theorem setPhase_lct (p : Phase) (s : State) : (setPhase p s).lct = s.lct := rfl
@[simp] theorem setPhase_idxbuf (p : Phase) (s : State) : (setPhase p s).idxbuf = s.idxbuf := rfl
@[simp] theorem setPhase_rbuf (p : Phase) (s : State) : (setPhase p s).rbuf = s.rbuf := rfl
@[simp] theorem setPhase_canvas (p : Phase) (s : State) : (setPhase p s).canvas = s.canvas := rfl
@[simp] theorem setPhase_prev (p : Phase) (s : State) : (setPhase p s).prev = s.prev := rfl
@[simp] theorem setPhase_keep (p : Phase) (s : State) : (setPhase p s).keep = s.keep := rfl
@[simp] theorem setPhase_dict (p : Phase) (s : State) : (setPhase p s).dict = s.dict := rfl
@[simp] theorem setPhase_host (p : Phase) (s : State) : (setPhase p s).host = s.host := rfl
@[simp] theorem setPhase_sched (p : Phase) (s : State) : (setPhase p s).sched = s.sched := rfl
@[simp] theorem setPhase_replies (p : Phase) (s : State) : (setPhase p s).replies = s.replies := rfl
@[simp] theorem setPhase_draws (p : Phase) (s : State) : (setPhase p s).draws = s.draws := rfl

/-! ## complete -/

@[simp] theorem complete_cfg (s : State) : (complete s).cfg = s.cfg := rfl
@[simp] theorem complete_conf (s : State) : (complete s).conf = s.conf := rfl
@[simp] theorem complete_status (s : State) : (complete s).status = { s.status with done := true } := rfl
@[simp] theorem complete_warn (s : State) : (complete s).warn = s.warn := rfl
@[simp] theorem complete_brVal (s : State) : (complete s).brVal = s.brVal := rfl
@[simp] theorem complete_lzw (s : State) : (complete s).lzw = s.lzw := rfl
@[simp] theorem complete_frameNo (s : State) : (complete s).frameNo = s.frameNo := rfl
@[simp] theorem complete_frameInfo (s : State) : (complete s).frameInfo = s.frameInfo := rfl
@[simp] theorem complete_dly (s : State) : (complete s).dly = s.dly := rfl
@[simp] theorem complete_phase (s : State) : (complete s).phase = .idle := rfl
@[simp] theorem complete_snap (s : State) : (complete s).snap = s.snap := rfl
@[simp] theorem complete_cdata (s : State) : (complete s).cdata = s.cdata := rfl
@[simp] theorem complete_gct (s : State) : (complete s).gct = s.gct := rfl
@[simp] theorem complete_lct (s : State) : (complete s).lct = s.lct := rfl
@[simp] theorem complete_idxbuf (s : State) : (complete s).idxbuf = s.idxbuf := rfl
@[simp] theorem complete_rbuf (s : State) : (complete s).rbuf = s.rbuf := rfl
@[simp] theorem complete_canvas (s : State) : (complete s).canvas = s.canvas := rfl
@[simp] theorem complete_prev (s : State) : (complete s).prev = s.prev := rfl
@[simp] theorem complete_keep (s : State) : (complete s).keep = s.keep := rfl
@[simp] theorem complete_dict (s : State) : (complete s).dict = s.dict := rfl
@[simp] theorem complete_host (s : State) : (complete s).host = s.host := rfl
@[simp] theorem complete_sched (s : State) : (complete s).sched = s.sched := rfl
@[simp] theorem complete_replies (s : State) : (complete s).replies = s.replies := rfl
@[simp] theorem complete_draws (s : State) : (complete s).draws = s.draws := rfl

/-! ## raiseError -/

@[simp] theorem raiseError_cfg (code : ErrCode) (s : State) : (raiseError code s).cfg = s.cfg := rfl
@[simp] theorem raiseError_conf (code : ErrCode) (s : State) : (raiseError code s).conf = s.conf := rfl
@[simp] theorem raiseError_status (code : ErrCode) (s : State) : (raiseError code s).status = { s.status with done := true, err := true, errcode := code } := rfl
@[simp] theorem raiseError_warn (code : ErrCode) (s : State) : (raiseError code s).warn = s.warn := rfl
@[simp] theorem raiseError_brVal (code : ErrCode) (s : State) : (raiseError code s).brVal = s.brVal := rfl
@[simp] theorem raiseError_lzw (code : ErrCode) (s : State) : (raiseError code s).lzw = s.lzw := rfl
@[simp] theorem raiseError_frameNo (code : ErrCode) (s : State) : (raiseError code s).frameNo = s.frameNo := rfl
@[simp] theorem raiseError_frameInfo (code : ErrCode) (s : State) : (raiseError code s).frameInfo = s.frameInfo := rfl
@[simp] theorem raiseError_dly (code : ErrCode) (s : State) : (raiseError code s).dly = s.dly := rfl
@[simp] theorem raiseError_phase (code : ErrCode) (s : State) : (raiseError code s).phase = .idle := rfl
@[simp] theorem raiseError_snap (code : ErrCode) (s : State) : (raiseError code s).snap = s.snap := rfl
@[simp] theorem raiseError_cdata (code : ErrCode) (s : State) : (raiseError code s).cdata = s.cdata := rfl
@[simp] theorem raiseError_gct (code : ErrCode) (s : State) : (raiseError code s).gct = s.gct := rfl
@[simp] theorem raiseError_lct (code : ErrCode) (s : State) : (raiseError code s).lct = s.lct := rfl
@[simp] theorem raiseError_idxbuf (code : ErrCode) (s : State) : (raiseError code s).idxbuf = s.idxbuf := rfl
@[simp] theorem raiseError_rbuf (code : ErrCode) (s : State) : (raiseError code s).rbuf = s.rbuf := rfl
@[simp] theorem raiseError_canvas (code : ErrCode) (s : State) : (raiseError code s).canvas = s.canvas := rfl
@[simp] theorem raiseError_prev (code : ErrCode) (s : State) : (raiseError code s).prev = s.prev := rfl
@[simp] theorem raiseError_keep (code : ErrCode) (s : State) : (raiseError code s).keep = s.keep := rfl
@[simp] theorem raiseError_dict (code : ErrCode) (s : State) : (raiseError code s).dict = s.dict := rfl
@[simp] theorem raiseError_host (code : ErrCode) (s : State) : (raiseError code s).host = s.host := rfl
@[simp] theorem raiseError_sched (code : ErrCode) (s : State) : (raiseError code s).sched = s.sched := rfl
@[simp] theorem raiseError_replies (code : ErrCode) (s : State) : (raiseError code s).replies = s.replies := rfl
@[simp] theorem raiseError_draws (code : ErrCode) (s : State) : (raiseError code s).draws = s.draws := rfl

/-! ## acknowledge -/

@[simp] theorem acknowledge_cfg (v : Word) (s : State) : (acknowledge v s).cfg = s.cfg := rfl
@[simp] theorem acknowledge_conf (v : Word) (s : State) : (acknowledge v s).conf = s.conf := rfl
@[simp] theorem acknowledge_status (v : Word) (s : State) : (acknowledge v s).status = statusW1c v s.status := rfl
@[simp] theorem acknowledge_warn (v : Word) (s : State) : (acknowledge v s).warn = s.warn := rfl
@[simp] theorem acknowledge_brVal (v : Word) (s : State) : (acknowledge v s).brVal = s.brVal := rfl
@[simp] theorem acknowledge_lzw (v : Word) (s : State) : (acknowledge v s).lzw = s.lzw := rfl
@[simp] theorem acknowledge_frameNo (v : Word) (s : State) : (acknowledge v s).frameNo = s.frameNo := rfl
@[simp] theorem acknowledge_frameInfo (v : Word) (s : State) : (acknowledge v s).frameInfo = s.frameInfo := rfl
@[simp] theorem acknowledge_dly (v : Word) (s : State) : (acknowledge v s).dly = s.dly := rfl
@[simp] theorem acknowledge_phase (v : Word) (s : State) : (acknowledge v s).phase = s.phase := rfl
@[simp] theorem acknowledge_snap (v : Word) (s : State) : (acknowledge v s).snap = s.snap := rfl
@[simp] theorem acknowledge_cdata (v : Word) (s : State) : (acknowledge v s).cdata = s.cdata := rfl
@[simp] theorem acknowledge_gct (v : Word) (s : State) : (acknowledge v s).gct = s.gct := rfl
@[simp] theorem acknowledge_lct (v : Word) (s : State) : (acknowledge v s).lct = s.lct := rfl
@[simp] theorem acknowledge_idxbuf (v : Word) (s : State) : (acknowledge v s).idxbuf = s.idxbuf := rfl
@[simp] theorem acknowledge_rbuf (v : Word) (s : State) : (acknowledge v s).rbuf = s.rbuf := rfl
@[simp] theorem acknowledge_canvas (v : Word) (s : State) : (acknowledge v s).canvas = s.canvas := rfl
@[simp] theorem acknowledge_prev (v : Word) (s : State) : (acknowledge v s).prev = s.prev := rfl
@[simp] theorem acknowledge_keep (v : Word) (s : State) : (acknowledge v s).keep = s.keep := rfl
@[simp] theorem acknowledge_dict (v : Word) (s : State) : (acknowledge v s).dict = s.dict := rfl
@[simp] theorem acknowledge_host (v : Word) (s : State) : (acknowledge v s).host = s.host := rfl
@[simp] theorem acknowledge_sched (v : Word) (s : State) : (acknowledge v s).sched = s.sched := rfl
@[simp] theorem acknowledge_replies (v : Word) (s : State) : (acknowledge v s).replies = s.replies := rfl
@[simp] theorem acknowledge_draws (v : Word) (s : State) : (acknowledge v s).draws = s.draws := rfl

/-! ## setOvr -/

@[simp] theorem setOvr_cfg (s : State) : (setOvr s).cfg = s.cfg := rfl
@[simp] theorem setOvr_conf (s : State) : (setOvr s).conf = s.conf := rfl
@[simp] theorem setOvr_status (s : State) : (setOvr s).status = { s.status with ovr := true } := rfl
@[simp] theorem setOvr_warn (s : State) : (setOvr s).warn = s.warn := rfl
@[simp] theorem setOvr_brVal (s : State) : (setOvr s).brVal = s.brVal := rfl
@[simp] theorem setOvr_lzw (s : State) : (setOvr s).lzw = s.lzw := rfl
@[simp] theorem setOvr_frameNo (s : State) : (setOvr s).frameNo = s.frameNo := rfl
@[simp] theorem setOvr_frameInfo (s : State) : (setOvr s).frameInfo = s.frameInfo := rfl
@[simp] theorem setOvr_dly (s : State) : (setOvr s).dly = s.dly := rfl
@[simp] theorem setOvr_phase (s : State) : (setOvr s).phase = s.phase := rfl
@[simp] theorem setOvr_snap (s : State) : (setOvr s).snap = s.snap := rfl
@[simp] theorem setOvr_cdata (s : State) : (setOvr s).cdata = s.cdata := rfl
@[simp] theorem setOvr_gct (s : State) : (setOvr s).gct = s.gct := rfl
@[simp] theorem setOvr_lct (s : State) : (setOvr s).lct = s.lct := rfl
@[simp] theorem setOvr_idxbuf (s : State) : (setOvr s).idxbuf = s.idxbuf := rfl
@[simp] theorem setOvr_rbuf (s : State) : (setOvr s).rbuf = s.rbuf := rfl
@[simp] theorem setOvr_canvas (s : State) : (setOvr s).canvas = s.canvas := rfl
@[simp] theorem setOvr_prev (s : State) : (setOvr s).prev = s.prev := rfl
@[simp] theorem setOvr_keep (s : State) : (setOvr s).keep = s.keep := rfl
@[simp] theorem setOvr_dict (s : State) : (setOvr s).dict = s.dict := rfl
@[simp] theorem setOvr_host (s : State) : (setOvr s).host = s.host := rfl
@[simp] theorem setOvr_sched (s : State) : (setOvr s).sched = s.sched := rfl
@[simp] theorem setOvr_replies (s : State) : (setOvr s).replies = s.replies := rfl
@[simp] theorem setOvr_draws (s : State) : (setOvr s).draws = s.draws := rfl

/-! ## clearStatus -/

@[simp] theorem clearStatus_cfg (s : State) : (clearStatus s).cfg = s.cfg := rfl
@[simp] theorem clearStatus_conf (s : State) : (clearStatus s).conf = s.conf := rfl
@[simp] theorem clearStatus_status (s : State) : (clearStatus s).status = { s.status with done := false, err := false, errcode := .none } := rfl
@[simp] theorem clearStatus_warn (s : State) : (clearStatus s).warn = s.warn := rfl
@[simp] theorem clearStatus_brVal (s : State) : (clearStatus s).brVal = s.brVal := rfl
@[simp] theorem clearStatus_lzw (s : State) : (clearStatus s).lzw = s.lzw := rfl
@[simp] theorem clearStatus_frameNo (s : State) : (clearStatus s).frameNo = s.frameNo := rfl
@[simp] theorem clearStatus_frameInfo (s : State) : (clearStatus s).frameInfo = s.frameInfo := rfl
@[simp] theorem clearStatus_dly (s : State) : (clearStatus s).dly = s.dly := rfl
@[simp] theorem clearStatus_phase (s : State) : (clearStatus s).phase = s.phase := rfl
@[simp] theorem clearStatus_snap (s : State) : (clearStatus s).snap = s.snap := rfl
@[simp] theorem clearStatus_cdata (s : State) : (clearStatus s).cdata = s.cdata := rfl
@[simp] theorem clearStatus_gct (s : State) : (clearStatus s).gct = s.gct := rfl
@[simp] theorem clearStatus_lct (s : State) : (clearStatus s).lct = s.lct := rfl
@[simp] theorem clearStatus_idxbuf (s : State) : (clearStatus s).idxbuf = s.idxbuf := rfl
@[simp] theorem clearStatus_rbuf (s : State) : (clearStatus s).rbuf = s.rbuf := rfl
@[simp] theorem clearStatus_canvas (s : State) : (clearStatus s).canvas = s.canvas := rfl
@[simp] theorem clearStatus_prev (s : State) : (clearStatus s).prev = s.prev := rfl
@[simp] theorem clearStatus_keep (s : State) : (clearStatus s).keep = s.keep := rfl
@[simp] theorem clearStatus_dict (s : State) : (clearStatus s).dict = s.dict := rfl
@[simp] theorem clearStatus_host (s : State) : (clearStatus s).host = s.host := rfl
@[simp] theorem clearStatus_sched (s : State) : (clearStatus s).sched = s.sched := rfl
@[simp] theorem clearStatus_replies (s : State) : (clearStatus s).replies = s.replies := rfl
@[simp] theorem clearStatus_draws (s : State) : (clearStatus s).draws = s.draws := rfl

/-! ## rejectCommand -/

@[simp] theorem rejectCommand_cfg (s : State) : (rejectCommand s).cfg = s.cfg := rfl
@[simp] theorem rejectCommand_conf (s : State) : (rejectCommand s).conf = s.conf := rfl
@[simp] theorem rejectCommand_status (s : State) : (rejectCommand s).status = { s.status with done := true, err := true, errcode := .badcmd } := rfl
@[simp] theorem rejectCommand_warn (s : State) : (rejectCommand s).warn = s.warn := rfl
@[simp] theorem rejectCommand_brVal (s : State) : (rejectCommand s).brVal = s.brVal := rfl
@[simp] theorem rejectCommand_lzw (s : State) : (rejectCommand s).lzw = s.lzw := rfl
@[simp] theorem rejectCommand_frameNo (s : State) : (rejectCommand s).frameNo = s.frameNo := rfl
@[simp] theorem rejectCommand_frameInfo (s : State) : (rejectCommand s).frameInfo = s.frameInfo := rfl
@[simp] theorem rejectCommand_dly (s : State) : (rejectCommand s).dly = s.dly := rfl
@[simp] theorem rejectCommand_phase (s : State) : (rejectCommand s).phase = .idle := rfl
@[simp] theorem rejectCommand_snap (s : State) : (rejectCommand s).snap = s.snap := rfl
@[simp] theorem rejectCommand_cdata (s : State) : (rejectCommand s).cdata = s.cdata := rfl
@[simp] theorem rejectCommand_gct (s : State) : (rejectCommand s).gct = s.gct := rfl
@[simp] theorem rejectCommand_lct (s : State) : (rejectCommand s).lct = s.lct := rfl
@[simp] theorem rejectCommand_idxbuf (s : State) : (rejectCommand s).idxbuf = s.idxbuf := rfl
@[simp] theorem rejectCommand_rbuf (s : State) : (rejectCommand s).rbuf = s.rbuf := rfl
@[simp] theorem rejectCommand_canvas (s : State) : (rejectCommand s).canvas = s.canvas := rfl
@[simp] theorem rejectCommand_prev (s : State) : (rejectCommand s).prev = s.prev := rfl
@[simp] theorem rejectCommand_keep (s : State) : (rejectCommand s).keep = s.keep := rfl
@[simp] theorem rejectCommand_dict (s : State) : (rejectCommand s).dict = s.dict := rfl
@[simp] theorem rejectCommand_host (s : State) : (rejectCommand s).host = s.host := rfl
@[simp] theorem rejectCommand_sched (s : State) : (rejectCommand s).sched = s.sched := rfl
@[simp] theorem rejectCommand_replies (s : State) : (rejectCommand s).replies = s.replies := rfl
@[simp] theorem rejectCommand_draws (s : State) : (rejectCommand s).draws = s.draws := rfl

/-! ## accept -/

@[simp] theorem accept_cfg (op : Op) (s : State) : (accept op s).cfg = s.cfg := by cases op <;> rfl
@[simp] theorem accept_conf (op : Op) (s : State) : (accept op s).conf = s.conf := by cases op <;> rfl
@[simp] theorem accept_status (op : Op) (s : State) : (accept op s).status = { s.status with done := false, err := false, errcode := .none, stop := if clearsStop op then .none else s.status.stop } := by cases op <;> rfl
@[simp] theorem accept_warn (op : Op) (s : State) : (accept op s).warn = s.warn := by cases op <;> rfl
@[simp] theorem accept_brVal (op : Op) (s : State) : (accept op s).brVal = s.brVal := by cases op <;> rfl
@[simp] theorem accept_lzw (op : Op) (s : State) : (accept op s).lzw = s.lzw := by cases op <;> rfl
@[simp] theorem accept_frameNo (op : Op) (s : State) : (accept op s).frameNo = s.frameNo := by cases op <;> rfl
@[simp] theorem accept_frameInfo (op : Op) (s : State) : (accept op s).frameInfo = s.frameInfo := by cases op <;> rfl
@[simp] theorem accept_dly (op : Op) (s : State) : (accept op s).dly = s.dly := by cases op <;> rfl
@[simp] theorem accept_phase (op : Op) (s : State) : (accept op s).phase = .busy op .start := by cases op <;> rfl
@[simp] theorem accept_snap (op : Op) (s : State) : (accept op s).snap = s.conf := by cases op <;> rfl
@[simp] theorem accept_cdata (op : Op) (s : State) : (accept op s).cdata = s.cdata := by cases op <;> rfl
@[simp] theorem accept_gct (op : Op) (s : State) : (accept op s).gct = s.gct := by cases op <;> rfl
@[simp] theorem accept_lct (op : Op) (s : State) : (accept op s).lct = s.lct := by cases op <;> rfl
@[simp] theorem accept_idxbuf (op : Op) (s : State) : (accept op s).idxbuf = s.idxbuf := by cases op <;> rfl
@[simp] theorem accept_rbuf (op : Op) (s : State) : (accept op s).rbuf = s.rbuf := by cases op <;> rfl
@[simp] theorem accept_canvas (op : Op) (s : State) : (accept op s).canvas = s.canvas := by cases op <;> rfl
@[simp] theorem accept_prev (op : Op) (s : State) : (accept op s).prev = s.prev := by cases op <;> rfl
@[simp] theorem accept_keep (op : Op) (s : State) : (accept op s).keep = s.keep := by cases op <;> rfl
@[simp] theorem accept_dict (op : Op) (s : State) : (accept op s).dict = s.dict := by cases op <;> rfl
@[simp] theorem accept_host (op : Op) (s : State) : (accept op s).host = s.host := by cases op <;> rfl
@[simp] theorem accept_sched (op : Op) (s : State) : (accept op s).sched = s.sched := by cases op <;> rfl
@[simp] theorem accept_replies (op : Op) (s : State) : (accept op s).replies = s.replies := by cases op <;> rfl
@[simp] theorem accept_draws (op : Op) (s : State) : (accept op s).draws = s.draws := by cases op <;> rfl

/-! ## advancePos -/

@[simp] theorem advancePos_cfg (s : State) : (advancePos s).cfg = s.cfg := rfl
@[simp] theorem advancePos_conf (s : State) : (advancePos s).conf = s.conf := rfl
@[simp] theorem advancePos_status (s : State) : (advancePos s).status = s.status := rfl
@[simp] theorem advancePos_warn (s : State) : (advancePos s).warn = s.warn := rfl
@[simp] theorem advancePos_brVal (s : State) : (advancePos s).brVal = s.brVal := rfl
@[simp] theorem advancePos_lzw (s : State) : (advancePos s).lzw = { s.lzw with pos := s.lzw.pos + s.lzw.w } := rfl
@[simp] theorem advancePos_frameNo (s : State) : (advancePos s).frameNo = s.frameNo := rfl
@[simp] theorem advancePos_frameInfo (s : State) : (advancePos s).frameInfo = s.frameInfo := rfl
@[simp] theorem advancePos_dly (s : State) : (advancePos s).dly = s.dly := rfl
@[simp] theorem advancePos_phase (s : State) : (advancePos s).phase = s.phase := rfl
@[simp] theorem advancePos_snap (s : State) : (advancePos s).snap = s.snap := rfl
@[simp] theorem advancePos_cdata (s : State) : (advancePos s).cdata = s.cdata := rfl
@[simp] theorem advancePos_gct (s : State) : (advancePos s).gct = s.gct := rfl
@[simp] theorem advancePos_lct (s : State) : (advancePos s).lct = s.lct := rfl
@[simp] theorem advancePos_idxbuf (s : State) : (advancePos s).idxbuf = s.idxbuf := rfl
@[simp] theorem advancePos_rbuf (s : State) : (advancePos s).rbuf = s.rbuf := rfl
@[simp] theorem advancePos_canvas (s : State) : (advancePos s).canvas = s.canvas := rfl
@[simp] theorem advancePos_prev (s : State) : (advancePos s).prev = s.prev := rfl
@[simp] theorem advancePos_keep (s : State) : (advancePos s).keep = s.keep := rfl
@[simp] theorem advancePos_dict (s : State) : (advancePos s).dict = s.dict := rfl
@[simp] theorem advancePos_host (s : State) : (advancePos s).host = s.host := rfl
@[simp] theorem advancePos_sched (s : State) : (advancePos s).sched = s.sched := rfl
@[simp] theorem advancePos_replies (s : State) : (advancePos s).replies = s.replies := rfl
@[simp] theorem advancePos_draws (s : State) : (advancePos s).draws = s.draws := rfl

/-! ## dictReset -/

@[simp] theorem dictReset_cfg (s : State) : (dictReset s).cfg = s.cfg := rfl
@[simp] theorem dictReset_conf (s : State) : (dictReset s).conf = s.conf := rfl
@[simp] theorem dictReset_status (s : State) : (dictReset s).status = s.status := rfl
@[simp] theorem dictReset_warn (s : State) : (dictReset s).warn = s.warn := rfl
@[simp] theorem dictReset_brVal (s : State) : (dictReset s).brVal = s.brVal := rfl
@[simp] theorem dictReset_lzw (s : State) : (dictReset s).lzw = { s.lzw with n := clearCode s.snap + 2, w := s.snap.imgCfg.mcs.toNat + 1 } := rfl
@[simp] theorem dictReset_frameNo (s : State) : (dictReset s).frameNo = s.frameNo := rfl
@[simp] theorem dictReset_frameInfo (s : State) : (dictReset s).frameInfo = s.frameInfo := rfl
@[simp] theorem dictReset_dly (s : State) : (dictReset s).dly = s.dly := rfl
@[simp] theorem dictReset_phase (s : State) : (dictReset s).phase = s.phase := rfl
@[simp] theorem dictReset_snap (s : State) : (dictReset s).snap = s.snap := rfl
@[simp] theorem dictReset_cdata (s : State) : (dictReset s).cdata = s.cdata := rfl
@[simp] theorem dictReset_gct (s : State) : (dictReset s).gct = s.gct := rfl
@[simp] theorem dictReset_lct (s : State) : (dictReset s).lct = s.lct := rfl
@[simp] theorem dictReset_idxbuf (s : State) : (dictReset s).idxbuf = s.idxbuf := rfl
@[simp] theorem dictReset_rbuf (s : State) : (dictReset s).rbuf = s.rbuf := rfl
@[simp] theorem dictReset_canvas (s : State) : (dictReset s).canvas = s.canvas := rfl
@[simp] theorem dictReset_prev (s : State) : (dictReset s).prev = s.prev := rfl
@[simp] theorem dictReset_keep (s : State) : (dictReset s).keep = s.keep := rfl
@[simp] theorem dictReset_dict (s : State) : (dictReset s).dict = (List.range (clearCode s.snap)).map fun c => (c, Str.single (BitVec.ofNat 8 c)) := rfl
@[simp] theorem dictReset_host (s : State) : (dictReset s).host = s.host := rfl
@[simp] theorem dictReset_sched (s : State) : (dictReset s).sched = s.sched := rfl
@[simp] theorem dictReset_replies (s : State) : (dictReset s).replies = s.replies := rfl
@[simp] theorem dictReset_draws (s : State) : (dictReset s).draws = s.draws := rfl

/-! ## lzwStart -/

@[simp] theorem lzwStart_cfg (s : State) : (lzwStart s).cfg = s.cfg := rfl
@[simp] theorem lzwStart_conf (s : State) : (lzwStart s).conf = s.conf := rfl
@[simp] theorem lzwStart_status (s : State) : (lzwStart s).status = s.status := rfl
@[simp] theorem lzwStart_warn (s : State) : (lzwStart s).warn = s.warn := rfl
@[simp] theorem lzwStart_brVal (s : State) : (lzwStart s).brVal = s.brVal := rfl
@[simp] theorem lzwStart_lzw (s : State) : (lzwStart s).lzw = ⟨s.snap.imgCfg.mcs.toNat + 1, clearCode s.snap + 2, none, 0, 0⟩ := rfl
@[simp] theorem lzwStart_frameNo (s : State) : (lzwStart s).frameNo = s.frameNo := rfl
@[simp] theorem lzwStart_frameInfo (s : State) : (lzwStart s).frameInfo = s.frameInfo := rfl
@[simp] theorem lzwStart_dly (s : State) : (lzwStart s).dly = s.dly := rfl
@[simp] theorem lzwStart_phase (s : State) : (lzwStart s).phase = s.phase := rfl
@[simp] theorem lzwStart_snap (s : State) : (lzwStart s).snap = s.snap := rfl
@[simp] theorem lzwStart_cdata (s : State) : (lzwStart s).cdata = s.cdata := rfl
@[simp] theorem lzwStart_gct (s : State) : (lzwStart s).gct = s.gct := rfl
@[simp] theorem lzwStart_lct (s : State) : (lzwStart s).lct = s.lct := rfl
@[simp] theorem lzwStart_idxbuf (s : State) : (lzwStart s).idxbuf = [] := rfl
@[simp] theorem lzwStart_rbuf (s : State) : (lzwStart s).rbuf = s.rbuf := rfl
@[simp] theorem lzwStart_canvas (s : State) : (lzwStart s).canvas = s.canvas := rfl
@[simp] theorem lzwStart_prev (s : State) : (lzwStart s).prev = s.prev := rfl
@[simp] theorem lzwStart_keep (s : State) : (lzwStart s).keep = s.keep := rfl
@[simp] theorem lzwStart_dict (s : State) : (lzwStart s).dict = (List.range (clearCode s.snap)).map fun c => (c, Str.single (BitVec.ofNat 8 c)) := rfl
@[simp] theorem lzwStart_host (s : State) : (lzwStart s).host = s.host := rfl
@[simp] theorem lzwStart_sched (s : State) : (lzwStart s).sched = s.sched := rfl
@[simp] theorem lzwStart_replies (s : State) : (lzwStart s).replies = s.replies := rfl
@[simp] theorem lzwStart_draws (s : State) : (lzwStart s).draws = s.draws := rfl

/-! ## clearWork -/

@[simp] theorem clearWork_cfg (s : State) : (clearWork s).cfg = s.cfg := rfl
@[simp] theorem clearWork_conf (s : State) : (clearWork s).conf = s.conf := rfl
@[simp] theorem clearWork_status (s : State) : (clearWork s).status = s.status := rfl
@[simp] theorem clearWork_warn (s : State) : (clearWork s).warn = s.warn := rfl
@[simp] theorem clearWork_brVal (s : State) : (clearWork s).brVal = s.brVal := rfl
@[simp] theorem clearWork_lzw (s : State) : (clearWork s).lzw = { s.lzw with n := clearCode s.snap + 2, w := s.snap.imgCfg.mcs.toNat + 1, p := none } := rfl
@[simp] theorem clearWork_frameNo (s : State) : (clearWork s).frameNo = s.frameNo := rfl
@[simp] theorem clearWork_frameInfo (s : State) : (clearWork s).frameInfo = s.frameInfo := rfl
@[simp] theorem clearWork_dly (s : State) : (clearWork s).dly = s.dly := rfl
@[simp] theorem clearWork_phase (s : State) : (clearWork s).phase = s.phase := rfl
@[simp] theorem clearWork_snap (s : State) : (clearWork s).snap = s.snap := rfl
@[simp] theorem clearWork_cdata (s : State) : (clearWork s).cdata = s.cdata := rfl
@[simp] theorem clearWork_gct (s : State) : (clearWork s).gct = s.gct := rfl
@[simp] theorem clearWork_lct (s : State) : (clearWork s).lct = s.lct := rfl
@[simp] theorem clearWork_idxbuf (s : State) : (clearWork s).idxbuf = s.idxbuf := rfl
@[simp] theorem clearWork_rbuf (s : State) : (clearWork s).rbuf = s.rbuf := rfl
@[simp] theorem clearWork_canvas (s : State) : (clearWork s).canvas = s.canvas := rfl
@[simp] theorem clearWork_prev (s : State) : (clearWork s).prev = s.prev := rfl
@[simp] theorem clearWork_keep (s : State) : (clearWork s).keep = s.keep := rfl
@[simp] theorem clearWork_dict (s : State) : (clearWork s).dict = (List.range (clearCode s.snap)).map fun c => (c, Str.single (BitVec.ofNat 8 c)) := rfl
@[simp] theorem clearWork_host (s : State) : (clearWork s).host = s.host := rfl
@[simp] theorem clearWork_sched (s : State) : (clearWork s).sched = s.sched := rfl
@[simp] theorem clearWork_replies (s : State) : (clearWork s).replies = s.replies := rfl
@[simp] theorem clearWork_draws (s : State) : (clearWork s).draws = s.draws := rfl

/-! ## growWidth -/

@[simp] theorem growWidth_cfg (s : State) : (growWidth s).cfg = s.cfg := by unfold growWidth; split <;> rfl
@[simp] theorem growWidth_conf (s : State) : (growWidth s).conf = s.conf := by unfold growWidth; split <;> rfl
@[simp] theorem growWidth_status (s : State) : (growWidth s).status = s.status := by unfold growWidth; split <;> rfl
@[simp] theorem growWidth_warn (s : State) : (growWidth s).warn = s.warn := by unfold growWidth; split <;> rfl
@[simp] theorem growWidth_brVal (s : State) : (growWidth s).brVal = s.brVal := by unfold growWidth; split <;> rfl
@[simp] theorem growWidth_frameNo (s : State) : (growWidth s).frameNo = s.frameNo := by unfold growWidth; split <;> rfl
@[simp] theorem growWidth_frameInfo (s : State) : (growWidth s).frameInfo = s.frameInfo := by unfold growWidth; split <;> rfl
@[simp] theorem growWidth_dly (s : State) : (growWidth s).dly = s.dly := by unfold growWidth; split <;> rfl
@[simp] theorem growWidth_phase (s : State) : (growWidth s).phase = s.phase := by unfold growWidth; split <;> rfl
@[simp] theorem growWidth_snap (s : State) : (growWidth s).snap = s.snap := by unfold growWidth; split <;> rfl
@[simp] theorem growWidth_cdata (s : State) : (growWidth s).cdata = s.cdata := by unfold growWidth; split <;> rfl
@[simp] theorem growWidth_gct (s : State) : (growWidth s).gct = s.gct := by unfold growWidth; split <;> rfl
@[simp] theorem growWidth_lct (s : State) : (growWidth s).lct = s.lct := by unfold growWidth; split <;> rfl
@[simp] theorem growWidth_idxbuf (s : State) : (growWidth s).idxbuf = s.idxbuf := by unfold growWidth; split <;> rfl
@[simp] theorem growWidth_rbuf (s : State) : (growWidth s).rbuf = s.rbuf := by unfold growWidth; split <;> rfl
@[simp] theorem growWidth_canvas (s : State) : (growWidth s).canvas = s.canvas := by unfold growWidth; split <;> rfl
@[simp] theorem growWidth_prev (s : State) : (growWidth s).prev = s.prev := by unfold growWidth; split <;> rfl
@[simp] theorem growWidth_keep (s : State) : (growWidth s).keep = s.keep := by unfold growWidth; split <;> rfl
@[simp] theorem growWidth_dict (s : State) : (growWidth s).dict = s.dict := by unfold growWidth; split <;> rfl
@[simp] theorem growWidth_host (s : State) : (growWidth s).host = s.host := by unfold growWidth; split <;> rfl
@[simp] theorem growWidth_sched (s : State) : (growWidth s).sched = s.sched := by unfold growWidth; split <;> rfl
@[simp] theorem growWidth_replies (s : State) : (growWidth s).replies = s.replies := by unfold growWidth; split <;> rfl
@[simp] theorem growWidth_draws (s : State) : (growWidth s).draws = s.draws := by unfold growWidth; split <;> rfl

/-! ## invalidCode -/

@[simp] theorem invalidCode_cfg (s : State) : (invalidCode s).cfg = s.cfg := by unfold invalidCode; split <;> rfl
@[simp] theorem invalidCode_conf (s : State) : (invalidCode s).conf = s.conf := by unfold invalidCode; split <;> rfl
@[simp] theorem invalidCode_status (s : State) : (invalidCode s).status = { s.status with stop := if s.snap.ctrl.strict then .invalid else s.status.stop } := by unfold invalidCode; split <;> simp_all
@[simp] theorem invalidCode_warn (s : State) : (invalidCode s).warn = s.warn := by unfold invalidCode; split <;> rfl
@[simp] theorem invalidCode_brVal (s : State) : (invalidCode s).brVal = s.brVal := by unfold invalidCode; split <;> rfl
@[simp] theorem invalidCode_lzw (s : State) : (invalidCode s).lzw = s.lzw := by unfold invalidCode; split <;> rfl
@[simp] theorem invalidCode_frameNo (s : State) : (invalidCode s).frameNo = s.frameNo := by unfold invalidCode; split <;> rfl
@[simp] theorem invalidCode_frameInfo (s : State) : (invalidCode s).frameInfo = s.frameInfo := by unfold invalidCode; split <;> rfl
@[simp] theorem invalidCode_dly (s : State) : (invalidCode s).dly = s.dly := by unfold invalidCode; split <;> rfl
@[simp] theorem invalidCode_phase (s : State) : (invalidCode s).phase = s.phase := by unfold invalidCode; split <;> rfl
@[simp] theorem invalidCode_snap (s : State) : (invalidCode s).snap = s.snap := by unfold invalidCode; split <;> rfl
@[simp] theorem invalidCode_cdata (s : State) : (invalidCode s).cdata = s.cdata := by unfold invalidCode; split <;> rfl
@[simp] theorem invalidCode_gct (s : State) : (invalidCode s).gct = s.gct := by unfold invalidCode; split <;> rfl
@[simp] theorem invalidCode_lct (s : State) : (invalidCode s).lct = s.lct := by unfold invalidCode; split <;> rfl
@[simp] theorem invalidCode_idxbuf (s : State) : (invalidCode s).idxbuf = s.idxbuf := by unfold invalidCode; split <;> rfl
@[simp] theorem invalidCode_rbuf (s : State) : (invalidCode s).rbuf = s.rbuf := by unfold invalidCode; split <;> rfl
@[simp] theorem invalidCode_canvas (s : State) : (invalidCode s).canvas = s.canvas := by unfold invalidCode; split <;> rfl
@[simp] theorem invalidCode_prev (s : State) : (invalidCode s).prev = s.prev := by unfold invalidCode; split <;> rfl
@[simp] theorem invalidCode_keep (s : State) : (invalidCode s).keep = s.keep := by unfold invalidCode; split <;> rfl
@[simp] theorem invalidCode_dict (s : State) : (invalidCode s).dict = s.dict := by unfold invalidCode; split <;> rfl
@[simp] theorem invalidCode_host (s : State) : (invalidCode s).host = s.host := by unfold invalidCode; split <;> rfl
@[simp] theorem invalidCode_sched (s : State) : (invalidCode s).sched = s.sched := by unfold invalidCode; split <;> rfl
@[simp] theorem invalidCode_replies (s : State) : (invalidCode s).replies = s.replies := by unfold invalidCode; split <;> rfl
@[simp] theorem invalidCode_draws (s : State) : (invalidCode s).draws = s.draws := by unfold invalidCode; split <;> rfl

/-! ## underrunCheck -/

@[simp] theorem underrunCheck_cfg (s : State) : (underrunCheck s).cfg = s.cfg := by unfold underrunCheck; split <;> rfl
@[simp] theorem underrunCheck_conf (s : State) : (underrunCheck s).conf = s.conf := by unfold underrunCheck; split <;> rfl
@[simp] theorem underrunCheck_status (s : State) : (underrunCheck s).status = s.status := by unfold underrunCheck; split <;> rfl
@[simp] theorem underrunCheck_brVal (s : State) : (underrunCheck s).brVal = s.brVal := by unfold underrunCheck; split <;> rfl
@[simp] theorem underrunCheck_lzw (s : State) : (underrunCheck s).lzw = s.lzw := by unfold underrunCheck; split <;> rfl
@[simp] theorem underrunCheck_frameNo (s : State) : (underrunCheck s).frameNo = s.frameNo := by unfold underrunCheck; split <;> rfl
@[simp] theorem underrunCheck_frameInfo (s : State) : (underrunCheck s).frameInfo = s.frameInfo := by unfold underrunCheck; split <;> rfl
@[simp] theorem underrunCheck_dly (s : State) : (underrunCheck s).dly = s.dly := by unfold underrunCheck; split <;> rfl
@[simp] theorem underrunCheck_phase (s : State) : (underrunCheck s).phase = s.phase := by unfold underrunCheck; split <;> rfl
@[simp] theorem underrunCheck_snap (s : State) : (underrunCheck s).snap = s.snap := by unfold underrunCheck; split <;> rfl
@[simp] theorem underrunCheck_cdata (s : State) : (underrunCheck s).cdata = s.cdata := by unfold underrunCheck; split <;> rfl
@[simp] theorem underrunCheck_gct (s : State) : (underrunCheck s).gct = s.gct := by unfold underrunCheck; split <;> rfl
@[simp] theorem underrunCheck_lct (s : State) : (underrunCheck s).lct = s.lct := by unfold underrunCheck; split <;> rfl
@[simp] theorem underrunCheck_idxbuf (s : State) : (underrunCheck s).idxbuf = s.idxbuf := by unfold underrunCheck; split <;> rfl
@[simp] theorem underrunCheck_rbuf (s : State) : (underrunCheck s).rbuf = s.rbuf := by unfold underrunCheck; split <;> rfl
@[simp] theorem underrunCheck_canvas (s : State) : (underrunCheck s).canvas = s.canvas := by unfold underrunCheck; split <;> rfl
@[simp] theorem underrunCheck_prev (s : State) : (underrunCheck s).prev = s.prev := by unfold underrunCheck; split <;> rfl
@[simp] theorem underrunCheck_keep (s : State) : (underrunCheck s).keep = s.keep := by unfold underrunCheck; split <;> rfl
@[simp] theorem underrunCheck_dict (s : State) : (underrunCheck s).dict = s.dict := by unfold underrunCheck; split <;> rfl
@[simp] theorem underrunCheck_host (s : State) : (underrunCheck s).host = s.host := by unfold underrunCheck; split <;> rfl
@[simp] theorem underrunCheck_sched (s : State) : (underrunCheck s).sched = s.sched := by unfold underrunCheck; split <;> rfl
@[simp] theorem underrunCheck_replies (s : State) : (underrunCheck s).replies = s.replies := by unfold underrunCheck; split <;> rfl
@[simp] theorem underrunCheck_draws (s : State) : (underrunCheck s).draws = s.draws := by unfold underrunCheck; split <;> rfl

/-! ## reorderRows -/

@[simp] theorem reorderRows_cfg (s : State) : (reorderRows s).cfg = s.cfg := rfl
@[simp] theorem reorderRows_conf (s : State) : (reorderRows s).conf = s.conf := rfl
@[simp] theorem reorderRows_status (s : State) : (reorderRows s).status = s.status := rfl
@[simp] theorem reorderRows_warn (s : State) : (reorderRows s).warn = s.warn := rfl
@[simp] theorem reorderRows_brVal (s : State) : (reorderRows s).brVal = s.brVal := rfl
@[simp] theorem reorderRows_lzw (s : State) : (reorderRows s).lzw = s.lzw := rfl
@[simp] theorem reorderRows_frameNo (s : State) : (reorderRows s).frameNo = s.frameNo := rfl
@[simp] theorem reorderRows_frameInfo (s : State) : (reorderRows s).frameInfo = s.frameInfo := rfl
@[simp] theorem reorderRows_dly (s : State) : (reorderRows s).dly = s.dly := rfl
@[simp] theorem reorderRows_phase (s : State) : (reorderRows s).phase = s.phase := rfl
@[simp] theorem reorderRows_snap (s : State) : (reorderRows s).snap = s.snap := rfl
@[simp] theorem reorderRows_cdata (s : State) : (reorderRows s).cdata = s.cdata := rfl
@[simp] theorem reorderRows_gct (s : State) : (reorderRows s).gct = s.gct := rfl
@[simp] theorem reorderRows_lct (s : State) : (reorderRows s).lct = s.lct := rfl
@[simp] theorem reorderRows_idxbuf (s : State) : (reorderRows s).idxbuf = s.idxbuf := rfl
@[simp] theorem reorderRows_rbuf (s : State) : (reorderRows s).rbuf = moveCells s.snap s.idxbuf (List.range (pixelCount s.snap)) s.rbuf := rfl
@[simp] theorem reorderRows_canvas (s : State) : (reorderRows s).canvas = s.canvas := rfl
@[simp] theorem reorderRows_prev (s : State) : (reorderRows s).prev = s.prev := rfl
@[simp] theorem reorderRows_keep (s : State) : (reorderRows s).keep = s.keep := rfl
@[simp] theorem reorderRows_dict (s : State) : (reorderRows s).dict = s.dict := rfl
@[simp] theorem reorderRows_host (s : State) : (reorderRows s).host = s.host := rfl
@[simp] theorem reorderRows_sched (s : State) : (reorderRows s).sched = s.sched := rfl
@[simp] theorem reorderRows_replies (s : State) : (reorderRows s).replies = s.replies := rfl
@[simp] theorem reorderRows_draws (s : State) : (reorderRows s).draws = s.draws := rfl

/-! ## emitFrame -/

@[simp] theorem emitFrame_cfg (s : State) : (emitFrame s).cfg = s.cfg := rfl
@[simp] theorem emitFrame_conf (s : State) : (emitFrame s).conf = s.conf := rfl
@[simp] theorem emitFrame_status (s : State) : (emitFrame s).status = s.status := rfl
@[simp] theorem emitFrame_warn (s : State) : (emitFrame s).warn = s.warn := rfl
@[simp] theorem emitFrame_brVal (s : State) : (emitFrame s).brVal = s.brVal := rfl
@[simp] theorem emitFrame_lzw (s : State) : (emitFrame s).lzw = s.lzw := rfl
@[simp] theorem emitFrame_frameNo (s : State) : (emitFrame s).frameNo = s.frameNo + 1 := rfl
@[simp] theorem emitFrame_frameInfo (s : State) : (emitFrame s).frameInfo = ⟨resolveDisp s.snap, s.frameInfo.keepV || keeps (resolveDisp s.snap)⟩ := rfl
@[simp] theorem emitFrame_dly (s : State) : (emitFrame s).dly = frameDelay s.snap := rfl
@[simp] theorem emitFrame_phase (s : State) : (emitFrame s).phase = s.phase := rfl
@[simp] theorem emitFrame_snap (s : State) : (emitFrame s).snap = s.snap := rfl
@[simp] theorem emitFrame_cdata (s : State) : (emitFrame s).cdata = s.cdata := rfl
@[simp] theorem emitFrame_gct (s : State) : (emitFrame s).gct = s.gct := rfl
@[simp] theorem emitFrame_lct (s : State) : (emitFrame s).lct = s.lct := rfl
@[simp] theorem emitFrame_idxbuf (s : State) : (emitFrame s).idxbuf = s.idxbuf := rfl
@[simp] theorem emitFrame_rbuf (s : State) : (emitFrame s).rbuf = s.rbuf := rfl
@[simp] theorem emitFrame_canvas (s : State) : (emitFrame s).canvas = s.canvas := rfl
@[simp] theorem emitFrame_prev (s : State) : (emitFrame s).prev = memCopy (canvasCount s.snap) s.canvas s.prev := rfl
@[simp] theorem emitFrame_keep (s : State) : (emitFrame s).keep = if keeps (resolveDisp s.snap) then memCopy (canvasCount s.snap) s.canvas s.keep else s.keep := rfl
@[simp] theorem emitFrame_dict (s : State) : (emitFrame s).dict = s.dict := rfl
@[simp] theorem emitFrame_host (s : State) : (emitFrame s).host = s.host := rfl
@[simp] theorem emitFrame_sched (s : State) : (emitFrame s).sched = s.sched := rfl
@[simp] theorem emitFrame_replies (s : State) : (emitFrame s).replies = s.replies := rfl
@[simp] theorem emitFrame_draws (s : State) : (emitFrame s).draws = s.draws := rfl

/-! ## popTurn -/

@[simp] theorem popTurn_cfg (s : State) : (popTurn s).cfg = s.cfg := rfl
@[simp] theorem popTurn_conf (s : State) : (popTurn s).conf = s.conf := rfl
@[simp] theorem popTurn_status (s : State) : (popTurn s).status = s.status := rfl
@[simp] theorem popTurn_warn (s : State) : (popTurn s).warn = s.warn := rfl
@[simp] theorem popTurn_brVal (s : State) : (popTurn s).brVal = s.brVal := rfl
@[simp] theorem popTurn_lzw (s : State) : (popTurn s).lzw = s.lzw := rfl
@[simp] theorem popTurn_frameNo (s : State) : (popTurn s).frameNo = s.frameNo := rfl
@[simp] theorem popTurn_frameInfo (s : State) : (popTurn s).frameInfo = s.frameInfo := rfl
@[simp] theorem popTurn_dly (s : State) : (popTurn s).dly = s.dly := rfl
@[simp] theorem popTurn_phase (s : State) : (popTurn s).phase = s.phase := rfl
@[simp] theorem popTurn_snap (s : State) : (popTurn s).snap = s.snap := rfl
@[simp] theorem popTurn_cdata (s : State) : (popTurn s).cdata = s.cdata := rfl
@[simp] theorem popTurn_gct (s : State) : (popTurn s).gct = s.gct := rfl
@[simp] theorem popTurn_lct (s : State) : (popTurn s).lct = s.lct := rfl
@[simp] theorem popTurn_idxbuf (s : State) : (popTurn s).idxbuf = s.idxbuf := rfl
@[simp] theorem popTurn_rbuf (s : State) : (popTurn s).rbuf = s.rbuf := rfl
@[simp] theorem popTurn_canvas (s : State) : (popTurn s).canvas = s.canvas := rfl
@[simp] theorem popTurn_prev (s : State) : (popTurn s).prev = s.prev := rfl
@[simp] theorem popTurn_keep (s : State) : (popTurn s).keep = s.keep := rfl
@[simp] theorem popTurn_dict (s : State) : (popTurn s).dict = s.dict := rfl
@[simp] theorem popTurn_host (s : State) : (popTurn s).host = s.host := rfl
@[simp] theorem popTurn_sched (s : State) : (popTurn s).sched = s.sched.tail := rfl
@[simp] theorem popTurn_replies (s : State) : (popTurn s).replies = s.replies := rfl
@[simp] theorem popTurn_draws (s : State) : (popTurn s).draws = s.draws := rfl

/-! ## takeOp -/

@[simp] theorem takeOp_cfg (rest : List HostOp) (s : State) : (takeOp rest s).cfg = s.cfg := rfl
@[simp] theorem takeOp_conf (rest : List HostOp) (s : State) : (takeOp rest s).conf = s.conf := rfl
@[simp] theorem takeOp_status (rest : List HostOp) (s : State) : (takeOp rest s).status = s.status := rfl
@[simp] theorem takeOp_warn (rest : List HostOp) (s : State) : (takeOp rest s).warn = s.warn := rfl
@[simp] theorem takeOp_brVal (rest : List HostOp) (s : State) : (takeOp rest s).brVal = s.brVal := rfl
@[simp] theorem takeOp_lzw (rest : List HostOp) (s : State) : (takeOp rest s).lzw = s.lzw := rfl
@[simp] theorem takeOp_frameNo (rest : List HostOp) (s : State) : (takeOp rest s).frameNo = s.frameNo := rfl
@[simp] theorem takeOp_frameInfo (rest : List HostOp) (s : State) : (takeOp rest s).frameInfo = s.frameInfo := rfl
@[simp] theorem takeOp_dly (rest : List HostOp) (s : State) : (takeOp rest s).dly = s.dly := rfl
@[simp] theorem takeOp_phase (rest : List HostOp) (s : State) : (takeOp rest s).phase = s.phase := rfl
@[simp] theorem takeOp_snap (rest : List HostOp) (s : State) : (takeOp rest s).snap = s.snap := rfl
@[simp] theorem takeOp_cdata (rest : List HostOp) (s : State) : (takeOp rest s).cdata = s.cdata := rfl
@[simp] theorem takeOp_gct (rest : List HostOp) (s : State) : (takeOp rest s).gct = s.gct := rfl
@[simp] theorem takeOp_lct (rest : List HostOp) (s : State) : (takeOp rest s).lct = s.lct := rfl
@[simp] theorem takeOp_idxbuf (rest : List HostOp) (s : State) : (takeOp rest s).idxbuf = s.idxbuf := rfl
@[simp] theorem takeOp_rbuf (rest : List HostOp) (s : State) : (takeOp rest s).rbuf = s.rbuf := rfl
@[simp] theorem takeOp_canvas (rest : List HostOp) (s : State) : (takeOp rest s).canvas = s.canvas := rfl
@[simp] theorem takeOp_prev (rest : List HostOp) (s : State) : (takeOp rest s).prev = s.prev := rfl
@[simp] theorem takeOp_keep (rest : List HostOp) (s : State) : (takeOp rest s).keep = s.keep := rfl
@[simp] theorem takeOp_dict (rest : List HostOp) (s : State) : (takeOp rest s).dict = s.dict := rfl
@[simp] theorem takeOp_host (rest : List HostOp) (s : State) : (takeOp rest s).host = rest := rfl
@[simp] theorem takeOp_sched (rest : List HostOp) (s : State) : (takeOp rest s).sched = s.sched.tail := rfl
@[simp] theorem takeOp_replies (rest : List HostOp) (s : State) : (takeOp rest s).replies = s.replies := rfl
@[simp] theorem takeOp_draws (rest : List HostOp) (s : State) : (takeOp rest s).draws = s.draws := rfl

/-! ## reply -/

@[simp] theorem reply_cfg (v : Word) (s : State) : (reply v s).cfg = s.cfg := rfl
@[simp] theorem reply_conf (v : Word) (s : State) : (reply v s).conf = s.conf := rfl
@[simp] theorem reply_status (v : Word) (s : State) : (reply v s).status = s.status := rfl
@[simp] theorem reply_warn (v : Word) (s : State) : (reply v s).warn = s.warn := rfl
@[simp] theorem reply_brVal (v : Word) (s : State) : (reply v s).brVal = s.brVal := rfl
@[simp] theorem reply_lzw (v : Word) (s : State) : (reply v s).lzw = s.lzw := rfl
@[simp] theorem reply_frameNo (v : Word) (s : State) : (reply v s).frameNo = s.frameNo := rfl
@[simp] theorem reply_frameInfo (v : Word) (s : State) : (reply v s).frameInfo = s.frameInfo := rfl
@[simp] theorem reply_dly (v : Word) (s : State) : (reply v s).dly = s.dly := rfl
@[simp] theorem reply_phase (v : Word) (s : State) : (reply v s).phase = s.phase := rfl
@[simp] theorem reply_snap (v : Word) (s : State) : (reply v s).snap = s.snap := rfl
@[simp] theorem reply_cdata (v : Word) (s : State) : (reply v s).cdata = s.cdata := rfl
@[simp] theorem reply_gct (v : Word) (s : State) : (reply v s).gct = s.gct := rfl
@[simp] theorem reply_lct (v : Word) (s : State) : (reply v s).lct = s.lct := rfl
@[simp] theorem reply_idxbuf (v : Word) (s : State) : (reply v s).idxbuf = s.idxbuf := rfl
@[simp] theorem reply_rbuf (v : Word) (s : State) : (reply v s).rbuf = s.rbuf := rfl
@[simp] theorem reply_canvas (v : Word) (s : State) : (reply v s).canvas = s.canvas := rfl
@[simp] theorem reply_prev (v : Word) (s : State) : (reply v s).prev = s.prev := rfl
@[simp] theorem reply_keep (v : Word) (s : State) : (reply v s).keep = s.keep := rfl
@[simp] theorem reply_dict (v : Word) (s : State) : (reply v s).dict = s.dict := rfl
@[simp] theorem reply_host (v : Word) (s : State) : (reply v s).host = s.host := rfl
@[simp] theorem reply_sched (v : Word) (s : State) : (reply v s).sched = s.sched := rfl
@[simp] theorem reply_replies (v : Word) (s : State) : (reply v s).replies = v :: s.replies := rfl
@[simp] theorem reply_draws (v : Word) (s : State) : (reply v s).draws = s.draws := rfl

end Sys2Proof.Machine
end

