-- ==== Sys2Proof/Laws/Units.lean ====
section
/-! SUPPORT. One lemma per shared operation that says once everything it can do: outcomes and sequencing, commands,
checks, the bit reader, the pieces of a decode step, moving, seeding, painting, the engine's steps. -/

namespace Sys2Proof.Machine

/-! ## Sequencing -/

@[simp] theorem Except_bind_ok {α β : Type} (a : α) (f : α → Except Fault β) : (Except.ok a).bind f = f a := rfl
@[simp] theorem Except_bind_error {α β : Type} (e : Fault) (f : α → Except Fault β) :
    (Except.error e : Except Fault α).bind f = .error e := rfl

/-- A sequence succeeds when both parts do. -/
theorem bind_eq_ok {α β : Type} {x : Except Fault α} {f : α → Except Fault β} {b : β} :
    x.bind f = .ok b ↔ ∃ a, x = .ok a ∧ f a = .ok b := by
  cases x <;> simp

/-- A sequence faults when its first part does, or its second part does. -/
theorem bind_eq_error {α β : Type} {x : Except Fault α} {f : α → Except Fault β} {e : Fault} :
    x.bind f = .error e ↔ x = .error e ∨ ∃ a, x = .ok a ∧ f a = .error e := by
  cases x <;> simp

@[simp] theorem asOutcome_ok (s : State) : asOutcome (.ok s) = .next s := rfl
@[simp] theorem asOutcome_error (f : Fault) : asOutcome (.error f) = .fault f := rfl

theorem asOutcome_eq_next {x : Except Fault State} {t : State} : asOutcome x = .next t ↔ x = .ok t := by
  cases x <;> simp

theorem asOutcome_eq_fault {x : Except Fault State} {f : Fault} : asOutcome x = .fault f ↔ x = .error f := by
  cases x <;> simp

/-! ## Phases and commands -/

theorem busy_eq_false {s : State} : busy s = false ↔ s.phase = .idle := by
  simp [busy]

theorem busy_of_idle {s : State} (h : s.phase = .idle) : busy s = false := busy_eq_false.2 h

@[simp] theorem busy_accept (op : Op) (s : State) : busy (accept op s) = true := by
  simp [busy]

/-- An idle machine runs the command's body on the accepted state. -/
theorem runCommand_idle {s : State} (h : s.phase = .idle) (op : Op) (body : State → Except Fault State) :
    runCommand op body s = asOutcome (body (accept op s)) := by
  simp [runCommand, busy_of_idle h]

theorem runCommand_busy {s : State} (h : busy s = true) (op : Op) (body : State → Except Fault State) :
    runCommand op body s = .next (setOvr s) := by
  simp [runCommand, h]

/-- The arms of exec for the commands, in one line. -/
theorem exec_instrOf (op : Op) (s : State) : exec (instrOf op) s = runCommand op (commandBody op) s := by
  cases op <;> rfl

theorem exec_instrOf_idle {s : State} (h : s.phase = .idle) (op : Op) :
    exec (instrOf op) s = asOutcome (commandBody op (accept op s)) := by
  rw [exec_instrOf, runCommand_idle h]

/-- A command whose checks pass does its work. -/
theorem checked_of_none {op : Op} {s : State} (h : failedCheck op s.cfg s.snap = none)
    (work : State → Except Fault State) : checked op work s = work s := by
  simp [checked, h]

/-- A command with a failing check raises its code and does nothing else. -/
theorem checked_of_some {op : Op} {s : State} {code : ErrCode} (h : failedCheck op s.cfg s.snap = some code)
    (work : State → Except Fault State) : checked op work s = .ok (raiseError code s) := by
  simp [checked, h]

/-- Both cases of a checked command. -/
theorem checked_cases {op : Op} {work : State → Except Fault State} {s t : State} (h : checked op work s = .ok t) :
    (∃ code, failedCheck op s.cfg s.snap = some code ∧ t = raiseError code s) ∨
    (failedCheck op s.cfg s.snap = none ∧ work s = .ok t) := by
  cases hf : failedCheck op s.cfg s.snap with
  | none => exact .inr ⟨rfl, by rwa [checked_of_none hf] at h⟩
  | some code => rw [checked_of_some hf] at h; exact .inl ⟨code, rfl, by cases h; rfl⟩

/-- The first failing check, found behind checks that pass. -/
theorem failedCheck_append {op : Op} {p : Config} {c : Conf} {before after : List Check} {k : Check}
    (h : checksOf op = before ++ k :: after) (hb : ∀ d ∈ before, checkFails d p c = false)
    (hk : checkFails k p c = true) : failedCheck op p c = some (checkCode k) := by
  have : (before ++ k :: after).find? (fun d => checkFails d p c) = some k := by
    rw [List.find?_append, List.find?_eq_none.2 (by simpa using hb)]
    simp [hk]
  simp [failedCheck, h, this]

/-- A command passes its checks exactly when every row of its own passes. -/
theorem failedCheck_eq_none {op : Op} {p : Config} {c : Conf} :
    failedCheck op p c = none ↔ ∀ k ∈ checksOf op, checkFails k p c = false := by
  simp [failedCheck, List.find?_eq_none]

/-! ## The bit reader -/

theorem streamBit_lt {m : Mem Byte} {k v : Nat} (h : streamBit m k = .ok v) : v < 2 := by
  unfold streamBit at h
  cases hr : engineRead .cdata m (k / 8) with
  | error e => simp [hr, Except.map] at h
  | ok b => simp [hr, Except.map] at h; omega

/-- A bit of a loaded byte (R94). -/
theorem streamBit_ok {m : Mem Byte} {k : Nat} {b : Byte} (h : memGet m (k / 8) = some b) :
    streamBit m k = .ok (b.toNat / 2 ^ (k % 8) % 2) := by
  simp [streamBit, engineRead, h, Except.map]

theorem streamBit_error {m : Mem Byte} {k : Nat} (h : memGet m (k / 8) = none) :
    streamBit m k = .error (.bottomRead .cdata (k / 8)) := by
  simp [streamBit, engineRead, h, Except.map]

/-- The result of ReadBits is below 2^n (R95). -/
theorem readBits_lt {m : Mem Byte} {off n v : Nat} (h : readBits m off n = .ok v) : v < 2 ^ n := by
  induction n generalizing off v with
  | zero => cases h; simp
  | succ n ih =>
    obtain ⟨b, hb, h⟩ := bind_eq_ok.1 h
    obtain ⟨r, hr, h⟩ := bind_eq_ok.1 h
    cases h
    have := streamBit_lt hb
    have := ih hr
    rw [pow_succ]
    omega

/-- ReadBits succeeds on loaded bytes. -/
theorem readBits_ok {m : Mem Byte} {off n : Nat} (h : ∀ i, i < n → (memGet m ((off + i) / 8)).isSome = true) :
    ∃ v, readBits m off n = .ok v := by
  induction n generalizing off with
  | zero => exact ⟨0, rfl⟩
  | succ n ih =>
    obtain ⟨b, hb⟩ := Option.isSome_iff_exists.1 (h 0 (by omega))
    obtain ⟨r, hr⟩ := ih (off := off + 1) fun i hi => by
      have := h (i + 1) (by omega)
      rwa [show off + (i + 1) = off + 1 + i by omega] at this
    exact ⟨_, by rw [readBits, streamBit_ok (by simpa using hb), Except_bind_ok, hr, Except_bind_ok]⟩

/-! ## The pieces of a decode step -/

/-- Emit touches IDXBUF and OUTN only: the bytes go to the cells from OUTN on, cut at E (R108). -/
theorem emitBytes_spec (l : List Byte) (s : State) (h : s.lzw.outn ≤ pixelCount s.snap) :
    ∃ m, emitBytes l s =
        { s with idxbuf := m, lzw := { s.lzw with outn := min (s.lzw.outn + l.length) (pixelCount s.snap) } } ∧
      ∀ k, memGet m k =
        if s.lzw.outn ≤ k ∧ k < min (s.lzw.outn + l.length) (pixelCount s.snap) then l[k - s.lzw.outn]?
        else memGet s.idxbuf k := by
  induction l generalizing s with
  | nil =>
    refine ⟨s.idxbuf, ?_, fun k => ?_⟩
    · simp only [emitBytes, List.length_nil, Nat.add_zero, Nat.min_eq_left h]
    · have : ¬ (s.lzw.outn ≤ k ∧ k < min (s.lzw.outn + ([] : List Byte).length) (pixelCount s.snap)) := by
        simp; omega
      rw [if_neg this]
  | cons b l ih =>
    simp only [emitBytes]
    split
    · rename_i hlt
      obtain ⟨m, hm, hg⟩ := ih { s with idxbuf := memSet s.idxbuf s.lzw.outn b,
                                        lzw := { s.lzw with outn := s.lzw.outn + 1 } } hlt
      refine ⟨m, ?_, fun k => ?_⟩
      · rw [hm]
        simp only [List.length_cons]
        congr 2
        omega
      · rw [hg k]
        simp only [List.length_cons]
        rw [memGet_memSet]
        by_cases h1 : s.lzw.outn = k
        · subst h1
          have : s.lzw.outn ≤ s.lzw.outn ∧ s.lzw.outn < min (s.lzw.outn + (l.length + 1)) (pixelCount s.snap) := by
            omega
          simp [this]
        · by_cases h2 : s.lzw.outn + 1 ≤ k ∧ k < min (s.lzw.outn + 1 + l.length) (pixelCount s.snap)
          · have h3 : s.lzw.outn ≤ k ∧ k < min (s.lzw.outn + (l.length + 1)) (pixelCount s.snap) := by omega
            rw [if_pos h2, if_pos h3, show k - s.lzw.outn = (k - (s.lzw.outn + 1)) + 1 by omega]
            simp
          · have h3 : ¬ (s.lzw.outn ≤ k ∧ k < min (s.lzw.outn + (l.length + 1)) (pixelCount s.snap)) := by omega
            rw [if_neg h2, if_neg h3, if_neg h1]
    · rename_i hge
      obtain ⟨m, hm, hg⟩ := ih s h
      have he : s.lzw.outn = pixelCount s.snap := by omega
      refine ⟨m, ?_, fun k => ?_⟩
      · rw [hm]; simp only [List.length_cons]; congr 2; omega
      · rw [hg k]
        have h1 : ¬ (s.lzw.outn ≤ k ∧ k < min (s.lzw.outn + l.length) (pixelCount s.snap)) := by omega
        have h2 : ¬ (s.lzw.outn ≤ k ∧ k < min (s.lzw.outn + (b :: l).length) (pixelCount s.snap)) := by omega
        rw [if_neg h1, if_neg h2]

/-- With E pixels out nothing more is emitted. -/
theorem emitBytes_full (l : List Byte) (s : State) (h : ¬ s.lzw.outn < pixelCount s.snap) : emitBytes l s = s := by
  induction l with
  | nil => rfl
  | cons b l ih => simp [emitBytes, h, ih]

/-- The frame of emission, for every state. -/
theorem emitBytes_frame (l : List Byte) (s : State) :
    ∃ m o, emitBytes l s = { s with idxbuf := m, lzw := { s.lzw with outn := o } } := by
  by_cases h : s.lzw.outn ≤ pixelCount s.snap
  · obtain ⟨m, hm, -⟩ := emitBytes_spec l s h
    exact ⟨m, _, hm⟩
  · exact ⟨s.idxbuf, s.lzw.outn, by rw [emitBytes_full l s (by omega)]⟩

/-- The entry and the previous entry (R109) in one record. -/
theorem addEntry_eq (str : Str) (s : State) :
    addEntry str s = { s with
      dict := match s.lzw.p with
        | some p => if s.lzw.n < 4096 then memSet s.dict s.lzw.n (p.snoc str.head) else s.dict
        | none => s.dict
      lzw := ⟨s.lzw.w, grownCount s, some str, s.lzw.pos, s.lzw.outn⟩ } := by
  unfold addEntry grownCount
  split
  · rename_i p hp
    by_cases hn : s.lzw.n < 4096
    · simp only [Config.dMax, hn, hp, if_true, Option.isSome_some, and_self]
    · simp only [Config.dMax, hn, hp, if_false, and_false]
  · rename_i hp
    simp only [hp, Option.isSome_none, Bool.false_eq_true, false_and, if_false]

/-- The width's growth (R110) in one record. -/
theorem growWidth_eq (s : State) :
    growWidth s = { s with lzw := { s.lzw with
      w := if s.lzw.n = 2 ^ s.lzw.w ∧ s.lzw.w < 12 then s.lzw.w + 1 else s.lzw.w } } := by
  unfold growWidth Config.wMax
  split <;> rfl

/-- AddAndGrow's first two parts (R109, R110) in one record. -/
theorem growWidth_addEntry (str : Str) (s : State) :
    growWidth (addEntry str s) =
      { s with
        dict := match s.lzw.p with
          | some p => if s.lzw.n < 4096 then memSet s.dict s.lzw.n (p.snoc str.head) else s.dict
          | none => s.dict
        lzw := ⟨grownWidth s, grownCount s, some str, s.lzw.pos, s.lzw.outn⟩ } := by
  rw [growWidth_eq, addEntry_eq]
  rfl

/-- The three cases of the forced reset (R111, R112). -/
theorem forcedReset_cases {s t : State} (h : forcedReset s = .ok t) :
    t = s ∨ t = dictReset s ∧ s.snap.ctrl.earlyReset = true ∧ s.lzw.w = 12 ∧ s.lzw.n = 4096 := by
  unfold forcedReset at h
  split at h
  · rename_i hc
    split at h
    · obtain ⟨v, hv, h⟩ := bind_eq_ok.1 h
      split at h
      · cases h; exact .inr ⟨rfl, hc⟩
      · cases h; exact .inl rfl
    · cases h; exact .inl rfl
  · cases h; exact .inl rfl

/-- The forced reset can only fault on a ⊥ byte of the peek. -/
theorem forcedReset_ok {s : State} (h : s.lzw.pos + 12 ≤ streamBits s.snap →
    ∃ v, readBits s.cdata s.lzw.pos 12 = .ok v) : ∃ t, forcedReset s = .ok t := by
  unfold forcedReset
  split
  · split
    · obtain ⟨v, hv⟩ := h ‹_›
      rw [hv, Except_bind_ok]
      split <;> exact ⟨_, rfl⟩
    · exact ⟨_, rfl⟩
  · exact ⟨_, rfl⟩

/-- The cells of a reset dictionary (R98). -/
theorem memGet_dictReset (s : State) (k : Nat) : memGet (dictReset s).dict k = literalEntry s.snap k := by
  rw [dictReset_dict, memGet_map_range (f := fun c => Str.single (BitVec.ofNat 8 c))]
  rfl

/-- A code's work is exec of the decoded code (R76, R100). -/
theorem codeWork_eq_exec (c : Nat) (s : State) : asOutcome (codeWork c s) = exec (decodeCode (codeCtx s) c) s := by
  unfold codeWork decodeCode codeCtx clearCode
  split
  · rfl
  · split
    · rfl
    · split
      · rfl
      · split <;> rfl

/-- The three cases of a decode step (R100). -/
theorem lzwStep_cases {s t : State} (h : lzwStep s = .ok t) :
    (pixelCount s.snap ≤ s.lzw.outn ∧ t = stopWith .count s) ∨
    (s.lzw.outn < pixelCount s.snap ∧ streamBits s.snap < s.lzw.pos + s.lzw.w ∧ t = stopWith .input s) ∨
    (s.lzw.outn < pixelCount s.snap ∧ s.lzw.pos + s.lzw.w ≤ streamBits s.snap ∧
      ∃ c, readBits s.cdata s.lzw.pos s.lzw.w = .ok c ∧ codeWork c (advancePos s) = .ok t) := by
  unfold lzwStep at h
  split at h
  · cases h; exact .inl ⟨‹_›, rfl⟩
  · split at h
    · cases h; exact .inr (.inl ⟨by omega, ‹_›, rfl⟩)
    · obtain ⟨c, hc, h⟩ := bind_eq_ok.1 h
      exact .inr (.inr ⟨by omega, by omega, c, hc, h⟩)

/-- The five cases of a code's work (R103 to R107). -/
theorem codeWork_cases {c : Nat} {s t : State} (h : codeWork c s = .ok t) :
    (c = clearCode s.snap ∧ t = clearWork s) ∨
    (c = clearCode s.snap + 1 ∧ t = stopWith .endCode s) ∨
    (c ≠ clearCode s.snap ∧ c ≠ clearCode s.snap + 1 ∧ c < s.lzw.n ∧
      ∃ str, memGet s.dict c = some str ∧ emitAndGrow str s = .ok t) ∨
    (c ≠ clearCode s.snap ∧ c ≠ clearCode s.snap + 1 ∧ c = s.lzw.n ∧
      ∃ p, s.lzw.p = some p ∧ emitAndGrow (p.snoc p.head) s = .ok t) ∨
    (c ≠ clearCode s.snap ∧ c ≠ clearCode s.snap + 1 ∧ ¬ c < s.lzw.n ∧ t = invalidCode s) := by
  unfold codeWork at h
  split at h
  · cases h; exact .inl ⟨‹_›, rfl⟩
  · split at h
    · cases h; exact .inr (.inl ⟨‹_›, rfl⟩)
    · split at h
      · obtain ⟨str, hs, h⟩ := bind_eq_ok.1 h
        exact .inr (.inr (.inl ⟨‹_›, ‹_›, ‹_›, str, engineRead_eq_ok.1 hs, h⟩))
      · split at h
        · rename_i hk
          obtain ⟨p, hp⟩ := Option.isSome_iff_exists.1 hk.2
          simp only [kwkwkWork, hp] at h
          exact .inr (.inr (.inr (.inl ⟨‹_›, ‹_›, hk.1, p, hp, h⟩)))
        · cases h; exact .inr (.inr (.inr (.inr ⟨‹_›, ‹_›, ‹_›, rfl⟩)))

/-! ## Seeding and painting -/

/-- Seeding by LAST_DISP is exec of the decoded disposal code (R129). -/
theorem seedBy_eq_exec (l : BitVec 3) (s : State) : asOutcome (seedBy l s) = exec (decodeDisposal l) s := by
  have h : ∀ l : BitVec 3, l = 0 ∨ l = 1 ∨ l = 2 ∨ l = 3 ∨ l = 4 ∨ l = 5 ∨ l = 6 ∨ l = 7 := by decide
  rcases h l with rfl | rfl | rfl | rfl | rfl | rfl | rfl | rfl <;> rfl

/-- Copying a loaded frame seeds every canvas cell (R131, R133). -/
theorem seedCopy_ok {name : MemName} {src : Mem Rgba} {s : State}
    (h : ∀ k, k < canvasCount s.snap → (memGet src k).isSome = true) :
    seedCopy name src s = .ok { s with canvas := memCopy (canvasCount s.snap) src s.canvas } := by
  simp [seedCopy, firstBottom_eq_none.2 h]

/-- What seeding leaves: only the canvas changes. -/
theorem seedBy_frame {l : BitVec 3} {s t : State} (h : seedBy l s = .ok t) : t = { s with canvas := t.canvas } := by
  have hb : ∀ {t}, seedBackground s = .ok t → t = { s with canvas := t.canvas } := by
    intro t h
    obtain ⟨bg, -, h⟩ := bind_eq_ok.1 h
    cases h; rfl
  have hc : ∀ {name src t}, seedCopy name src s = .ok t → t = { s with canvas := t.canvas } := by
    intro name src t h
    unfold seedCopy at h
    split at h
    · cases h
    · cases h; rfl
  unfold seedBy seedPrevious seedKept at h
  split at h
  · exact hc h
  · split at h
    · split at h
      · exact hc h
      · exact hb h
    · exact hb h

/-- The four cases of painting with one RBUF cell (R135). -/
theorem paintIndex_cases {k : Nat} {v : Option Byte} {s t : State} (h : paintIndex k v s = .ok t) :
    (v = none ∧ t = warnExhaust s) ∨
    (∃ b, v = some b ∧ resolveTrans s.snap = some b ∧ t = s) ∨
    (∃ b, v = some b ∧ resolveTrans s.snap ≠ some b ∧ tableLen s.snap ≤ b.toNat ∧ t = warnBadidx s) ∨
    (∃ b c, v = some b ∧ resolveTrans s.snap ≠ some b ∧ b.toNat < tableLen s.snap ∧ tableRead s b.toNat = .ok c ∧
      t = { s with canvas := memSet s.canvas k ⟨c.r, c.g, c.b, 255⟩ }) := by
  unfold paintIndex at h
  split at h
  · cases h; exact .inl ⟨rfl, rfl⟩
  · rename_i b
    split at h
    · cases h; exact .inr (.inl ⟨b, rfl, ‹_›, rfl⟩)
    · split at h
      · cases h; exact .inr (.inr (.inl ⟨b, rfl, ‹_›, ‹_›, rfl⟩))
      · obtain ⟨c, hc, h⟩ := bind_eq_ok.1 h
        cases h
        exact .inr (.inr (.inr ⟨b, c, rfl, ‹_›, by omega, hc, rfl⟩))

/-- Painting touches WARN and CANVAS only. -/
theorem paintIndex_frame {k : Nat} {v : Option Byte} {s t : State} (h : paintIndex k v s = .ok t) :
    t = { s with warn := t.warn, canvas := t.canvas } := by
  rcases paintIndex_cases h with ⟨-, rfl⟩ | ⟨b, -, -, rfl⟩ | ⟨b, -, -, -, rfl⟩ | ⟨b, c, -, -, -, -, rfl⟩ <;> rfl

theorem paintCell_frame {k j : Nat} {s : State} {r : State × Nat} (h : paintCell k j s = .ok r) :
    r.1 = { s with warn := r.1.warn, canvas := r.1.canvas } ∧
    r.2 = if inside s.snap (k % s.snap.sw.toNat) (k / s.snap.sw.toNat) then j + 1 else j := by
  unfold paintCell at h
  split at h
  · obtain ⟨t, ht, h⟩ := bind_eq_ok.1 h
    cases h
    exact ⟨paintIndex_frame ht, by simp [*]⟩
  · cases h
    exact ⟨rfl, by simp [*]⟩

theorem paintFrom_frame {n k j : Nat} {s t : State} (h : paintFrom n k j s = .ok t) :
    t = { s with warn := t.warn, canvas := t.canvas } := by
  induction n generalizing k j s with
  | zero => cases h; rfl
  | succ n ih =>
    obtain ⟨r, hr, h⟩ := bind_eq_ok.1 h
    have h1 := ih h
    rw [(paintCell_frame hr).1] at h1
    exact h1

/-! ## The step -/

theorem step_engine {s : State} (h : nextAgent s = .engine) : step s = asOutcome (engineStep (popTurn s)) := by
  simp [step, h]

theorem step_host_cons {s : State} {op : HostOp} {rest : List HostOp} (h : nextAgent s = .host)
    (hq : s.host = op :: rest) : step s = hostStep op (takeOp rest s) := by
  simp [step, h, hq]

theorem step_host_nil {s : State} (h : nextAgent s = .host) (hq : s.host = []) : step s = .next (popTurn s) := by
  simp [step, h, hq]

/-- What a step can do: an engine step, an idle turn of the host, a CMD write (the whole command, or its acceptance), or
another host operation. -/
theorem step_cases {s t : State} (h : step s = .next t) :
    (nextAgent s = .engine ∧ engineStep (popTurn s) = .ok t) ∨
    (nextAgent s = .host ∧ s.host = [] ∧ t = popTurn s) ∨
    (nextAgent s = .host ∧ ∃ op rest, s.host = op :: rest ∧
      ((∃ w, cmdWriteWord s.cfg op = some w ∧
        ((s.sched.tail = [] ∧ exec (decodeCommand w) (takeOp rest s) = .next t) ∨
         (s.sched.tail ≠ [] ∧ t = acceptWord w (takeOp rest s)))) ∨
       (cmdWriteWord s.cfg op = none ∧ hostAct op (takeOp rest s) = .ok t))) := by
  cases ha : nextAgent s with
  | engine => rw [step_engine ha, asOutcome_eq_next] at h; exact .inl ⟨rfl, h⟩
  | host =>
    refine .inr ?_
    cases hq : s.host with
    | nil => rw [step_host_nil ha hq] at h; cases h; exact .inl ⟨rfl, rfl, rfl⟩
    | cons op rest =>
      refine .inr ⟨rfl, op, rest, rfl, ?_⟩
      rw [step_host_cons ha hq] at h
      unfold hostStep at h
      split at h
      · rename_i w hw
        refine .inl ⟨w, hw, ?_⟩
        split at h
        · rename_i he
          exact .inl ⟨by simpa using he, h⟩
        · rename_i he
          cases h
          exact .inr ⟨by simpa using he, rfl⟩
      · rename_i hw
        exact .inr ⟨hw, asOutcome_eq_next.1 h⟩

end Sys2Proof.Machine
end

