-- ==== Sys2Proof/Laws/Decoder.lean ====
section
/-! SUPPORT. The decode loop: what reading, one code, one step, the loop and the whole decode can do. -/

namespace Sys2Proof.Machine

/-! ## Reading -/

/-- ReadBits faults only at a ⊥ byte it covers (R94, R172). -/
theorem readBits_error {m : Mem Byte} {off n : Nat} {f : Fault} (h : readBits m off n = .error f) :
    ∃ i, i < n ∧ memGet m ((off + i) / 8) = none ∧ f = .bottomRead .cdata ((off + i) / 8) := by
  induction n generalizing off with
  | zero => cases h
  | succ n ih =>
    rcases bind_eq_error.1 h with h | ⟨b, hb, h⟩
    · cases hg : memGet m (off / 8) with
      | some b => rw [streamBit_ok hg] at h; cases h
      | none => rw [streamBit_error hg] at h; cases h; exact ⟨0, by omega, hg, rfl⟩
    · rcases bind_eq_error.1 h with h | ⟨b, hb, h⟩
      · obtain ⟨i, hi, h1, h2⟩ := ih h
        exact ⟨i + 1, by omega, by rwa [show off + (i + 1) = off + 1 + i by omega], by rwa [show off + (i + 1) = off + 1 + i by omega]⟩
      · cases h

/-- ReadBits depends only on the bytes it covers (R96). -/
theorem readBits_congr {m m' : Mem Byte} {off n : Nat} (h : ∀ i, i < n → memGet m' ((off + i) / 8) = memGet m ((off + i) / 8)) :
    readBits m' off n = readBits m off n := by
  induction n generalizing off with
  | zero => rfl
  | succ n ih =>
    have h0 := h 0 (by omega)
    have : streamBit m' off = streamBit m off := by
      simp only [streamBit, engineRead]; simp at h0; rw [h0]
    rw [readBits, readBits, this, ih fun i hi => by have := h (i+1) (by omega); rwa [show off + (i + 1) = off + 1 + i by omega] at this]

/-- With its stream loaded, every read inside the stream succeeds. -/
theorem readBits_loaded {c : Conf} {s : State} (h : cdataLoaded c s) {off n : Nat} (hn : off + n ≤ 8 * c.clen.toNat) :
    ∃ v, readBits s.cdata off n = .ok v :=
  readBits_ok fun i hi => h _ (by omega)

/-! ## One code -/

/-- Emission, the new entry and the width in one record (R108 to R110). -/
theorem emitBytes_addEntry_growWidth (str : Str) (s : State) (h : s.lzw.outn ≤ pixelCount s.snap) : ∃ m d,
    growWidth (addEntry str (emitBytes str.bytes s)) = { s with idxbuf := m, dict := d, lzw := ⟨grownWidth s, grownCount s, some str, s.lzw.pos, emittedCount s str⟩ } ∧
     (∀ k, memGet m k = emittedCell s str k) ∧ (∀ c, memGet d c = grownEntry s str c) := by
  obtain ⟨m, hm, hg⟩ := emitBytes_spec str.bytes s h
  have hl : str.bytes.length = str.length := by simp [Str.bytes, Str.length]
  rw [hm, growWidth_addEntry]
  refine ⟨m, _, rfl, ?_, ?_⟩
  · intro k
    rw [hg k, hl]
    rfl
  · intro c
    cases hp : s.lzw.p with
    | some p =>
      simp only [grownEntry, hp]
      by_cases hn : s.lzw.n < 4096
      · simp only [hn, if_true, memGet_memSet, and_true, eq_comm]
      · simp only [hn, if_false, and_false]
    | none => simp only [grownEntry, hp]

/-- A DICT or KWKWK code emits and grows by its string (R105, R106). -/
theorem exec_stringCode {i : Instr} {s : State} {str : Str} (h : IsStringCode i s str) : exec i s = asOutcome (emitAndGrow str s) := by
  rcases h with ⟨w, c, rfl, h⟩ | ⟨w, c, p, rfl, h, rfl⟩
  · simp [exec, execLzwDict, dictWork, engineRead, h]
  · simp [exec, execLzwKwkwk, kwkwkWork, h]

/-- What a string code leaves, whatever the state: IDXBUF, DICT, W, N, P and OUTN aside, everything. -/
theorem emitAndGrow_frame {s t : State} {str : Str} (h : emitAndGrow str s = .ok t) :
    t = { s with idxbuf := t.idxbuf, dict := t.dict, lzw := { t.lzw with pos := s.lzw.pos } } ∧ (s.snap.imgCfg.mcs.toNat + 1 ≤ s.lzw.w → s.snap.imgCfg.mcs.toNat + 1 ≤ t.lzw.w) := by
  obtain ⟨m, o, hm⟩ := emitBytes_frame str.bytes s
  unfold emitAndGrow at h
  rw [hm, growWidth_addEntry] at h
  rcases forcedReset_cases h with rfl | ⟨rfl, -⟩
  · refine ⟨rfl, ?_⟩
    simp only [grownWidth]; split <;> simp <;> omega
  · refine ⟨rfl, ?_⟩
    simp

/-! ## The loop -/

/-- What one decode step leaves, and its three kinds: it stops for the count, it stops for the input, or it moves POS by W. -/
theorem lzwStep_frame {s t : State} (h : lzwStep s = .ok t) :
    t = { s with idxbuf := t.idxbuf, dict := t.dict, lzw := t.lzw, status := { s.status with stop := t.status.stop } } ∧
    (s.snap.imgCfg.mcs.toNat + 1 ≤ s.lzw.w → s.snap.imgCfg.mcs.toNat + 1 ≤ t.lzw.w) ∧
    (t.status.stop = .count ∧ t.lzw = s.lzw ∧ pixelCount s.snap ≤ s.lzw.outn ∨ t.status.stop = .input ∧ t.lzw = s.lzw ∨
      s.lzw.pos + s.lzw.w ≤ streamBits s.snap ∧ t.lzw.pos = s.lzw.pos + s.lzw.w ∧
       (t.status.stop = s.status.stop ∨ t.status.stop = .endCode ∨ t.status.stop = .invalid ∧ s.snap.ctrl.strict = true)) := by
  rcases lzwStep_cases h with ⟨h1, rfl⟩ | ⟨-, -, rfl⟩ | ⟨-, hp, c, hc, h⟩
  · exact ⟨rfl, id, .inl ⟨rfl, rfl, h1⟩⟩
  · exact ⟨rfl, id, .inr (.inl ⟨rfl, rfl⟩)⟩
  · rcases codeWork_cases h with ⟨-, rfl⟩ | ⟨-, rfl⟩ | ⟨-, -, hn, str, hs, h⟩ | ⟨-, -, hn, p, hp, h⟩ | ⟨-, -, -, rfl⟩
    · exact ⟨rfl, fun _ => le_refl _, .inr (.inr ⟨hp, rfl, .inl rfl⟩)⟩
    · exact ⟨rfl, id, .inr (.inr ⟨hp, rfl, .inr (.inl rfl)⟩)⟩
    · obtain ⟨e, hw⟩ := emitAndGrow_frame h
      rw [e]
      exact ⟨rfl, hw, .inr (.inr ⟨hp, rfl, .inl rfl⟩)⟩
    · obtain ⟨e, hw⟩ := emitAndGrow_frame h
      rw [e]
      exact ⟨rfl, hw, .inr (.inr ⟨by assumption, rfl, .inl rfl⟩)⟩
    · unfold invalidCode
      split
      · exact ⟨rfl, id, .inr (.inr ⟨hp, rfl, .inr (.inr ⟨rfl, by assumption⟩)⟩)⟩
      · exact ⟨rfl, id, .inr (.inr ⟨hp, rfl, .inl rfl⟩)⟩

/-- What the loop leaves. -/
theorem lzwLoop_frame {n : Nat} {s t : State} (h : lzwLoop n s = .ok t) : t = { s with idxbuf := t.idxbuf, dict := t.dict, lzw := t.lzw, status := { s.status with stop := t.status.stop } } := by
  induction n generalizing s with
  | zero => cases h; rfl
  | succ n ih =>
    rw [lzwLoop] at h
    split at h
    · obtain ⟨u, hu, h⟩ := bind_eq_ok.1 h
      rw [ih h, (lzwStep_frame hu).1]
    · cases h; rfl

/-- What a whole decode leaves: UNDERRUN, STOP, IDXBUF, DICT and the LZW registers aside, everything. -/
theorem lzwDecode_frame {s t : State} (h : lzwDecode s = .ok t) : t = { s with idxbuf := t.idxbuf, dict := t.dict, lzw := t.lzw, status := { s.status with stop := t.status.stop }, warn := { s.warn with underrun := t.warn.underrun } } := by
  obtain ⟨u, hu, h⟩ := bind_eq_ok.1 h
  cases h
  have := lzwLoop_frame hu
  unfold underrunCheck
  split
  · rw [this]; rfl
  · rw [this]; rfl

/-! ## A decode reads and writes the decoder alone -/

/-- `a` with the decoder of `s`: the snapshot, the LZW registers, DICT, IDXBUF, CDATA and STOP. -/
def withDecoder (a s : State) : State :=
  { a with snap := s.snap, lzw := s.lzw, dict := s.dict, idxbuf := s.idxbuf, cdata := s.cdata, status := { a.status with stop := s.status.stop } }

/-- Emission reads and writes the decoder alone. -/
theorem withDecoder_emitBytes (a : State) (l : List Byte) (s : State) : emitBytes l (withDecoder a s) = withDecoder a (emitBytes l s) := by
  induction l generalizing s with
  | nil => rfl
  | cons b l ih =>
    simp only [emitBytes]
    have : (withDecoder a s).lzw = s.lzw ∧ (withDecoder a s).snap = s.snap := ⟨rfl, rfl⟩
    rw [this.1, this.2]
    split
    · exact ih { s with idxbuf := memSet s.idxbuf s.lzw.outn b, lzw := { s.lzw with outn := s.lzw.outn + 1 } }
    · exact ih _

/-- So do the new entry and the width. -/
theorem withDecoder_addEntry (a : State) (str : Str) (s : State) : growWidth (addEntry str (withDecoder a s)) = withDecoder a (growWidth (addEntry str s)) := by
  rw [growWidth_addEntry, growWidth_addEntry]; rfl

/-- So does the forced reset. -/
theorem withDecoder_forcedReset (a s : State) : forcedReset (withDecoder a s) = (forcedReset s).map (withDecoder a) := by
  unfold forcedReset
  have e1 : (withDecoder a s).snap = s.snap := rfl
  have e2 : (withDecoder a s).lzw = s.lzw := rfl
  have e3 : (withDecoder a s).cdata = s.cdata := rfl
  rw [e1, e2, e3]
  by_cases h1 : s.snap.ctrl.earlyReset = true ∧ s.lzw.w = Config.wMax ∧ s.lzw.n = Config.dMax
  · rw [if_pos h1, if_pos h1]
    split
    · cases readBits s.cdata s.lzw.pos 12 with
      | error e => rfl
      | ok v => simp only [Except_bind_ok]; split <;> rfl
    · rfl
  · rw [if_neg h1, if_neg h1]; rfl

/-- So does a string code. -/
theorem withDecoder_emitAndGrow (a : State) (str : Str) (s : State) : emitAndGrow str (withDecoder a s) = (emitAndGrow str s).map (withDecoder a) := by
  unfold emitAndGrow
  rw [withDecoder_emitBytes, withDecoder_addEntry, withDecoder_forcedReset]

/-- So does a decode step. -/
theorem withDecoder_lzwStep (a s : State) : lzwStep (withDecoder a s) = (lzwStep s).map (withDecoder a) := by
  unfold lzwStep
  have e1 : (withDecoder a s).snap = s.snap := rfl
  have e2 : (withDecoder a s).lzw = s.lzw := rfl
  have e3 : (withDecoder a s).cdata = s.cdata := rfl
  rw [e1, e2, e3]
  split
  · rfl
  · split
    · rfl
    · cases readBits s.cdata s.lzw.pos s.lzw.w with
      | error e => rfl
      | ok c =>
        simp only [Except_bind_ok]
        have : advancePos (withDecoder a s) = withDecoder a (advancePos s) := rfl
        rw [this]
        unfold codeWork
        have e1 : (withDecoder a (advancePos s)).snap = (advancePos s).snap := rfl
        have e2 : (withDecoder a (advancePos s)).lzw = (advancePos s).lzw := rfl
        rw [e1, e2]
        split
        · rfl
        · split
          · rfl
          · split
            · unfold dictWork
              have e3 : (withDecoder a (advancePos s)).dict = (advancePos s).dict := rfl
              rw [e3]
              cases engineRead .dict (advancePos s).dict c with
              | error e => rfl
              | ok str => exact withDecoder_emitAndGrow _ _ _
            · split
              · unfold kwkwkWork
                rw [e2]
                split
                · exact withDecoder_emitAndGrow _ _ _
                · unfold invalidCode; rw [e1]; split <;> rfl
              · unfold invalidCode; rw [e1]; split <;> rfl

/-- So does the loop. -/
theorem withDecoder_lzwLoop (a : State) (n : Nat) (s : State) : lzwLoop n (withDecoder a s) = (lzwLoop n s).map (withDecoder a) := by
  induction n generalizing s with
  | zero => rfl
  | succ n ih =>
    simp only [lzwLoop]
    have : (withDecoder a s).status.stop = s.status.stop := rfl
    rw [this]
    split
    · rw [withDecoder_lzwStep]
      cases lzwStep s with
      | error e => rfl
      | ok t => exact ih t
    · rfl

/-- Two decodes with one snapshot, one CDATA and one STOP run alike, whatever the rest of the states is. -/
theorem lzwLoop_lzwStart_congr {s s' : State} (h1 : s'.snap = s.snap) (h2 : s'.cdata = s.cdata) (h3 : s'.status.stop = s.status.stop) :
   lzwLoop (lzwBound s'.snap) (lzwStart s') = (lzwLoop (lzwBound s.snap) (lzwStart s)).map (withDecoder s') := by
  rw [← withDecoder_lzwLoop, h1]
  congr 1
  unfold lzwStart dictReset withDecoder
  simp only [h1, h2, ← h3]

/-- The invariants of a decode speak of the snapshot, the LZW registers, DICT and IDXBUF alone. -/
theorem lzwInv_congr {s t : State} (h : LzwInv s) (h1 : t.snap = s.snap) (h2 : t.lzw = s.lzw) (h3 : t.dict = s.dict)
    (h4 : t.idxbuf = s.idxbuf) : LzwInv t where
  mcs := by rw [h1]; exact h.mcs
  width := by rw [h1, h2]; exact h.width
  count := by rw [h1, h2]; exact h.count
  fits := by rw [h2]; exact h.fits
  least := by rw [h1, h2]; exact h.least
  defined := by rw [h1, h2, h3]; exact h.defined
  literal := by rw [h1, h3]; exact h.literal
  longer := by rw [h1, h3]; exact h.longer
  prefixed := by rw [h1, h3]; exact h.prefixed
  prevEntry := by rw [h1, h2, h3]; exact h.prevEntry
  dictBytes := by rw [h1, h3]; exact h.dictBytes
  prevBytes := by rw [h1, h2]; exact h.prevBytes
  outn := by rw [h1, h2]; exact h.outn
  output := by rw [h1, h2, h4]; exact h.output
  written := by rw [h2, h4]; exact h.written
  pos := by rw [h1, h2]; exact h.pos
  entryLen := by rw [h2, h3]; exact h.entryLen
  prevLen := by rw [h1, h2]; exact h.prevLen

end Sys2Proof.Machine
end

