-- ==== Sys2Proof/Laws/Frame.lean ====
section
/-! SUPPORT. Reordering, seeding, painting and emitting: what each cell holds afterwards. -/

namespace Sys2Proof.Machine

/-! ## Reordering -/

/-- Moving cells keeps the canonical form. -/
theorem moveCells_wf {c : Conf} {idx m : Mem Byte} {size : Nat} {ks : List Nat} (hw : memWf size m = true) (hk : ∀ k ∈ ks, destCell c k < size) :
    memWf size (moveCells c idx ks m) = true := by
  induction ks generalizing m with
  | nil => exact hw
  | cons k ks ih =>
    exact ih (memWf_memPut hw (hk k (by simp)) _) fun k' h' => hk k' (by simp [h'])

/-- A cell that is no destination keeps its value. -/
theorem moveCells_other {c : Conf} {idx m : Mem Byte} {size : Nat} {ks : List Nat} (hw : memWf size m = true) (hk : ∀ k ∈ ks, destCell c k < size) {j : Nat} (hj : ∀ k ∈ ks, destCell c k ≠ j) :
    memGet (moveCells c idx ks m) j = memGet m j := by
  induction ks generalizing m with
  | nil => rfl
  | cons k ks ih =>
    rw [moveCells, ih (memWf_memPut hw (hk k (by simp)) _) (fun k' h' => hk k' (by simp [h'])) (fun k' h' => hj k' (by simp [h'])), memGet_memPut hw, if_neg (hj k (by simp))]

/-- A cell moved once to a destination of its own is found there (R118). -/
theorem moveCells_moved {c : Conf} {idx m : Mem Byte} {size : Nat} {ks : List Nat} (hw : memWf size m = true) (hk : ∀ k ∈ ks, destCell c k < size)
   (hn : ks.Nodup) (hi : ∀ a ∈ ks, ∀ b ∈ ks, destCell c a = destCell c b → a = b) {k : Nat} (h : k ∈ ks) :
    memGet (moveCells c idx ks m) (destCell c k) = memGet idx k := by
  induction ks generalizing m with
  | nil => simp at h
  | cons a ks ih =>
    have hw' := memWf_memPut hw (hk a (by simp)) (memGet idx a)
    rcases List.mem_cons.1 h with rfl | h
    · rw [moveCells, moveCells_other hw' (fun k' h' => hk k' (by simp [h'])), memGet_memPut hw, if_pos rfl]
      intro k' h' e
      have := hi k' (by simp [h']) k (by simp) e
      subst this
      exact (List.nodup_cons.1 hn).1 h'
    · exact ih hw' (fun k' h' => hk k' (by simp [h'])) (List.nodup_cons.1 hn).2 (fun a ha b hb => hi a (by simp [ha]) b (by simp [hb])) h

/-! ## Background and table reads -/

/-- The background is what R128 says when its table entry is loaded. -/
theorem background_of_some {s : State} {bg} (h : backgroundPixel s.snap s = some bg) : background s = .ok bg := by
  unfold backgroundPixel at h
  unfold background
  simp only at h ⊢
  split at h
  · rename_i hl
    rw [if_pos hl]
    obtain ⟨t, ht, rfl⟩ := Option.map_eq_some_iff.1 h
    have : tableRead s s.snap.bgIdx.toNat = .ok t := by
      unfold tableColour at ht; unfold tableRead
      cases e : tableSel s.snap with
      | localTable => simp only [e] at ht; exact engineRead_eq_ok.2 ht
      | globalTable => simp only [e] at ht; exact engineRead_eq_ok.2 ht
      | none => simp only [e] at ht; cases ht
    rw [this]; rfl
  · rename_i hl
    rw [if_neg hl]; cases h; rfl

/-- A ⊥ background entry is the fault of R172. -/
theorem background_of_none {s : State} (h : backgroundPixel s.snap s = none) : (tableSel s.snap = .localTable ∧ background s = .error (.bottomRead .lct s.snap.bgIdx.toNat)) ∨
      (tableSel s.snap = .globalTable ∧ background s = .error (.bottomRead .gct s.snap.bgIdx.toNat)) := by
  unfold backgroundPixel at h
  unfold background
  simp only at h ⊢
  split at h
  · rename_i hl
    rw [if_pos hl]
    have ht := Option.map_eq_none_iff.1 h
    unfold tableColour at ht
    unfold tableLen at hl
    cases e : tableSel s.snap with
    | none => simp [e] at hl
    | localTable => simp only [e] at ht; left; refine ⟨rfl, ?_⟩; simp only [tableRead, e]; rw [engineRead_eq_error.2 ⟨ht, rfl⟩]; rfl
    | globalTable => simp only [e] at ht; right; refine ⟨rfl, ?_⟩; simp only [tableRead, e]; rw [engineRead_eq_error.2 ⟨ht, rfl⟩]; rfl
  · cases h

/-- A table read that succeeds gives the table's colour. -/
theorem tableColour_of_tableRead {s : State} {i : Nat} {t : Rgb} (hi : i < tableLen s.snap) (h : tableRead s i = .ok t) : tableColour s.snap s i = some t := by
  unfold tableRead at h; unfold tableColour
  cases e : tableSel s.snap with
  | none => simp [tableLen, e] at hi
  | localTable => simp only [e] at h; exact engineRead_eq_ok.1 h
  | globalTable => simp only [e] at h; exact engineRead_eq_ok.1 h

/-! ## Canvas cells -/

/-- Inside, as four comparisons (R134). -/
theorem inside_iff {c : Conf} {x y : Nat} : inside c x y = true ↔ c.left.toNat ≤ x ∧ x < c.left.toNat + c.iw.toNat ∧ c.top.toNat ≤ y ∧ y < c.top.toNat + c.ih.toNat := by
  simp [inside, and_assoc]

/-- The cell of pixel (x, y). -/
theorem cell_mod_div {c : Conf} {x y : Nat} (hx : x < c.sw.toNat) (hy : y < c.sh.toNat) : (y * c.sw.toNat + x) % c.sw.toNat = x ∧ (y * c.sw.toNat + x) / c.sw.toNat = y ∧ y * c.sw.toNat + x < canvasCount c := by
  refine ⟨?_, ?_, ?_⟩
  · rw [Nat.mul_comm, Nat.mul_add_mod, Nat.mod_eq_of_lt hx]
  · rw [Nat.mul_comm, Nat.mul_add_div (by omega), Nat.div_eq_of_lt hx]; omega
  · have : (y + 1) * c.sw.toNat ≤ c.sh.toNat * c.sw.toNat := Nat.mul_le_mul_right _ hy
    rw [Nat.add_mul] at this
    unfold canvasCount
    rw [Nat.mul_comm c.sw.toNat]
    omega

/-- The pixel of a cell. -/
theorem cell_of_lt {c : Conf} {i : Nat} (h : i < canvasCount c) : i % c.sw.toNat < c.sw.toNat ∧ i / c.sw.toNat < c.sh.toNat ∧ (i / c.sw.toNat) * c.sw.toNat + i % c.sw.toNat = i := by
  have hw : 0 < c.sw.toNat := by
    rcases Nat.eq_zero_or_pos c.sw.toNat with h0 | h0
    · simp [canvasCount, h0] at h
    · exact h0
  refine ⟨Nat.mod_lt _ hw, ?_, by rw [Nat.mul_comm]; exact Nat.div_add_mod _ _⟩
  rw [Nat.div_lt_iff_lt_mul hw, Nat.mul_comm]; exact h

/-- RBUF cells that R135 has consumed before canvas cell `k` (R137). -/
def consumed (c : Conf) (k : Nat) : Nat :=
  min (k / c.sw.toNat - c.top.toNat) c.ih.toNat * clippedWidth c +
    (if c.top.toNat ≤ k / c.sw.toNat ∧ k / c.sw.toNat < c.top.toNat + c.ih.toNat then
      min (k % c.sw.toNat) (c.left.toNat + c.iw.toNat) - c.left.toNat else 0)

/-- None before the first. -/
theorem consumed_zero {c : Conf} : consumed c 0 = 0 := by
  simp [consumed]

/-- One more past a cell inside the rectangle. -/
theorem consumed_succ {c : Conf} {k : Nat} (hk : k < canvasCount c) :
    consumed c (k + 1) = consumed c k + if inside c (k % c.sw.toNat) (k / c.sw.toNat) then 1 else 0 := by
  have hw : 0 < c.sw.toNat := by
    rcases Nat.eq_zero_or_pos c.sw.toNat with h0 | h0
    · simp [canvasCount, h0] at hk
    · exact h0
  have hx := Nat.mod_lt k hw
  by_cases hl : k % c.sw.toNat + 1 < c.sw.toNat
  · have e1 : (k + 1) % c.sw.toNat = k % c.sw.toNat + 1 := by
      rw [Nat.add_mod, Nat.mod_eq_of_lt (a := 1) (by omega), Nat.mod_eq_of_lt hl]
    have e2 : (k + 1) / c.sw.toNat = k / c.sw.toNat := by
      rw [Nat.succ_div, if_neg, Nat.add_zero]
      intro hd
      have := Nat.mod_eq_zero_of_dvd hd
      omega
    unfold consumed
    rw [e1, e2]
    by_cases hi : inside c (k % c.sw.toNat) (k / c.sw.toNat) = true
    · rw [if_pos hi]
      rw [inside_iff] at hi
      rw [if_pos ⟨hi.2.2.1, hi.2.2.2⟩, if_pos ⟨hi.2.2.1, hi.2.2.2⟩]
      omega
    · rw [if_neg hi]
      rw [inside_iff] at hi
      by_cases hr : c.top.toNat ≤ k / c.sw.toNat ∧ k / c.sw.toNat < c.top.toNat + c.ih.toNat
      · rw [if_pos hr, if_pos hr]; omega
      · rw [if_neg hr, if_neg hr]
  · have e2 : (k + 1) / c.sw.toNat = k / c.sw.toNat + 1 := by
      rw [Nat.succ_div, if_pos]
      have h2 := Nat.div_add_mod k c.sw.toNat
      exact ⟨k / c.sw.toNat + 1, by rw [Nat.mul_add]; omega⟩
    have e1 : (k + 1) % c.sw.toNat = 0 := by
      have h1 := Nat.div_add_mod (k + 1) c.sw.toNat
      have h2 := Nat.div_add_mod k c.sw.toNat
      rw [e2, Nat.mul_add] at h1
      omega
    unfold consumed
    rw [e1, e2]
    have hcw : clippedWidth c = min c.sw.toNat (c.left.toNat + c.iw.toNat) - c.left.toNat := by
      unfold clippedWidth; split <;> omega
    by_cases hr : c.top.toNat ≤ k / c.sw.toNat ∧ k / c.sw.toNat < c.top.toNat + c.ih.toNat
    · rw [if_pos hr]
      have : min (k / c.sw.toNat + 1 - c.top.toNat) c.ih.toNat = min (k / c.sw.toNat - c.top.toNat) c.ih.toNat + 1 := by omega
      rw [this, Nat.add_mul, hcw]
      have h0 : (if c.top.toNat ≤ k / c.sw.toNat + 1 ∧ k / c.sw.toNat + 1 < c.top.toNat + c.ih.toNat then min 0 (c.left.toNat + c.iw.toNat) - c.left.toNat else 0) = 0 := by split <;> omega
      rw [h0]
      by_cases hi : inside c (k % c.sw.toNat) (k / c.sw.toNat) = true
      · rw [if_pos hi]; rw [inside_iff] at hi; omega
      · rw [if_neg hi]; rw [inside_iff] at hi; omega
    · rw [if_neg hr]
      have : min (k / c.sw.toNat + 1 - c.top.toNat) c.ih.toNat = min (k / c.sw.toNat - c.top.toNat) c.ih.toNat := by omega
      rw [this]
      have hi : ¬ inside c (k % c.sw.toNat) (k / c.sw.toNat) = true := by rw [inside_iff]; omega
      rw [if_neg hi]
      have h0 : (if c.top.toNat ≤ k / c.sw.toNat + 1 ∧ k / c.sw.toNat + 1 < c.top.toNat + c.ih.toNat then min 0 (c.left.toNat + c.iw.toNat) - c.left.toNat else 0) = 0 := by split <;> omega
      rw [h0]

/-- At a cell inside the rectangle it is the closed form of R137. -/
theorem consumed_inside {c : Conf} {k : Nat} (h : inside c (k % c.sw.toNat) (k / c.sw.toNat) = true) : consumed c k = sourceCell c (k % c.sw.toNat) (k / c.sw.toNat) := by
  rw [inside_iff] at h
  unfold consumed sourceCell
  rw [if_pos ⟨h.2.2.1, h.2.2.2⟩, Nat.min_eq_left (by omega), Nat.min_eq_left (by omega)]

/-- A pixel inside the rectangle receives a cell below E (R136, R137). -/
theorem sourceCell_lt {c : Conf} {x y : Nat} (hx : x < c.sw.toNat) (h : inside c x y = true) :
    sourceCell c x y < pixelCount c := by
  rw [inside_iff] at h
  unfold sourceCell pixelCount clippedWidth
  rw [if_pos (by omega)]
  have hcol : x - c.left.toNat < min c.iw.toNat (c.sw.toNat - c.left.toNat) := by omega
  have hrow := Nat.mul_le_mul_right (min c.iw.toNat (c.sw.toNat - c.left.toNat))
    (show y - c.top.toNat + 1 ≤ c.ih.toNat by omega)
  have hclip : c.ih.toNat * min c.iw.toNat (c.sw.toNat - c.left.toNat) ≤ c.ih.toNat * c.iw.toNat :=
    Nat.mul_le_mul_left _ (by omega)
  rw [Nat.add_mul] at hrow
  rw [Nat.mul_comm c.iw.toNat]
  omega

/-! ## Painting -/

/-- A cell painted with RBUF cell `j` over what it held (R135). -/
def paintedOver (c : Conf) (s : State) (j : Nat) (seed : Option Rgba) : Option Rgba :=
  match memGet s.rbuf j with
  | none => seed
  | some v => if resolveTrans c = some v then seed else if tableLen c ≤ v.toNat then seed else (tableColour c s v.toNat).map fun t => ⟨t.r, t.g, t.b, 255⟩

/-- Canvas cell `i` after Paint, over what it held. -/
def paintedCell (c : Conf) (s : State) (i : Nat) (seed : Option Rgba) : Option Rgba :=
  if inside c (i % c.sw.toNat) (i / c.sw.toNat) then paintedOver c s (consumed c i) seed else seed

/-- Painting one cell: the canvas and the warnings (R135). -/
theorem paintIndex_spec {k j : Nat} {s t : State} (h : paintIndex k (memGet s.rbuf j) s = .ok t) :
   (∀ i, memGet t.canvas i = if i = k then paintedOver s.snap s j (memGet s.canvas k) else memGet s.canvas i) ∧
   (t.warn.exhaust = true ↔ s.warn.exhaust = true ∨ memGet s.rbuf j = none) ∧
   (t.warn.badidx = true ↔ s.warn.badidx = true ∨ ∃ v, memGet s.rbuf j = some v ∧ resolveTrans s.snap ≠ some v ∧ tableLen s.snap ≤ v.toNat) ∧ t.warn.underrun = s.warn.underrun := by
  unfold paintedOver
  rcases paintIndex_cases h with ⟨hv, rfl⟩ | ⟨b, hv, h1, rfl⟩ | ⟨b, hv, h1, h2, rfl⟩ | ⟨b, c, hv, h1, h2, h3, rfl⟩
  · refine ⟨fun i => ?_, by simp [hv, warnExhaust], by simp [hv, warnExhaust], rfl⟩
    simp only [hv]; split
    · subst_vars; rfl
    · rfl
  · refine ⟨fun i => ?_, by simp [hv], by simp [hv, h1], rfl⟩
    simp only [hv, if_pos h1]; split
    · subst_vars; rfl
    · rfl
  · refine ⟨fun i => ?_, by simp [hv, warnBadidx], by simp [hv, warnBadidx, h1, h2], rfl⟩
    simp only [hv, if_neg h1, if_pos h2]; split
    · subst_vars; rfl
    · rfl
  · refine ⟨fun i => ?_, by simp [hv], by simp [hv]; omega, rfl⟩
    have h2' : ¬ tableLen s.snap ≤ b.toNat := by omega
    simp only [hv, if_neg h1, if_neg h2', memGet_memSet, tableColour_of_tableRead h2 h3, Option.map_some]
    simp only [eq_comm]

/-- Painting a run of cells: the canvas and the warnings (R135). -/
theorem paintFrom_spec {n k : Nat} {s t : State} (hn : k + n ≤ canvasCount s.snap) (h : paintFrom n k (consumed s.snap k) s = .ok t) :
   (∀ i, memGet t.canvas i = if k ≤ i ∧ i < k + n then paintedCell s.snap s i (memGet s.canvas i) else memGet s.canvas i) ∧
   (t.warn.exhaust = true ↔ s.warn.exhaust = true ∨ ∃ i, k ≤ i ∧ i < k + n ∧ inside s.snap (i % s.snap.sw.toNat) (i / s.snap.sw.toNat) = true ∧ memGet s.rbuf (consumed s.snap i) = none) ∧
   (t.warn.badidx = true ↔ s.warn.badidx = true ∨ ∃ i v, k ≤ i ∧ i < k + n ∧ inside s.snap (i % s.snap.sw.toNat) (i / s.snap.sw.toNat) = true ∧ memGet s.rbuf (consumed s.snap i) = some v ∧ resolveTrans s.snap ≠ some v ∧ tableLen s.snap ≤ v.toNat) ∧ t.warn.underrun = s.warn.underrun := by
  induction n generalizing k s with
  | zero =>
    cases h
    refine ⟨fun i => by rw [if_neg (by omega)], ⟨.inl, ?_⟩, ⟨.inl, ?_⟩, rfl⟩
    · rintro (h | ⟨i, h1, h2, -⟩)
      · exact h
      · omega
    · rintro (h | ⟨i, v, h1, h2, -⟩)
      · exact h
      · omega
  | succ n ih =>
    obtain ⟨⟨u, j⟩, hr, h⟩ := bind_eq_ok.1 h
    obtain ⟨f, hj⟩ := paintCell_frame hr
    simp only at f hj h
    have hsn : u.snap = s.snap := by rw [f]
    have hrb : u.rbuf = s.rbuf := by rw [f]
    have hov : ∀ c i seed, paintedCell c u i seed = paintedCell c s i seed := by
      intro c i seed
      unfold paintedCell paintedOver tableColour
      rw [f]
    have hj' : j = consumed u.snap (k + 1) := by
      rw [hj, hsn, consumed_succ (by omega)]
      split <;> rfl
    rw [hj'] at h
    obtain ⟨i1, i2, i3, i4⟩ := ih (by rw [hsn]; omega) h
    rw [hsn, hrb] at i2 i3
    rw [hsn] at i1
    unfold paintCell at hr
    by_cases hin : inside s.snap (k % s.snap.sw.toNat) (k / s.snap.sw.toNat) = true
    · rw [if_pos hin] at hr
      obtain ⟨u', hu, e⟩ := bind_eq_ok.1 hr
      cases e
      obtain ⟨p1, p2, p3, p4⟩ := paintIndex_spec hu
      refine ⟨fun i => ?_, ?_, ?_, by rw [i4, p4]⟩
      · rw [i1, hov, p1 i]
        by_cases hik : i = k
        · subst hik
          rw [if_neg (by omega), if_pos rfl, if_pos (by omega), paintedCell, if_pos hin]
        · rw [if_neg hik]
          by_cases h2 : k + 1 ≤ i ∧ i < k + 1 + n
          · rw [if_pos h2, if_pos (by omega)]
          · rw [if_neg h2, if_neg (by omega)]
      · rw [i2, p2]
        constructor
        · rintro ((h | h) | ⟨i, a, b, c⟩)
          · exact .inl h
          · exact .inr ⟨k, by omega, by omega, hin, h⟩
          · exact .inr ⟨i, by omega, by omega, c⟩
        · rintro (h | ⟨i, a, b, c, d⟩)
          · exact .inl (.inl h)
          · by_cases hik : i = k
            · subst hik; exact .inl (.inr d)
            · exact .inr ⟨i, by omega, by omega, c, d⟩
      · rw [i3, p3]
        constructor
        · rintro ((h | ⟨v, h⟩) | ⟨i, v, a, b, c⟩)
          · exact .inl h
          · exact .inr ⟨k, v, by omega, by omega, hin, h⟩
          · exact .inr ⟨i, v, by omega, by omega, c⟩
        · rintro (h | ⟨i, v, a, b, c, d⟩)
          · exact .inl (.inl h)
          · by_cases hik : i = k
            · subst hik; exact .inl (.inr ⟨v, d⟩)
            · exact .inr ⟨i, v, by omega, by omega, c, d⟩
    · rw [if_neg hin] at hr
      cases hr
      refine ⟨fun i => ?_, ?_, ?_, i4⟩
      · rw [i1]
        by_cases hik : i = k
        · subst hik
          rw [if_neg (by omega), if_pos (by omega), paintedCell, if_neg hin]
        · by_cases h2 : k + 1 ≤ i ∧ i < k + 1 + n
          · rw [if_pos h2, if_pos (by omega)]
          · rw [if_neg h2, if_neg (by omega)]
      · rw [i2]
        constructor
        · rintro (h | ⟨i, a, b, c⟩)
          · exact .inl h
          · exact .inr ⟨i, by omega, by omega, c⟩
        · rintro (h | ⟨i, a, b, c, d⟩)
          · exact .inl h
          · by_cases hik : i = k
            · subst hik; exact absurd c hin
            · exact .inr ⟨i, by omega, by omega, c, d⟩
      · rw [i3]
        constructor
        · rintro (h | ⟨i, v, a, b, c⟩)
          · exact .inl h
          · exact .inr ⟨i, v, by omega, by omega, c⟩
        · rintro (h | ⟨i, v, a, b, c, d⟩)
          · exact .inl h
          · by_cases hik : i = k
            · subst hik; exact absurd c hin
            · exact .inr ⟨i, v, by omega, by omega, c, d⟩

/-- Painting leaves no cell empty that held a value. -/
theorem paintFrom_isSome {n k j : Nat} {s t : State} (h : paintFrom n k j s = .ok t) {i : Nat} (hi : (memGet s.canvas i).isSome = true) : (memGet t.canvas i).isSome = true := by
  induction n generalizing k j s with
  | zero => cases h; exact hi
  | succ n ih =>
    obtain ⟨⟨u, j'⟩, hr, h⟩ := bind_eq_ok.1 h
    refine ih h ?_
    unfold paintCell at hr
    split at hr
    · obtain ⟨u', hu, e⟩ := bind_eq_ok.1 hr
      cases e
      rcases paintIndex_cases hu with ⟨-, rfl⟩ | ⟨b, -, -, rfl⟩ | ⟨b, -, -, -, rfl⟩ | ⟨b, c, -, -, -, -, rfl⟩
      · exact hi
      · exact hi
      · exact hi
      · simp only [memGet_memSet]; split
        · rfl
        · exact hi
    · cases hr; exact hi

/-! ## Seeding, and the whole frame -/

/-- Every canvas cell after Seed (R129). -/
theorem seedBy_spec {s t : State} (h : seedBy s.frameInfo.lastDisp s = .ok t) : (∀ k, k < canvasCount s.snap → memGet t.canvas k = seedPixel s.snap s k) ∧ (∀ k, canvasCount s.snap ≤ k → memGet t.canvas k = memGet s.canvas k) ∧
   ∀ k, k < canvasCount s.snap → (memGet t.canvas k).isSome = true := by
  have hb : seedBackground s = .ok t → (∀ k, memGet t.canvas k = if k < canvasCount s.snap then backgroundPixel s.snap s else memGet s.canvas k) ∧ ∀ k, k < canvasCount s.snap → (memGet t.canvas k).isSome = true := by
    intro h
    obtain ⟨bg, hbg, h⟩ := bind_eq_ok.1 h
    cases h
    have : backgroundPixel s.snap s = some bg := by
      cases e : backgroundPixel s.snap s with
      | none => rcases background_of_none e with ⟨-, h⟩ | ⟨-, h⟩ <;> rw [h] at hbg <;> cases hbg
      | some b => have := background_of_some e; rw [this] at hbg; cases hbg; rfl
    rw [this]
    exact ⟨fun k => memGet_memFill _ _ _ _, fun k hk => by rw [memGet_memFill, if_pos hk]; rfl⟩
  have hc : ∀ {name src}, seedCopy name src s = .ok t → (∀ k, memGet t.canvas k = if k < canvasCount s.snap then memGet src k else memGet s.canvas k) ∧ ∀ k, k < canvasCount s.snap → (memGet t.canvas k).isSome = true := by
    intro name src h
    unfold seedCopy at h
    split at h
    · cases h
    · rename_i hf
      cases h
      exact ⟨fun k => memGet_memCopy _ _ _ _, fun k hk => by rw [memGet_memCopy, if_pos hk]; exact firstBottom_eq_none.1 hf k hk⟩
  unfold seedBy seedPrevious seedKept at h
  unfold seedPixel
  split at h
  · rename_i h1
    obtain ⟨a, b⟩ := hc h
    exact ⟨fun k hk => by rw [if_pos h1, a, if_pos hk], fun k hk => by rw [a, if_neg (by omega)], b⟩
  · rename_i h1
    split at h
    · rename_i h3
      split at h
      · rename_i hv
        obtain ⟨a, b⟩ := hc h
        exact ⟨fun k hk => by rw [if_neg h1, if_pos ⟨h3, hv⟩, a, if_pos hk], fun k hk => by rw [a, if_neg (by omega)], b⟩
      · rename_i hv
        obtain ⟨a, b⟩ := hb h
        exact ⟨fun k hk => by rw [if_neg h1, if_neg (by simp [hv]), a, if_pos hk], fun k hk => by rw [a, if_neg (by omega)], b⟩
    · rename_i h3
      obtain ⟨a, b⟩ := hb h
      exact ⟨fun k hk => by rw [if_neg h1, if_neg (fun h => h3 h.1), a, if_pos hk], fun k hk => by rw [a, if_neg (by omega)], b⟩

/-- OUT after Emit (R138). -/
theorem memGet_emitFrame_prev (v : State) (k : Nat) : memGet (emitFrame v).prev k = if k < canvasCount v.snap then memGet v.canvas k else memGet v.prev k := memGet_memCopy _ _ _ _

/-- A whole Compose: the canvas that Emit copies, and the warnings (R124). -/
theorem composeFrame_spec {s u : State} (h : composeFrame s = .ok u) : ∃ v, u = emitFrame v ∧ v = { s with canvas := v.canvas, warn := v.warn } ∧
    (∀ k, k < canvasCount s.snap → memGet v.canvas k = paintedCell s.snap s k (seedPixel s.snap s k) ∧ (memGet v.canvas k).isSome = true) ∧
    (∀ k, canvasCount s.snap ≤ k → memGet v.canvas k = memGet s.canvas k) ∧
    (v.warn.exhaust = true ↔ s.warn.exhaust = true ∨ ∃ i, i < canvasCount s.snap ∧ inside s.snap (i % s.snap.sw.toNat) (i / s.snap.sw.toNat) = true ∧ memGet s.rbuf (consumed s.snap i) = none) ∧
   (v.warn.badidx = true ↔ s.warn.badidx = true ∨ ∃ i w, i < canvasCount s.snap ∧ inside s.snap (i % s.snap.sw.toNat) (i / s.snap.sw.toNat) = true ∧ memGet s.rbuf (consumed s.snap i) = some w ∧ resolveTrans s.snap ≠ some w ∧ tableLen s.snap ≤ w.toNat) ∧ v.warn.underrun = s.warn.underrun := by
  obtain ⟨bg, hbg, h⟩ := bind_eq_ok.1 h
  obtain ⟨t, ht, h⟩ := bind_eq_ok.1 h
  obtain ⟨v, hv, h⟩ := bind_eq_ok.1 h
  cases h
  have ft := seedBy_frame ht
  obtain ⟨s1, s2, s3⟩ := seedBy_spec ht
  have hsn : t.snap = s.snap := by rw [ft]
  have hv' : paintFrom (canvasCount t.snap) 0 (consumed t.snap 0) t = .ok v := by rw [consumed_zero]; exact hv
  obtain ⟨p1, p2, p3, p4⟩ := paintFrom_spec (by omega) hv'
  have fv := paintFrom_frame hv'
  have hov : ∀ c i seed, paintedCell c t i seed = paintedCell c s i seed := by
    intro c i seed
    unfold paintedCell paintedOver tableColour
    rw [ft]
  have hrb : t.rbuf = s.rbuf := by rw [ft]
  have hw : t.warn = s.warn := by rw [ft]
  rw [hsn] at p1 p2 p3
  rw [hrb, hw] at p2 p3
  refine ⟨v, rfl, by rw [fv, ft], fun k hk => ⟨?_, paintFrom_isSome hv' (s3 k hk)⟩, fun k hk => ?_, ?_, ?_, by rw [p4, hw]⟩
  · rw [p1, if_pos (by omega), hov, s1 k hk]
  · rw [p1, if_neg (by omega), s2 k hk]
  · simpa using p2
  · simpa using p3

/-! ## A composition reads and writes the compositor alone -/

/-- `a` with the compositor of `s`: the snapshot, the tables, RBUF, the three canvases, the frame registers and WARN. -/
def withCompositor (a s : State) : State :=
  { a with snap := s.snap, gct := s.gct, lct := s.lct, rbuf := s.rbuf, canvas := s.canvas, prev := s.prev, keep := s.keep, frameInfo := s.frameInfo, frameNo := s.frameNo, dly := s.dly, warn := s.warn }

/-- A table read depends on the compositor alone. -/
theorem withCompositor_tableRead (a s : State) (i : Nat) : tableRead (withCompositor a s) i = tableRead s i := rfl

/-- So does the background. -/
theorem withCompositor_background (a s : State) : background (withCompositor a s) = background s := rfl

/-- Seeding reads and writes the compositor alone. -/
theorem withCompositor_seedBackground (a s : State) : seedBackground (withCompositor a s) = (seedBackground s).map (withCompositor a) := by
  unfold seedBackground
  rw [withCompositor_background]
  cases background s <;> rfl

/-- So does seeding by a copy. -/
theorem withCompositor_seedCopy (n src) (a s : State) : seedCopy n src (withCompositor a s) = (seedCopy n src s).map (withCompositor a) := by
  unfold seedCopy
  have : (withCompositor a s).snap = s.snap := rfl
  rw [this]
  split <;> rfl

/-- So does seeding by a code. -/
theorem withCompositor_seedBy (a s : State) (l) : seedBy l (withCompositor a s) = (seedBy l s).map (withCompositor a) := by
  unfold seedBy seedPrevious seedKept
  have e1 : (withCompositor a s).prev = s.prev := rfl
  have e2 : (withCompositor a s).keep = s.keep := rfl
  have e3 : (withCompositor a s).frameInfo = s.frameInfo := rfl
  rw [e1, e2, e3, withCompositor_seedCopy, withCompositor_seedCopy, withCompositor_seedBackground]
  split
  · rfl
  · split
    · split <;> rfl
    · rfl

/-- So does painting with one cell. -/
theorem withCompositor_paintIndex (a s : State) (k v) : paintIndex k v (withCompositor a s) = (paintIndex k v s).map (withCompositor a) := by
  unfold paintIndex
  cases v with
  | none => rfl
  | some v =>
    have e1 : (withCompositor a s).snap = s.snap := rfl
    simp only [e1, withCompositor_tableRead]
    split
    · rfl
    · split
      · rfl
      · cases tableRead s v.toNat <;> rfl

/-- So does one cell of Paint. -/
theorem withCompositor_paintCell (a s : State) (k j) : paintCell k j (withCompositor a s) = (paintCell k j s).map (fun r => (withCompositor a r.1, r.2)) := by
  unfold paintCell
  have e1 : (withCompositor a s).snap = s.snap := rfl
  have e2 : (withCompositor a s).rbuf = s.rbuf := rfl
  rw [e1, e2, withCompositor_paintIndex]
  split
  · cases paintIndex k (memGet s.rbuf j) s <;> rfl
  · rfl

/-- So does Paint. -/
theorem withCompositor_paintFrom (a s : State) (n k j) : paintFrom n k j (withCompositor a s) = (paintFrom n k j s).map (withCompositor a) := by
  induction n generalizing k j s with
  | zero => rfl
  | succ n ih =>
    simp only [paintFrom, withCompositor_paintCell]
    cases paintCell k j s with
    | error e => rfl
    | ok r => exact ih _ _ _

/-- So does a whole Compose. -/
theorem withCompositor_composeFrame (a s : State) : composeFrame (withCompositor a s) = (composeFrame s).map (withCompositor a) := by
  unfold composeFrame
  rw [withCompositor_background]
  cases background s with
  | error e => rfl
  | ok bg =>
    simp only [Except_bind_ok]
    have e3 : (withCompositor a s).frameInfo = s.frameInfo := rfl
    rw [e3, withCompositor_seedBy]
    cases seedBy s.frameInfo.lastDisp s with
    | error e => rfl
    | ok t =>
      show (paint (withCompositor a t)).bind _ = _
      unfold paint
      have : (withCompositor a t).snap = t.snap := rfl
      rw [this, withCompositor_paintFrom, Except_bind_ok]
      cases paintFrom (canvasCount t.snap) 0 0 t <;> rfl

/-! ## A composition reads RBUF below E alone -/

/-- `s` with these contents of RBUF. -/
def withRbuf (m : Mem Byte) (s : State) : State := { s with rbuf := m }

/-- Seeding does not read RBUF. -/
theorem withRbuf_seedBy (m : Mem Byte) (l : BitVec 3) (s : State) :
    seedBy l (withRbuf m s) = (seedBy l s).map (withRbuf m) := by
  have hb : seedBackground (withRbuf m s) = (seedBackground s).map (withRbuf m) := by
    unfold seedBackground
    rw [show background (withRbuf m s) = background s from rfl]
    cases background s <;> rfl
  have hc : ∀ name src, seedCopy name src (withRbuf m s) = (seedCopy name src s).map (withRbuf m) := by
    intro name src
    unfold seedCopy
    rw [show (withRbuf m s).snap = s.snap from rfl]
    cases firstBottom (canvasCount s.snap) src <;> rfl
  unfold seedBy seedPrevious seedKept
  rw [hb, show (withRbuf m s).frameInfo = s.frameInfo from rfl, show (withRbuf m s).prev = s.prev from rfl,
    show (withRbuf m s).keep = s.keep from rfl, hc, hc]
  split
  · rfl
  · split
    · split <;> rfl
    · rfl

/-- A painted cell depends on the one RBUF cell it is given. -/
theorem withRbuf_paintIndex (m : Mem Byte) (k : Nat) (v : Option Byte) (s : State) :
    paintIndex k v (withRbuf m s) = (paintIndex k v s).map (withRbuf m) := by
  cases v with
  | none => rfl
  | some v =>
    unfold paintIndex
    simp only [show (withRbuf m s).snap = s.snap from rfl,
      show tableRead (withRbuf m s) v.toNat = tableRead s v.toNat from rfl]
    by_cases h1 : resolveTrans s.snap = some v
    · rw [if_pos h1, if_pos h1]; rfl
    · rw [if_neg h1, if_neg h1]
      by_cases h2 : tableLen s.snap ≤ v.toNat
      · rw [if_pos h2, if_pos h2]; rfl
      · rw [if_neg h2, if_neg h2]
        cases tableRead s v.toNat <;> rfl

/-- Painting from cell `k` on reads only RBUF cells below E (R136). -/
theorem withRbuf_paintFrom {m : Mem Byte} {n k : Nat} {s : State} (hn : k + n ≤ canvasCount s.snap)
    (h : ∀ j, j < pixelCount s.snap → memGet m j = memGet s.rbuf j) :
    paintFrom n k (consumed s.snap k) (withRbuf m s) = (paintFrom n k (consumed s.snap k) s).map (withRbuf m) := by
  induction n generalizing k s with
  | zero => rfl
  | succ n ih =>
    have hk : k < canvasCount s.snap := by omega
    have hc := consumed_succ hk
    simp only [paintFrom, paintCell, show (withRbuf m s).snap = s.snap from rfl,
      show (withRbuf m s).rbuf = m from rfl]
    by_cases hi : inside s.snap (k % s.snap.sw.toNat) (k / s.snap.sw.toNat) = true
    · rw [if_pos hi] at hc
      rw [if_pos hi, if_pos hi, h _ (by rw [consumed_inside hi]; exact sourceCell_lt (cell_of_lt hk).1 hi),
        withRbuf_paintIndex]
      cases hp : paintIndex k (memGet s.rbuf (consumed s.snap k)) s with
      | error f => rfl
      | ok t =>
        have hf : t.snap = s.snap ∧ t.rbuf = s.rbuf := by
          rcases paintIndex_cases hp with ⟨-, rfl⟩ | ⟨_, -, -, rfl⟩ | ⟨_, -, -, -, rfl⟩ | ⟨_, _, -, -, -, -, rfl⟩ <;>
            exact ⟨rfl, rfl⟩
        have hnext := ih (k := k + 1) (s := t) (by rw [hf.1]; omega) (by rw [hf.1, hf.2]; exact h)
        rw [hf.1, hc] at hnext
        exact hnext
    · rw [if_neg hi] at hc
      rw [if_neg hi, if_neg hi]
      simp only [Except_bind_ok]
      rw [← show consumed s.snap (k + 1) = consumed s.snap k from hc]
      exact ih (by omega) h

/-- A whole Compose reads only RBUF cells below E (R136). -/
theorem withRbuf_composeFrame {m : Mem Byte} {s : State} (h : ∀ j, j < pixelCount s.snap → memGet m j = memGet s.rbuf j) :
    composeFrame (withRbuf m s) = (composeFrame s).map (withRbuf m) := by
  unfold composeFrame
  rw [show background (withRbuf m s) = background s from rfl, show (withRbuf m s).frameInfo = s.frameInfo from rfl,
    withRbuf_seedBy]
  cases background s with
  | error f => rfl
  | ok bg =>
    cases ht : seedBy s.frameInfo.lastDisp s with
    | error f => rfl
    | ok t =>
      have hf := seedBy_frame ht
      have hs : t.snap = s.snap := by rw [hf]
      have hr : t.rbuf = s.rbuf := by rw [hf]
      have hp : paint (withRbuf m t) = (paint t).map (withRbuf m) := by
        have := withRbuf_paintFrom (m := m) (n := canvasCount t.snap) (k := 0) (s := t) (by omega)
          (by rw [hs, hr]; exact h)
        rwa [consumed_zero] at this
      simp only [Except.map, Except_bind_ok]
      rw [hp]
      cases paint t <;> rfl

end Sys2Proof.Machine
end

