-- ==== Sys2Proof/Laws/Engine.lean ====
section
/-! SUPPORT. Whole commands and the engine's steps. -/

namespace Sys2Proof.Machine

/-! ## Commands from the idle state -/

/-- A failing check ends the command with its error (R84). -/
theorem exec_check_fails {op : Op} {s t : State} {c} (hp : s.phase = .idle) (hf : failedCheck op s.cfg s.conf = some c) (h : exec (instrOf op) s = .next t) : t.status.err = true ∧ t = raiseError c (accept op s) := by
  rw [exec_instrOf_idle hp, asOutcome_eq_next] at h
  have h2 : ∀ work, checked op work (accept op s) = .ok (raiseError c (accept op s)) := fun work => by
    apply checked_of_some
    cases op <;> exact hf
  cases op <;> simp only [commandBody, bitreadBody, decodeBody, reorderBody, composeBody, frameBody, h2] at h <;> first | (cases h; exact ⟨rfl, rfl⟩) | (cases hf)

/-- COMPOSE past its checks is Compose and completion (R91). -/
theorem exec_compose_idle {s t : State} (hp : s.phase = .idle) (hf : failedCheck .compose s.cfg s.conf = none) (h : exec .compose s = .next t) :
   ∃ u, composeFrame (accept .compose s) = .ok u ∧ t = complete u := by
  have hx : exec .compose s = asOutcome (composeBody (accept .compose s)) := exec_instrOf_idle hp .compose
  have hf' : failedCheck .compose (accept .compose s).cfg (accept .compose s).snap = none := hf
  rw [hx, asOutcome_eq_next, composeBody, checked_of_none hf'] at h
  obtain ⟨u, hu, h⟩ := bind_eq_ok.1 h
  cases h
  exact ⟨u, hu, rfl⟩

/-- FRAME past its checks decodes, and ends with LZWCODE or reorders, composes and completes (R92). -/
theorem exec_frame_idle {s t : State} (hp : s.phase = .idle) (hf : failedCheck .frame s.cfg s.conf = none) (h : exec .frame s = .next t) :
  ∃ d, lzwDecode (accept .frame s) = .ok d ∧ ((d.status.stop = .invalid ∧ t = raiseError .lzwcode d) ∨ (d.status.stop ≠ .invalid ∧ ∃ u, composeFrame (reorderRows d) = .ok u ∧ t = complete u)) := by
  have hx : exec .frame s = asOutcome (frameBody (accept .frame s)) := exec_instrOf_idle hp .frame
  have hf' : failedCheck .frame (accept .frame s).cfg (accept .frame s).snap = none := hf
  rw [hx, asOutcome_eq_next, frameBody, checked_of_none hf'] at h
  obtain ⟨d, hd, h⟩ := bind_eq_ok.1 h
  refine ⟨d, hd, ?_⟩
  split at h
  · cases h; exact .inl ⟨by assumption, rfl⟩
  · obtain ⟨u, hu, h⟩ := bind_eq_ok.1 h
    cases h
    exact .inr ⟨by assumption, u, hu, rfl⟩

/-! ## Runs of the engine -/

/-- A run in two parts. -/
theorem engineRun_add (n m : Nat) (s : State) : engineRun (n + m) s = (engineRun n s).bind (engineRun m) := by
  induction n generalizing s with
  | zero => simp [engineRun]
  | succ n ih =>
    rw [Nat.succ_add]
    simp only [engineRun]
    cases engineStep s with
    | error e => rfl
    | ok t => exact ih t

/-- A run of one step. -/
theorem engineRun_one (s : State) : engineRun 1 s = engineStep s := by
  simp only [engineRun]
  cases engineStep s <;> rfl

/-- A run that begins with a step that succeeds. -/
theorem engineRun_step {s t : State} (h : engineStep s = .ok t) (m : Nat) : engineRun (m + 1) s = engineRun m t := by
  simp [engineRun, h]

/-- The first step after acceptance. -/
theorem engineStep_accept (op : Op) (s : State) : engineStep (accept op s) = startStep op (accept op s) := by
  cases op <;> rfl

/-! ## The phase is only carried along -/

/-- Painting does not read the phase. -/
theorem paintCell_setPhase (p : Phase) (s : State) (k j : Nat) : paintCell k j (setPhase p s) = (paintCell k j s).map fun r => (setPhase p r.1, r.2) := by
  have : setPhase p s = withCompositor (setPhase p s) s := rfl
  rw [this, withCompositor_paintCell]
  cases h : paintCell k j s with
  | error e => rfl
  | ok r =>
    have f := (paintCell_frame h).1
    show Except.ok (withCompositor _ r.1, r.2) = Except.ok (setPhase p r.1, r.2)
    congr 2
    rw [f]; rfl

/-- Nor does seeding. -/
theorem seedBy_setPhase (p : Phase) (s : State) (l) : seedBy l (setPhase p s) = (seedBy l s).map (setPhase p) := by
  have : setPhase p s = withCompositor (setPhase p s) s := rfl
  rw [this, withCompositor_seedBy]
  cases h : seedBy l s with
  | error e => rfl
  | ok r =>
    have f := seedBy_frame h
    show Except.ok _ = Except.ok _
    congr 1
    rw [f]; rfl

/-- Nor does the UNDERRUN warning. -/
theorem underrunCheck_setPhase (p : Phase) (t : State) : underrunCheck (setPhase p t) = setPhase p (underrunCheck t) := by
  unfold underrunCheck
  by_cases hc : t.status.stop ≠ .count ∧ t.lzw.outn < pixelCount t.snap
  · rw [if_pos (show (setPhase p t).status.stop ≠ .count ∧ (setPhase p t).lzw.outn < pixelCount (setPhase p t).snap from hc), if_pos hc]; rfl
  · rw [if_neg (show ¬ ((setPhase p t).status.stop ≠ .count ∧ (setPhase p t).lzw.outn < pixelCount (setPhase p t).snap) from hc), if_neg hc]

end Sys2Proof.Machine
end

