-- ==== Sys2Proof/Laws/PerInstr.lean ====
section
/-! SUPPORT. Statements about every instruction, one lemma per constructor. EncodeFits: the encoding of a well-formed
instruction has a value that fits its bits (R70, R74, R79). -/

namespace Sys2Proof.Laws

/-- The encoding of a well-formed instruction fits in its bits. -/
def EncodeFits.Statement (i : Instr) : Prop := i.wellFormed = true → (encode i).value < 2 ^ (encode i).bits

namespace EncodeFits

theorem nop : Statement .nop := fun _ => by decide
theorem sreset : Statement .sreset := fun _ => by decide
theorem newstream : Statement .newstream := fun _ => by decide
theorem bitread : Statement .bitread := fun _ => by decide
theorem decode : Statement .decode := fun _ => by decide
theorem reorder : Statement .reorder := fun _ => by decide
theorem compose : Statement .compose := fun _ => by decide
theorem frame : Statement .frame := fun _ => by decide
theorem reservedOp (op : BitVec 4) : Statement (.reservedOp op) := fun _ => (commandWord 0 op).isLt
theorem reservedRes (res : BitVec 28) (op : BitVec 4) : Statement (.reservedRes res op) :=
  fun _ => (commandWord res op).isLt
theorem lzwClear (w c : Nat) : Statement (.lzwClear w c) := fun h => by
  simp only [Instr.wellFormed, codeFits, Bool.and_eq_true, decide_eq_true_eq] at h
  simp only [encode, Encoded.value, Encoded.bits]
  omega
theorem lzwEnd (w c : Nat) : Statement (.lzwEnd w c) := fun h => by
  simp only [Instr.wellFormed, codeFits, Bool.and_eq_true, decide_eq_true_eq] at h
  simp only [encode, Encoded.value, Encoded.bits]
  omega
theorem lzwDict (w c : Nat) : Statement (.lzwDict w c) := fun h => by
  simp only [Instr.wellFormed, codeFits, Bool.and_eq_true, decide_eq_true_eq] at h
  simp only [encode, Encoded.value, Encoded.bits]
  omega
theorem lzwKwkwk (w c : Nat) : Statement (.lzwKwkwk w c) := fun h => by
  simp only [Instr.wellFormed, codeFits, Bool.and_eq_true, decide_eq_true_eq] at h
  simp only [encode, Encoded.value, Encoded.bits]
  omega
theorem lzwInvalid (w c : Nat) : Statement (.lzwInvalid w c) := fun h => by
  simp only [Instr.wellFormed, codeFits, Bool.and_eq_true, decide_eq_true_eq] at h
  simp only [encode, Encoded.value, Encoded.bits]
  omega
theorem dispUnspecified : Statement .dispUnspecified := fun _ => by decide
theorem dispDoNotDispose : Statement .dispDoNotDispose := fun _ => by decide
theorem dispRestoreBackground : Statement .dispRestoreBackground := fun _ => by decide
theorem dispRestoreToPrevious : Statement .dispRestoreToPrevious := fun _ => by decide
theorem dispReserved4 : Statement .dispReserved4 := fun _ => by decide
theorem dispReserved5 : Statement .dispReserved5 := fun _ => by decide
theorem dispReserved6 : Statement .dispReserved6 := fun _ => by decide
theorem dispReserved7 : Statement .dispReserved7 := fun _ => by decide

end EncodeFits
end Sys2Proof.Laws
end

