-- ==== Sys2Proof/Laws/Window.lean ====
section
/-! SUPPORT. The host window: where an access lands and what it does there, words and their fields. -/

namespace Sys2Proof.Machine

/-- An aligned word access inside the window is located at its offset (R54, R60). -/
theorem locate_ok {c : Config} {off : Nat} (h2 : off < 2 ^ 28) (h3 : off % 4 = 0) :
    locate c (c.base + off) 4 = .ok (placeAt off) := by
  have hin : ¬ (c.base + off < c.base ∨ c.base + Config.windowBytes ≤ c.base + off) := by
    unfold Config.windowBytes; omega
  unfold locate
  rw [if_neg hin]
  simp [h3]

/-- An access outside the window is located there, whatever its width and alignment [log 12]. -/
theorem locate_outside {c : Config} {addr width : Nat} (h : addr < c.base ∨ c.base + Config.windowBytes ≤ addr) :
    locate c addr width = .ok .outside := if_pos h

/-- The offsets of the block memories (R55). -/
theorem placeAt_isMemory (off : Nat) :
    (placeAt off).isMemory = true ↔ (0x400 ≤ off ∧ off < 0xC00) ∨ (0x1000000 ≤ off ∧ off < 0x8000000) := by
  unfold placeAt
  split_ifs <;> simp [Place.isMemory] <;> omega

/-- A CDATA byte's place (R55). -/
theorem placeAt_cdata {k : Nat} (h : k < 2 ^ 24) : placeAt (0x1000000 + k) = .cdata k := by
  unfold placeAt
  split_ifs <;> first | omega | simp

/-- A GCT entry's place (R55). -/
theorem placeAt_gct {i : Nat} (h : i < 256) : placeAt (0x400 + 4 * i) = .gct i := by
  unfold placeAt
  split_ifs <;> first | omega | simp

/-- An LCT entry's place (R55). -/
theorem placeAt_lct {i : Nat} (h : i < 256) : placeAt (0x800 + 4 * i) = .lct i := by
  unfold placeAt
  split_ifs <;> first | omega | simp

/-- An IDXBUF byte's place (R55). -/
theorem placeAt_idxbuf {k : Nat} (h : k < 2 ^ 24) : placeAt (0x2000000 + k) = .idxbuf k := by
  unfold placeAt
  split_ifs <;> first | omega | simp

/-- An RBUF byte's place (R55). -/
theorem placeAt_rbuf {k : Nat} (h : k < 2 ^ 24) : placeAt (0x3000000 + k) = .rbuf k := by
  unfold placeAt
  split_ifs <;> first | omega | simp

/-- An OUT pixel's place (R55). -/
theorem placeAt_out {k : Nat} (h : k < 2 ^ 24) : placeAt (0x4000000 + 4 * k) = .out k := by
  unfold placeAt
  split_ifs <;> first | omega | simp

/-! ## What an access does -/

/-- An aligned access inside the window reaches its place, unless it is a memory's while BUSY (R54, R185). -/
theorem accessPlace_ok {s : State} {off : Nat} (h1 : off < 2 ^ 28) (h2 : off % 4 = 0)
    (h3 : (placeAt off).isMemory = false ∨ busy s = false) : accessPlace s (s.cfg.base + off) 4 = .ok (placeAt off) := by
  have hb : ((placeAt off).isMemory && busy s) = false := by rcases h3 with h | h <;> simp [h]
  rw [accessPlace, locate_ok h1 h2, Except_bind_ok, hb]
  rfl

/-- Such a write writes the place. -/
theorem busWrite_at {s : State} {off : Nat} (v : Word) (h1 : off < 2 ^ 28) (h2 : off % 4 = 0)
    (h3 : (placeAt off).isMemory = false ∨ busy s = false) :
    busWrite (s.cfg.base + off) 4 v s = .ok (placeWrite (placeAt off) v s) := by
  rw [busWrite, accessPlace_ok h1 h2 h3, Except_bind_ok]

/-- Such a read returns what the place holds, and draws one free word [log 2]. -/
theorem busRead_at {s : State} {off : Nat} (h1 : off < 2 ^ 28) (h2 : off % 4 = 0)
    (h3 : (placeAt off).isMemory = false ∨ busy s = false) :
    busRead (s.cfg.base + off) 4 s =
      .ok (placeRead (placeAt off) (Config.freeWord s.draws) s, { s with draws := s.draws + 1 }) := by
  rw [busRead, accessPlace_ok h1 h2 h3, Except_bind_ok]

/-- A register that is neither STATUS nor a result register reads as its word, idle or BUSY (R186). -/
theorem regRead_conf {r : Reg} (free : Word) (s : State) (h1 : r ≠ .status) (h2 : r.isResult = false) :
    regRead r free s = regWord r s := by
  simp [regRead, h1, h2]

/-- One lane of a CDATA write (R55, R58). -/
theorem memGet_writeLane (size k j i : Nat) (v : Word) (m : Mem Byte) :
    memGet (writeLane size k v j m) i = if i = k + j ∧ k + j < size then some (lane v j) else memGet m i := by
  unfold writeLane
  by_cases h : k + j < size
  · rw [if_pos h, memGet_memSet]
    simp [h, eq_comm]
  · rw [if_neg h, if_neg (fun hi => h hi.2)]

/-- A CDATA write, byte by byte (R55, R58). -/
theorem memGet_writeCdata (size k i : Nat) (v : Word) (m : Mem Byte) :
    memGet (writeCdata size k v m) i =
      if k ≤ i ∧ i < k + 4 ∧ i < size then some (lane v (i - k)) else memGet m i := by
  unfold writeCdata
  simp only [memGet_writeLane]
  by_cases h : k ≤ i ∧ i < k + 4 ∧ i < size
  · obtain ⟨j, rfl⟩ := Nat.exists_eq_add_of_le h.1
    have hj : j < 4 := by omega
    have hs := h.2.2
    rw [if_pos h, Nat.add_sub_cancel_left]
    interval_cases j <;> simp_all
  · rw [if_neg h]
    repeat rw [if_neg (fun hi => h (by omega))]

/-! ## Words and their fields, bit by bit -/

/-- A word is its four lanes (R58). -/
theorem wordOfBytes_lanes (v : Word) : wordOfBytes (lane v 0) (lane v 1) (lane v 2) (lane v 3) = v := by
  refine BitVec.eq_of_getLsbD_eq fun i hi => ?_
  unfold wordOfBytes lane
  simp only [BitVec.getLsbD_append, BitVec.getLsbD_extractLsb']
  interval_cases i <;> simp

/-- Lane `j` of a word of four bytes is byte `j` (R58). -/
theorem lane_wordOfBytes (a b c d : Byte) {j : Nat} (h : j < 4) :
    (wordOfBytes a b c d).extractLsb' (8 * j) 8 = if j = 0 then a else if j = 1 then b else if j = 2 then c else d := by
  refine BitVec.eq_of_getLsbD_eq fun i hi => ?_
  rw [BitVec.getLsbD_extractLsb']
  have e : ∀ n, (wordOfBytes a b c d).getLsbD n = if n < 8 then a.getLsbD n else if n - 8 < 8 then b.getLsbD (n - 8)
      else if n - 8 - 8 < 8 then c.getLsbD (n - 8 - 8) else d.getLsbD (n - 8 - 8 - 8) := by
    intro n
    unfold wordOfBytes
    rw [BitVec.getLsbD_append, BitVec.getLsbD_append, BitVec.getLsbD_append]
  rw [e]
  interval_cases j <;> interval_cases i <;> rfl

/-- A colour-table word keeps R, G and B and reads 0 above them (R56). -/
theorem rgbWord_rgbOfWord (v : Word) : rgbWord (rgbOfWord v) = v &&& 0x00FFFFFF := by
  refine BitVec.eq_of_getLsbD_eq fun i hi => ?_
  unfold rgbWord rgbOfWord lane
  simp only [BitVec.getLsbD_append, BitVec.getLsbD_extractLsb', BitVec.getLsbD_and]
  interval_cases i <;> simp

/-- CTRL keeps its three bits (R20). -/
theorem ctrlWord_confWrite (v : Word) (c : Conf) : ctrlWord (confWrite .ctrl v c).ctrl = v &&& 0x00000007 := by
  refine BitVec.eq_of_getLsbD_eq fun i hi => ?_
  unfold ctrlWord confWrite
  simp only [BitVec.getLsbD_append, BitVec.getLsbD_and]
  interval_cases i <;> simp

/-- IMG_CFG keeps its fields (R28). -/
theorem imgCfgWord_confWrite (v : Word) (c : Conf) : imgCfgWord (confWrite .imgCfg v c).imgCfg = v &&& 0x0000077F := by
  refine BitVec.eq_of_getLsbD_eq fun i hi => ?_
  unfold imgCfgWord confWrite
  simp only [BitVec.getLsbD_append, BitVec.getLsbD_extractLsb', BitVec.getLsbD_and]
  interval_cases i <;> simp

/-- Two halves make the word (R24, R26, R27). -/
theorem halves_append (v : Word) : v.extractLsb' 16 16 ++ v.extractLsb' 0 16 = v := by
  refine BitVec.eq_of_getLsbD_eq fun i hi => ?_
  simp only [BitVec.getLsbD_append, BitVec.getLsbD_extractLsb']
  interval_cases i <;> simp

/-- A field at bit 0 with reserved bits above it (R30, R32). -/
theorem low_append (n m : Nat) (v : Word) :
    ((0 : BitVec m) ++ v.extractLsb' 0 n).setWidth 32 = v &&& BitVec.ofNat 32 (2 ^ n - 1) := by
  refine BitVec.eq_of_getLsbD_eq fun i hi => ?_
  simp only [BitVec.getLsbD_setWidth, BitVec.getLsbD_append, BitVec.getLsbD_extractLsb', BitVec.getLsbD_and,
    BitVec.getLsbD_ofNat, Nat.testBit_two_pow_sub_one]
  by_cases hn : i < n <;> simp [hn, hi]

end Sys2Proof.Machine
end

