-- ==== Sys2Proof/Tests/Slice0.lean ====
section
/-! SUPPORT. The model's own tests: ill-formed instructions are refused, words written out from the encoding tables decode
to their rows, one step per instruction on small states with the results of spec/95_test_vectors.md, and a witness for
the hypotheses of every obligation that has some. -/

namespace Sys2Proof.Tests

open Sys2Proof Sys2Proof.Machine

/-! ## WellFormed -/

theorem test_wf_reservedOp_low : (Instr.reservedOp 7).wellFormed = false := by decide
theorem test_wf_reservedOp : (Instr.reservedOp 8).wellFormed = true := by decide
theorem test_wf_reservedRes_zero : (Instr.reservedRes 0 5).wellFormed = false := by decide
theorem test_wf_reservedRes : (Instr.reservedRes 1 5).wellFormed = true := by decide
theorem test_wf_code_narrow : (Instr.lzwDict 2 0).wellFormed = false := by decide
theorem test_wf_code_wide : (Instr.lzwDict 13 0).wellFormed = false := by decide
theorem test_wf_code_value : (Instr.lzwKwkwk 4 16).wellFormed = false := by decide
theorem test_wf_invalid_value : (Instr.lzwInvalid 12 4096).wellFormed = false := by decide
theorem test_wf_clear_not_power : (Instr.lzwClear 4 9).wellFormed = false := by decide
theorem test_wf_clear_too_small : (Instr.lzwClear 4 2).wellFormed = false := by decide
theorem test_wf_end_not_clear : (Instr.lzwEnd 4 10).wellFormed = false := by decide
theorem test_wf_end_zero : (Instr.lzwEnd 4 0).wellFormed = false := by decide
theorem test_ctx_width : (Instr.lzwDict 5 3).inContext ⟨3, 4, 10, true⟩ = false := by decide
theorem test_ctx_dict_count : (Instr.lzwDict 4 10).inContext ⟨3, 4, 10, true⟩ = false := by decide
theorem test_ctx_dict_clear : (Instr.lzwDict 4 8).inContext ⟨3, 4, 10, true⟩ = false := by decide
theorem test_ctx_clear : (Instr.lzwClear 4 9).inContext ⟨3, 4, 10, true⟩ = false := by decide
theorem test_ctx_end : (Instr.lzwEnd 4 8).inContext ⟨3, 4, 10, true⟩ = false := by decide
theorem test_ctx_kwkwk_no_prev : (Instr.lzwKwkwk 4 10).inContext ⟨3, 4, 10, false⟩ = false := by decide
theorem test_ctx_invalid_prev : (Instr.lzwInvalid 4 10).inContext ⟨3, 4, 10, true⟩ = false := by decide

/-! ## Decode: words written out bit by bit

A command word is RES (28 bits) and OP (4 bits), R70; a 16-bit code word holds a 12-bit code, R74; a packed byte has DISP in
bits 4 to 2, R79. -/

theorem test_decode_nop : decodeTableWord 32 0b0000 = some .nop := by decide
theorem test_decode_sreset : decodeTableWord 32 0b0001 = some .sreset := by decide
theorem test_decode_newstream : decodeTableWord 32 0b0010 = some .newstream := by decide
theorem test_decode_bitread : decodeTableWord 32 0b0011 = some .bitread := by decide
theorem test_decode_decode : decodeTableWord 32 0b0100 = some .decode := by decide
theorem test_decode_reorder : decodeTableWord 32 0b0101 = some .reorder := by decide
theorem test_decode_compose : decodeTableWord 32 0b0110 = some .compose := by decide
theorem test_decode_frame : decodeTableWord 32 0b0111 = some .frame := by decide
theorem test_decode_reservedOp : decodeTableWord 32 0b1010 = some (.reservedOp 0b1010) := by decide
theorem test_decode_reservedRes :
    decodeTableWord 32 0b00000000_00000000_00000001_00001000 = some (.reservedRes 0x10 8) := by decide
theorem test_decode_lzwClear : decodeTableWord 16 0b0000_000000001000 = some (.lzwClear 12 8) := by decide
theorem test_decode_lzwEnd : decodeTableWord 16 0b0000_000000001001 = some (.lzwEnd 12 9) := by decide
theorem test_decode_lzwDict : decodeTableWord 16 0b0000_000000000111 = some (.lzwDict 12 7) := by decide
theorem test_decode_lzwKwkwk : decodeTableWord 16 0b0000_000000001010 = some (.lzwKwkwk 12 10) := by decide
theorem test_decode_lzwInvalid : decodeTableWord 16 0b0000_000000001011 = some (.lzwInvalid 12 11) := by decide
theorem test_decode_code_too_wide : decodeTableWord 16 0b0001_000000000000 = none := by decide
theorem test_decode_dispUnspecified : decodeTableWord 8 0b000_000_00 = some .dispUnspecified := by decide
theorem test_decode_dispDoNotDispose : decodeTableWord 8 0b111_001_00 = some .dispDoNotDispose := by decide
theorem test_decode_dispRestoreBackground : decodeTableWord 8 0b000_010_01 = some .dispRestoreBackground := by decide
theorem test_decode_dispRestoreToPrevious : decodeTableWord 8 0b000_011_00 = some .dispRestoreToPrevious := by decide
theorem test_decode_dispReserved4 : decodeTableWord 8 0b000_100_00 = some .dispReserved4 := by decide
theorem test_decode_dispReserved5 : decodeTableWord 8 0b000_101_00 = some .dispReserved5 := by decide
theorem test_decode_dispReserved6 : decodeTableWord 8 0b000_110_11 = some .dispReserved6 := by decide
theorem test_decode_dispReserved7 : decodeTableWord 8 0b000_111_10 = some .dispReserved7 := by decide
theorem test_decode_length : decodeBytes tableCodeCtx [0, 0] = .error .badLength := by decide
theorem test_decode_width : decode ⟨3, 4, 10, true⟩ (.code 5 1) = .error .wrongWidth := by decide

/-! ## Helpers -/

/-- The next state of an outcome. -/
def nextOf : Host.Outcome State Fault Refusal → Option State
  | .next s => some s
  | .fault _ | .refused _ => none

/-- A field of the state after an instruction, from an idle state. -/
def after {α : Type} (i : Instr) (f : State → α) (s : State) : Option α := (nextOf (exec i s)).map f

/-- The reset state with these configuration registers. -/
def withConf (c : Conf) : State := { State.reset with conf := c }

/-- A black and white global table, a canvas and an image of `w` by 1 pixels (95_test_vectors.md section 5). -/
def bwConf (w : BitVec 16) : Conf := { Conf.reset with lsd := 0x80, sw := w, sh := 1, iw := w, ih := 1 }

/-- The base setup of the compositor's vectors, with these RBUF cells. -/
def bw (c : Conf) (rbuf : Mem Byte) : State :=
  { withConf c with gct := [(0, ⟨0, 0, 0⟩), (1, ⟨255, 255, 255⟩)], rbuf := rbuf }

/-- A decoder's configuration with MCS = 3 (95_test_vectors.md section 3): `n` pixels, `len` bytes. -/
def lzwConf (n : BitVec 16) (len : BitVec 25) (strict : Bool) : Conf :=
  { Conf.reset with
    ctrl := ⟨false, true, strict⟩, iw := n, ih := 1, clen := len
    imgCfg := ⟨3, false, false, false, 0⟩ }

/-- A state before DECODE. -/
def lzwState (n : BitVec 16) (len : BitVec 25) (strict : Bool) (cdata : Mem Byte) : State :=
  { withConf (lzwConf n len strict) with cdata := cdata }

/-- A state inside a decode, after LzwStart, with this previous entry. -/
def inDecode (s : State) (p : Option Str) : State :=
  let t := lzwStart (accept .decode s)
  { t with lzw := { t.lzw with p := p }, phase := .busy .decode .lzw }

/-- A busy machine. -/
def busyState : State := { State.reset with phase := .busy .nop .start }

/-! ## One step per instruction -/

/-- R85: from IDLE a NOP gives STATUS = 0x0000_0002. -/
theorem test_nop : after .nop (regWord .status) State.reset = some 0x00000002 := by decide
theorem test_nop_busy : after .nop (fun t => (t.status.ovr, t.phase)) busyState = some (true, .busy .nop .start) := by decide
/-- R86. -/
theorem test_sreset : after .sreset (fun t => (regWord .frameNo t, regWord .frameInfo t, regWord .ctrl t, t.cdata))
    { State.reset with frameNo := 7, frameInfo := ⟨1, true⟩, conf := lzwConf 4 1 true, cdata := [(0, 5)] } =
    some (0, 2, 2, [(0, 5)]) := by decide
/-- R87. -/
theorem test_newstream : after .newstream (fun t => (regWord .frameInfo t, regWord .warn t, t.conf.sw))
    { bw (bwConf 3) [] with warn := ⟨true, true, true⟩, frameInfo := ⟨0, true⟩ } = some (2, 0, 3) := by decide
/-- BR-3. -/
theorem test_bitread : after .bitread (regWord .brVal)
    { withConf { Conf.reset with clen := 2, brOff := 3, brN := 7 } with cdata := [(0, 0xA5), (1, 0x3C)] } =
    some 0x14 := by decide
/-- BR-8. -/
theorem test_bitread_range : after .bitread (regWord .status)
    { withConf { Conf.reset with clen := 2, brOff := 8, brN := 9 } with cdata := [(0, 0xA5), (1, 0x3C)] } =
    some 0x00000036 := by decide
/-- LZW-1. -/
theorem test_decode : after .decode (fun t => (t.idxbuf, t.status.stop, regWord .lzwDbg t, t.lzw.pos))
    (lzwState 4 3 false [(0, 0x18), (1, 0xA1), (2, 0x09)]) =
    some ([(0, 1), (1, 1), (2, 1), (3, 1)], .count, 0x000C0014, 16) := by decide
/-- LZW-4b. -/
theorem test_decode_strict : after .decode (fun t => (regWord .status t, t.lzw.pos, t.warn.underrun))
    (lzwState 1 2 true [(0, 0xB8), (1, 0x92)]) = some (0x00000446, 8, true) := by decide
/-- IL-2. -/
theorem test_reorder : after .reorder (fun t => t.rbuf.map Prod.snd)
    { withConf { Conf.reset with iw := 1, ih := 8, imgCfg := ⟨0, true, false, false, 0⟩ } with
      idxbuf := [(0, 0), (1, 1), (2, 2), (3, 3), (4, 4), (5, 5), (6, 6), (7, 7)] } =
    some [0, 4, 2, 5, 1, 6, 3, 7] := by decide
/-- IL-5. -/
theorem test_reorder_bottom : after .reorder State.rbuf
    { withConf { Conf.reset with iw := 2, ih := 3, imgCfg := ⟨0, true, false, false, 0⟩ } with
      idxbuf := [(0, 1), (1, 2), (2, 3)] } = some [(0, 1), (1, 2), (4, 3)] := by decide
/-- FC-2. -/
theorem test_compose : after .compose (fun t => (t.prev.map fun e => rgbaWord e.2, regWord .dly t, regWord .frameInfo t))
    (bw { bwConf 2 with bgIdx := 1, packed := 1, tidx := 1, delay := 3, imgCfg := ⟨0, false, false, true, 0⟩ }
      [(0, 1), (1, 0)]) = some ([0x00FFFFFF, 0xFF000000], 3, 8) := by decide
/-- FC-6, the right clipping of R137. -/
theorem test_compose_clip : after .compose (fun t => t.prev.map fun e => rgbaWord e.2)
    { withConf { Conf.reset with lsd := 0x83, sw := 3, sh := 2, left := 2, iw := 2, ih := 2 } with
      gct := (List.range 16).map fun i => (i, ⟨BitVec.ofNat 8 i, BitVec.ofNat 8 i, BitVec.ofNat 8 i⟩)
      rbuf := [(0, 1), (1, 2), (2, 3), (3, 4)] } =
    some [0xFF000000, 0xFF000000, 0xFF010101, 0xFF000000, 0xFF000000, 0xFF020202] := by decide
/-- P1: FRAME. -/
theorem test_frame : after .frame (fun t => (regWord .status t, regWord .lzwDbg t, t.prev.map fun e => rgbaWord e.2))
    { bw { bwConf 1 with imgCfg := ⟨3, false, false, false, 0⟩, clen := 2 } [] with cdata := [(0, 0x18), (1, 0x09)] } =
    some (0x00000202, 0x000A0014, [0xFFFFFFFF]) := by decide
/-- R92, C8: V4 fails before any decoding. -/
theorem test_frame_check : after .frame (fun t => (regWord .status t, t.lzw.w))
    (withConf { Conf.reset with sw := 0xFFFF, sh := 0xFFFF, imgCfg := ⟨3, false, false, false, 0⟩ }) =
    some (0x00000026, 0) := by decide
/-- R71. -/
theorem test_reservedOp : after (.reservedOp 8) (regWord .status) State.reset = some 0x00000016 := by decide
/-- R72. -/
theorem test_reservedRes : after (.reservedRes 1 0) (fun t => (regWord .status t, t.phase)) State.reset =
    some (0x00000016, .idle) := by decide
/-- R103: P goes, N is clear + 2, W is MCS + 1. -/
theorem test_lzwClear : after (.lzwClear 4 8) State.lzw (inDecode (lzwState 4 3 false []) (some (Str.single 5))) =
    some ⟨4, 10, none, 0, 0⟩ := by decide
/-- R104. -/
theorem test_lzwEnd : after (.lzwEnd 4 9) (fun t => t.status.stop) (inDecode (lzwState 4 3 false []) none) =
    some .endCode := by decide
/-- R105, R109: DICT[10] is the previous entry and the new string's first byte. -/
theorem test_lzwDict : after (.lzwDict 4 2) (fun t => (memGet t.dict 10, t.idxbuf, t.lzw.n))
    (inDecode (lzwState 4 3 false []) (some (Str.single 1))) = some (some ⟨1, [2]⟩, [(0, 2)], 11) := by decide
/-- LZW-3: code 10 = N with P = [1] gives [1, 1]. -/
theorem test_lzwKwkwk : after (.lzwKwkwk 4 10) (fun t => (memGet t.dict 10, t.idxbuf, t.lzw.p))
    (inDecode (lzwState 4 3 false []) (some (Str.single 1))) =
    some (some ⟨1, [1]⟩, [(0, 1), (1, 1)], some ⟨1, [1]⟩) := by decide
/-- R110: W grows when N reaches 2^W. -/
theorem test_lzwDict_grows : after (.lzwDict 4 2) (fun t => (t.lzw.w, t.lzw.n))
    (let s := inDecode (lzwState 4 3 false []) (some (Str.single 1))
     { s with lzw := { s.lzw with n := 15 } }) = some (5, 16) := by decide
/-- LZW-4d: an invalid code changes nothing in tolerant mode. -/
theorem test_lzwInvalid : after (.lzwInvalid 4 12) (fun t => (t.lzw, t.status.stop))
    (inDecode (lzwState 4 3 false []) (some (Str.single 1))) =
    some (⟨4, 10, some (Str.single 1), 0, 0⟩, .none) := by decide
theorem test_lzwInvalid_strict : after (.lzwInvalid 4 12) (fun t => t.status.stop)
    (inDecode (lzwState 4 3 true []) none) = some .invalid := by decide

/-- A state at Seed: a canvas of one pixel, BG_IDX 1, a previous and a kept frame. -/
def seedState (keepV : Bool) : State :=
  { accept .compose (bw { bwConf 1 with bgIdx := 1 } []) with
    prev := [(0, ⟨9, 9, 9, 255⟩)], keep := [(0, ⟨7, 7, 7, 255⟩)], frameInfo := ⟨1, keepV⟩ }

theorem test_dispUnspecified : after .dispUnspecified State.canvas (seedState true) =
    some [(0, ⟨255, 255, 255, 255⟩)] := by decide
/-- FC-13. -/
theorem test_dispDoNotDispose : after .dispDoNotDispose State.canvas (seedState true) =
    some [(0, ⟨9, 9, 9, 255⟩)] := by decide
theorem test_dispRestoreBackground : after .dispRestoreBackground State.canvas (seedState true) =
    some [(0, ⟨255, 255, 255, 255⟩)] := by decide
/-- FC-14. -/
theorem test_dispRestoreToPrevious : after .dispRestoreToPrevious State.canvas (seedState true) =
    some [(0, ⟨7, 7, 7, 255⟩)] := by decide
/-- FC-15. -/
theorem test_dispRestoreToPrevious_none : after .dispRestoreToPrevious State.canvas (seedState false) =
    some [(0, ⟨255, 255, 255, 255⟩)] := by decide
theorem test_dispReserved4 : after .dispReserved4 State.canvas (seedState true) = some [(0, ⟨255, 255, 255, 255⟩)] := by decide
theorem test_dispReserved5 : after .dispReserved5 State.canvas (seedState true) = some [(0, ⟨255, 255, 255, 255⟩)] := by decide
theorem test_dispReserved6 : after .dispReserved6 State.canvas (seedState true) = some [(0, ⟨255, 255, 255, 255⟩)] := by decide
theorem test_dispReserved7 : after .dispReserved7 State.canvas (seedState true) = some [(0, ⟨255, 255, 255, 255⟩)] := by decide

/-! ## The host window, the parser -/

/-- R60. -/
theorem test_bus_halfword : nextOf (step { State.reset with host := [.read 8 2] }) = none := by decide
/-- R22: writing 1 to DONE clears it, and writes to ERR are ignored. -/
theorem test_status_w1c : (nextOf (step { rejectCommand State.reset with host := [.write 8 4 0x6] })).map (regWord .status) =
    some 0x00000014 := by decide
/-- R56. -/
theorem test_gct_word : (nextOf (step { State.reset with host := [.write 0x404 4 0xAA030201] })).map State.gct =
    some [(1, ⟨1, 2, 3⟩)] := by decide
/-- R147, R148, R150: the smallest stream, screen 2 by 3 and no block. -/
theorem test_parse : (parseGif [0x47, 0x49, 0x46, 0x38, 0x39, 0x61, 2, 0, 3, 0, 0, 7, 1, 0x3B]).toOption.map
    (fun p => (p.width, p.height, p.bgIdx, p.images)) = some (2, 3, 7, []) := by decide
/-- S10. -/
theorem test_loop_count : loopCountOf [[], [1, 5, 0]] = some 5 := by decide

/-- UGPP does not see an access outside its window [log 12]. -/
theorem test_outside_window : (nextOf (step { State.reset with host := [.write (2 ^ 28) 2 5] })).map (fun t => (t.conf, t.host)) =
    some (Conf.reset, []) := by decide

/-- A stream of one pixel and one image block. -/
def oneBlock : Parsed :=
  ⟨[], 1, 1, 0, 0, 0, [], [⟨0, 0, 1, 1, 0, [], 3, [], none⟩], [], [], none⟩

/-- R160, R161: STATUS, the pixel, DLY = 3 hundredths, WARN = UNDERRUN; the newest word first. -/
theorem test_stream_frame : streamResult .whole oneBlock { State.reset with replies := [1, 3, 0xFF0000FF, 0x102] } =
    .ok ([⟨[0xFF0000FF], 3 / 100⟩], ⟨true, false, false⟩) := rfl
/-- R163: ERR with ERRCODE = CFG on the second command of the block. -/
theorem test_stream_error : streamResult .separate oneBlock { State.reset with replies := [0x26, 0x2] } =
    .error (.command 0 .cfg) := rfl

/-! ## Witnesses: each obligation's hypotheses met together, every clause, at its boundary -/

theorem witness_DecodeEncodeRoundTrip :
    (Instr.lzwKwkwk 12 10).wellFormed = true ∧ (Instr.lzwKwkwk 12 10).inContext tableCodeCtx = true := by decide

theorem witness_EncodeDecodeRoundTrip :
    decode tableCodeCtx (.code 12 4095) = .ok (.lzwInvalid 12 4095) ∧
    decode tableCodeCtx (.packed 0xFF) = .ok .dispReserved7 := by decide

/-- Two contexts with N = 10 and MCS = 3: clear 8, end 9, the last entry, N with and without P, N + 1. -/
theorem witness_CodeClassesInTableOrder :
    let x : CodeCtx := ⟨3, 4, 10, true⟩
    let y : CodeCtx := ⟨3, 4, 10, false⟩
    (8 = 2 ^ x.mcs ∧ decodeCode x 8 = .lzwClear 4 8) ∧ (9 = 2 ^ x.mcs + 1 ∧ decodeCode x 9 = .lzwEnd 4 9) ∧
    ((7 < x.count ∧ 7 ≠ 2 ^ x.mcs ∧ 7 ≠ 2 ^ x.mcs + 1) ∧ decodeCode x 7 = .lzwDict 4 7) ∧
    ((10 = x.count ∧ x.hasPrev = true) ∧ decodeCode x 10 = .lzwKwkwk 4 10) ∧
    ((11 > x.count) ∧ decodeCode x 11 = .lzwInvalid 4 11) ∧
    ((10 = y.count ∧ y.hasPrev = false) ∧ decodeCode y 10 = .lzwInvalid 4 10) := by decide

theorem witness_StepRunsCommandWord :
    let s := stageCommand 4 State.reset
    s.host = .write (s.cfg.base + 4) 4 4 :: [] ∧ nextAgent s = .host ∧ s.sched.tail = [] := by decide

/-- The host writes a word, and the engine is to act after it. -/
def acceptState (w : Word) (p : Phase) : State :=
  { State.reset with host := [.write 4 4 w], sched := [.host, .engine], phase := p }

theorem witness_StepAcceptsCommandWord :
    (let s := acceptState 4 (.busy .nop .start)
     s.host = .write (s.cfg.base + 4) 4 4 :: [] ∧ nextAgent s = .host ∧ s.sched.tail ≠ [] ∧ busy s = true) ∧
    (let s := acceptState 0x10 .idle
     s.host = .write (s.cfg.base + 4) 4 0x10 :: [] ∧ nextAgent s = .host ∧ s.sched.tail ≠ [] ∧ busy s = false ∧
       opOf (decodeCommand 0x10) = none) ∧
    (let s := acceptState 7 .idle
     s.host = .write (s.cfg.base + 4) 4 7 :: [] ∧ nextAgent s = .host ∧ s.sched.tail ≠ [] ∧ busy s = false ∧
       opOf (decodeCommand 7) = some .frame) := by decide

/-- The twelve bits end exactly four bits before the stream does. -/
theorem witness_StepRunsDecodedCode :
    let s := stageDecoder 7 State.reset
    s.phase = .busy .decode .lzw ∧ nextAgent s = .engine ∧ s.lzw.outn < pixelCount s.snap ∧
      s.lzw.pos + s.lzw.w ≤ streamBits s.snap ∧ readBits s.cdata s.lzw.pos s.lzw.w = .ok 7 := by decide

theorem witness_StepRunsDisposalCode :
    let s := stageSeed 0x0C State.reset
    s.phase = .busy .compose .seed ∧ nextAgent s = .engine := by decide

theorem witness_BusyCommandOnlySetsOvr : isCommandWord (.reservedRes 1 0) = true ∧ busy busyState = true := by decide

theorem witness_ReservedWordsRaiseBadcmd :
    ((8 : Word).extractLsb' 4 28 = 0 ∧ 8 ≤ ((8 : Word).extractLsb' 0 4).toNat) ∧
    (0x10 : Word).extractLsb' 4 28 ≠ 0 ∧ State.reset.phase = .idle := by decide

/-- The first row of DECODE's checks fails, and the last row of FRAME's with all before it passing. -/
theorem witness_FirstFailingCheckEndsCommand :
    (State.reset.phase = .idle ∧ checksOf .decode = [] ++ .v1 :: [.v2, .v3] ∧
      checkFails .v1 State.reset.cfg State.reset.conf = true) ∧
    (let c : Conf := { Conf.reset with sw := 0xFFFF, sh := 0xFFFF, imgCfg := ⟨3, false, false, false, 0⟩ }
     checksOf .frame = [.v1, .v2, .v3] ++ .v4 :: [] ∧
      (∀ d ∈ [Check.v1, .v2, .v3], checkFails d Config.default c = false) ∧
      checkFails .v4 Config.default c = true) := by decide

/-- Each check of R84 with the number just outside and the number just inside its bound, the other checks passing. -/
theorem witness_FirstFailingCheckEndsCommand_table :
    (∀ m ∈ [2, 9], after .decode (fun t => t.status.errcode)
      (withConf { Conf.reset with imgCfg := ⟨m, false, false, false, 0⟩ }) = some .cfg) ∧
    (∀ m ∈ [3, 8], failedCheck .frame Config.default { Conf.reset with imgCfg := ⟨m, false, false, false, 0⟩ } = none) ∧
    (after .reorder (fun t => t.status.errcode) (withConf { Conf.reset with iw := 1024, ih := 1025 }) = some .cfg ∧
      failedCheck .reorder Config.default { Conf.reset with iw := 1024, ih := 1024 } = none) ∧
    (after .bitread (fun t => t.status.errcode) (withConf { Conf.reset with clen := 0x100001 }) = some .cfg ∧
      failedCheck .bitread Config.default { Conf.reset with clen := 0x100000 } = none) ∧
    (after .compose (fun t => t.status.errcode) (withConf { Conf.reset with sw := 1024, sh := 1025 }) = some .cfg ∧
      failedCheck .compose Config.default { Conf.reset with sw := 1024, sh := 1024 } = none) ∧
    (after .bitread (fun t => t.status.errcode) (withConf { Conf.reset with clen := 3, brN := 17 }) = some .brrange ∧
      failedCheck .bitread Config.default { Conf.reset with clen := 3, brN := 16, brOff := 8 } = none) ∧
    after .bitread (fun t => t.status.errcode) (withConf { Conf.reset with clen := 3, brN := 16, brOff := 9 }) =
      some .brrange := by decide

/-- An idle machine (NOP, SRESET, NEWSTREAM) and a busy one. -/
theorem witness_idle_busy : State.reset.phase = .idle ∧ busy busyState = true := by decide

/-- BITREAD of the last N bits of the stream, of N = 16 bits; of N = 0 bits at its end, nothing loaded; of a ⊥ byte; then
each failing check by one. -/
theorem witness_BitreadReadsTheField :
    (let c : Conf := { Conf.reset with clen := 2, brOff := 0, brN := 16 }
     let s : State := { withConf c with cdata := [(0, 0xA5), (1, 0x3C)] }
     s.phase = .idle ∧ s.conf.clen.toNat ≤ s.cfg.cdataBytes ∧ s.conf.brN.toNat ≤ 16 ∧
      s.conf.brOff.toNat + s.conf.brN.toNat ≤ 8 * s.conf.clen.toNat ∧
      ∀ i, i < s.conf.brN.toNat → (memGet s.cdata ((s.conf.brOff.toNat + i) / 8)).isSome = true) ∧
    (let s := withConf { Conf.reset with clen := 2, brOff := 16 }
     s.phase = .idle ∧ s.conf.clen.toNat ≤ s.cfg.cdataBytes ∧ s.conf.brN.toNat ≤ 16 ∧
      s.conf.brOff.toNat + s.conf.brN.toNat ≤ 8 * s.conf.clen.toNat ∧ s.conf.brN = 0 ∧
      ∀ i, i < s.conf.brN.toNat → (memGet s.cdata ((s.conf.brOff.toNat + i) / 8)).isSome = true) ∧
    (let s : State := { withConf { Conf.reset with clen := 2, brOff := 7, brN := 2 } with cdata := [(0, 0)] }
     s.phase = .idle ∧ s.conf.clen.toNat ≤ s.cfg.cdataBytes ∧ s.conf.brN.toNat ≤ 16 ∧
      s.conf.brOff.toNat + s.conf.brN.toNat ≤ 8 * s.conf.clen.toNat ∧ 1 < s.conf.brN.toNat ∧
      memGet s.cdata ((s.conf.brOff.toNat + 1) / 8) = none) ∧
    (let s := withConf { Conf.reset with clen := 0x100001 }
     s.phase = .idle ∧ s.conf.clen.toNat > s.cfg.cdataBytes) ∧
    (let s := withConf { Conf.reset with clen := 3, brN := 17 }
     s.phase = .idle ∧ s.conf.clen.toNat ≤ s.cfg.cdataBytes ∧ s.conf.brN.toNat > 16) ∧
    (let s := withConf { Conf.reset with clen := 2, brOff := 8, brN := 9 }
     s.phase = .idle ∧ s.conf.clen.toNat ≤ s.cfg.cdataBytes ∧
      s.conf.brOff.toNat + s.conf.brN.toNat > 8 * s.conf.clen.toNat) := by decide

theorem witness_ReadBitsIsTheWeightedSum :
    ∀ i, i < 9 → memGet ([(0, 0xA5), (1, 0x3C)] : Mem Byte) ((7 + i) / 8) =
      some ((fun k => if k = 0 then 0xA5 else 0x3C : Nat → Byte) ((7 + i) / 8)) := by decide

/-- One bit of one byte; a fault; and a memory that differs only in a byte not read. -/
theorem witness_ReadBitsReadsExactlyItsBytes :
    readBits [(0, 0x80)] 7 1 = .ok 1 ∧ readBits [] 7 1 = .error (.bottomRead .cdata 0) ∧
    ∀ k, 7 / 8 ≤ k → k ≤ (7 + 1 - 1) / 8 → memGet ([(0, 0x80), (1, 1)] : Mem Byte) k = memGet [(0, 0x80)] k := by
  refine ⟨by decide, by decide, fun k _ h => ?_⟩
  obtain rfl : k = 0 := by omega
  rfl

theorem witness_EndAndInvalidCodesTouchOnlyStop :
    (inDecode (lzwState 4 3 true []) none).snap.ctrl.strict = true ∧
    (inDecode (lzwState 4 3 false []) none).snap.ctrl.strict = false := by decide

/-- A decode with N = 4095 and W = 12: the next entry makes the peek of R111 due. `outn` pixels of 4 are out, `pos` bits
of a stream of three bytes are read. -/
def fullState (pos outn : Nat) (cdata : Mem Byte) : State :=
  let s := inDecode (lzwState 4 3 false cdata) (some (Str.single 1))
  { s with lzw := { s.lzw with w := 12, n := 4095, pos := pos, outn := outn } }

/-- Nothing out, and all but the last pixel out; no peek, with EARLY_RESET = 1. -/
theorem witness_StringCodeEmitsAndGrows :
    let s := inDecode (lzwState 4 3 false []) (some (Str.single 1))
    (memGet s.dict 7 = some (Str.single 7) ∧ s.lzw.outn ≤ pixelCount s.snap ∧ ¬ grownWidth s = 12) ∧
    (s.lzw.p = some (Str.single 1) ∧ (⟨1, [1]⟩ : Str) = (Str.single 1).snoc (Str.single 1).head) := by decide

theorem witness_StringCode_is :
    let s := inDecode (lzwState 4 3 false []) (some (Str.single 1))
    (IsStringCode (.lzwDict 4 7) s (Str.single 7) ∧ IsStringCode (.lzwKwkwk 4 10) s ⟨1, [1]⟩ ∧ ¬ peekDue s) ∧
    (s.lzw.p = some (Str.single 1) ∧ s.lzw.n < 4096 ∧ ∃ w c, Instr.lzwKwkwk 4 10 = .lzwKwkwk w c) :=
  ⟨⟨.inl ⟨4, 7, rfl, by decide⟩, .inr ⟨4, 10, _, rfl, rfl, rfl⟩, fun h => absurd h.2.1 (by decide)⟩, by decide, by decide, 4, 10, rfl⟩

/-- The peeked code is the last 12 bits of the stream and not the clear code; a byte under it is ⊥; it is the clear code;
fewer than 12 bits are left. -/
theorem witness_ForcedResetKeepsPreviousEntry :
    (let s := fullState 12 4 [(0, 0), (1, 0), (2, 0)]
     IsStringCode (.lzwDict 12 7) s (Str.single 7) ∧ s.lzw.outn ≤ pixelCount s.snap ∧ peekDue s ∧
      s.lzw.pos + 12 ≤ streamBits s.snap ∧ readBits s.cdata s.lzw.pos 12 = .ok 0 ∧ 0 ≠ clearCode s.snap) ∧
    (let s := fullState 12 0 [(0, 0), (1, 0x80), (2, 0)]
     IsStringCode (.lzwDict 12 7) s (Str.single 7) ∧ s.lzw.outn ≤ pixelCount s.snap ∧ peekDue s ∧
      readBits s.cdata s.lzw.pos 12 = .ok (clearCode s.snap)) ∧
    (let s := fullState 12 0 [(0, 0), (1, 0)]
     IsStringCode (.lzwDict 12 7) s (Str.single 7) ∧ s.lzw.outn ≤ pixelCount s.snap ∧ peekDue s ∧
      s.lzw.pos + 12 ≤ streamBits s.snap ∧ readBits s.cdata s.lzw.pos 12 = .error (.bottomRead .cdata 2)) ∧
    (let s := fullState 13 0 []
     IsStringCode (.lzwDict 12 7) s (Str.single 7) ∧ s.lzw.outn ≤ pixelCount s.snap ∧ peekDue s ∧
      s.lzw.pos + 12 > streamBits s.snap) := by
  refine ⟨⟨.inl ⟨12, 7, rfl, ?_⟩, ?_, ⟨?_, ?_, ?_⟩, ?_, ?_, ?_⟩, ⟨.inl ⟨12, 7, rfl, ?_⟩, ?_, ⟨?_, ?_, ?_⟩, ?_⟩,
    ⟨.inl ⟨12, 7, rfl, ?_⟩, ?_, ⟨?_, ?_, ?_⟩, ?_, ?_⟩, ⟨.inl ⟨12, 7, rfl, ?_⟩, ?_, ⟨?_, ?_, ?_⟩, ?_⟩⟩ <;> decide

theorem witness_DecodeStopsBeforeReading :
    (let s := fullState 0 4 []
     s.lzw.outn ≥ pixelCount s.snap) ∧
    (let s := fullState 13 3 []
     s.lzw.outn < pixelCount s.snap ∧ s.lzw.pos + s.lzw.w > streamBits s.snap) := by decide

theorem witness_LzwStartEstablishesInvariant :
    (let s : State := { State.reset with snap := { Conf.reset with imgCfg := ⟨2, false, false, false, 0⟩ } }
     2 ≤ s.snap.imgCfg.mcs.toNat ∧ s.snap.imgCfg.mcs.toNat ≤ 8) ∧
    (let s : State := { State.reset with snap := { Conf.reset with imgCfg := ⟨8, false, false, false, 0⟩ } }
     2 ≤ s.snap.imgCfg.mcs.toNat ∧ s.snap.imgCfg.mcs.toNat ≤ 8) := by decide

/-- The decoder after LzwStart, one pixel expected, one byte of code 1 and zeros. -/
def startState : State :=
  lzwStart { State.reset with
    snap := { Conf.reset with ctrl := ⟨false, false, false⟩, iw := 1, ih := 1, clen := 1, imgCfg := ⟨3, false, false, false, 0⟩ }
    cdata := [(0, 1)] }

theorem startState_dict (c : Nat) : memGet startState.dict c =
    if c < 8 then some (Str.single (BitVec.ofNat 8 c)) else none :=
  memGet_map_range 8 (fun c => Str.single (BitVec.ofNat 8 c)) c

theorem startState_length (c : Nat) (str : Str) (h : memGet startState.dict c = some str) : str.length = 1 := by
  rw [startState_dict] at h
  split at h
  · cases h; rfl
  · cases h

theorem startState_inv : LzwInv startState where
  mcs := by decide
  width := by decide
  count := by decide
  fits := .inl (by decide)
  least := .inl (by decide)
  defined c := by
    rw [startState_dict, show clearCode startState.snap = 8 from rfl, show startState.lzw.n = 10 from rfl]
    split <;> simp <;> omega
  literal c h := by rw [startState_dict, if_pos (show c < 8 from h)]
  longer c str h hs := by
    rw [startState_dict, if_neg (by have : 10 ≤ c := h; omega)] at hs
    cases hs
  prefixed c str h hs := by
    rw [startState_dict, if_neg (by have : 10 ≤ c := h; omega)] at hs
    cases hs
  prevEntry h := absurd h (by decide)
  dictBytes c str h x hx := by
    rw [startState_dict] at h
    split at h
    · cases h
      simp only [Str.single, Str.bytes, List.mem_singleton] at hx
      subst hx
      show (BitVec.ofNat 8 c).toNat < 8
      rw [BitVec.toNat_ofNat]; omega
    · cases h
  prevBytes str h := by cases h
  outn := by decide
  output k b h := by cases h
  written k h := absurd h (Nat.not_lt_zero _)
  pos := by decide
  entryLen c str h := by rw [startState_length c str h]; exact Nat.zero_le _
  prevLen str h := by cases h

theorem witness_LzwStepKeepsInvariant :
    LzwInv startState ∧ cdataLoaded startState.snap startState ∧ (∃ t, lzwStep startState = .ok t) ∧
      pixelCount startState.snap < 8390656 ∧ memGet startState.dict 7 = some (Str.single 7) :=
  ⟨startState_inv, by unfold cdataLoaded; decide, ⟨_, rfl⟩, by decide, by decide⟩

theorem witness_DictionaryIsPrefixClosedWithoutEarlyReset :
    LzwInv startState ∧ DictPrefixInv startState ∧ startState.snap.ctrl.earlyReset = false ∧
      ∃ t, lzwStep startState = .ok t := by
  refine ⟨startState_inv, ⟨fun str h => (by cases h), fun c str h hs => ?_, fun c str h => ?_⟩, rfl, _, rfl⟩
  · rw [startState_dict, if_neg (by have : 10 ≤ c := h; omega)] at hs
    cases hs
  · rw [startState_length c str h]; decide

theorem witness_DecodeLoopEndsWithinBound :
    ∃ t, lzwLoop (lzwBound startState.snap) (lzwStart startState) = .ok t ∧ t.status.stop = .count :=
  ⟨_, rfl, rfl⟩

/-- An idle machine with a stream of `len` bytes, one pixel, MCS = 3: DECODE's and FRAME's checks pass. -/
def frameState (strict : Bool) (cdata : Mem Byte) : State :=
  { bw { bwConf 1 with ctrl := ⟨false, true, strict⟩, imgCfg := ⟨3, false, false, false, 0⟩, clen := 2 } [] with
    cdata := cdata }

theorem witness_DecodeFillsIdxbuf :
    let s := frameState true [(0, 0xB8), (1, 0x92)]
    s.phase = .idle ∧ 2 ≤ s.cfg.mcsLo ∧ failedCheck .decode s.cfg s.conf = none ∧
      ∀ k, k < s.conf.clen.toNat → (memGet s.cdata k).isSome = true := by decide

/-- An interlaced image of eight rows, RBUF empty. -/
theorem witness_ReorderMovesEveryCell :
    let s := withConf { Conf.reset with iw := 1, ih := 8, imgCfg := ⟨0, true, false, false, 0⟩ }
    s.phase = .idle ∧ failedCheck .reorder s.cfg s.conf = none ∧ memWf s.cfg.pixMax s.rbuf = true := by decide

theorem witness_BackgroundDisposalsFillCanvas :
    backgroundPixel (seedState true).snap (seedState true) = some ⟨255, 255, 255, 255⟩ ∧
    backgroundPixel State.reset.snap State.reset = some ⟨0, 0, 0, 255⟩ := by decide

/-- PREV loaded up to the last canvas cell, and PREV with ⊥ in that cell. -/
theorem witness_DoNotDisposeCopiesPreviousFrame :
    (∀ k, k < canvasCount (seedState true).snap → (memGet (seedState true).prev k).isSome = true) ∧
    (let s : State := { seedState true with prev := [] }
     0 < canvasCount s.snap ∧ memGet s.prev 0 = none) := by decide

theorem witness_RestoreToPreviousCopiesKeptFrame :
    ((seedState true).frameInfo.keepV = true ∧
      ∀ k, k < canvasCount (seedState true).snap → (memGet (seedState true).keep k).isSome = true) ∧
    (seedState false).frameInfo.keepV = false ∧
    backgroundPixel (seedState false).snap (seedState false) = some ⟨255, 255, 255, 255⟩ := by decide

/-- A GCE with TF = 1 and delay 0, one with TF = 0 and delay 1, no GCE; a local table, a global one, none. -/
theorem witness_FrameParametersResolve :
    (let c : Conf := { Conf.reset with packed := 1, imgCfg := ⟨0, false, true, true, 7⟩ }
     c.imgCfg.gceV = true ∧ c.packed.getLsbD 0 = true ∧ c.delay = 0 ∧ c.imgCfg.lctEn = true) ∧
    (let c : Conf := { Conf.reset with packed := 0xFE, delay := 1, lsd := 0x80, imgCfg := ⟨0, false, false, true, 0⟩ }
     c.imgCfg.gceV = true ∧ c.packed.getLsbD 0 = false ∧ c.delay ≠ 0 ∧ c.imgCfg.lctEn = false ∧
      c.lsd.getLsbD 7 = true) ∧
    (Conf.reset.imgCfg.gceV = false ∧ Conf.reset.imgCfg.lctEn = false ∧ Conf.reset.lsd.getLsbD 7 = false) ∧
    (let s := accept .compose (withConf { Conf.reset with lsd := 0x80, bgIdx := 1 })
     backgroundPixel s.snap s = none) ∧
    backgroundPixel (seedState true).snap (seedState true) = some ⟨255, 255, 255, 255⟩ := by decide

/-- Two pixels, the second outside the rectangle; table and history loaded. -/
def composeState (last : BitVec 3) : State :=
  { bw { bwConf 2 with iw := 1 } [(0, 1)] with
    prev := [(0, ⟨9, 9, 9, 255⟩), (1, ⟨8, 8, 8, 255⟩)], keep := [(0, ⟨7, 7, 7, 255⟩), (1, ⟨6, 6, 6, 255⟩)]
    frameInfo := ⟨last, true⟩ }

theorem composeState_table (last : BitVec 3) : tableLoaded (composeState last).conf (composeState last) := by
  intro i hi
  rw [show tableLen (composeState last).conf = 2 from (by decide : tableLen { bwConf 2 with iw := 1 } = 2)] at hi
  simp only [show tableSel (composeState last).conf = .globalTable from
    (by decide : tableSel { bwConf 2 with iw := 1 } = .globalTable)]
  interval_cases i <;> rfl

theorem composeState_history (last : BitVec 3) : historyLoaded (composeState last).conf (composeState last) := by
  intro k hk
  change k < 2 at hk
  interval_cases k <;> exact ⟨fun _ => rfl, fun _ _ => rfl⟩

theorem witness_ComposePaintsEveryPixel :
    (composeState 3).phase = .idle ∧ failedCheck .compose (composeState 3).cfg (composeState 3).conf = none ∧
      tableLoaded (composeState 3).conf (composeState 3) ∧ historyLoaded (composeState 3).conf (composeState 3) ∧
      1 < (composeState 3).conf.sw.toNat ∧ 0 < (composeState 3).conf.sh.toNat :=
  ⟨rfl, by decide, composeState_table 3, composeState_history 3, by decide, by decide⟩

theorem witness_ComposeEmitsFrameAndHistory :
    (composeState 3).phase = .idle ∧ failedCheck .compose (composeState 3).cfg (composeState 3).conf = none ∧
      ∃ t, exec .compose (composeState 3) = .next t := ⟨rfl, by decide, _, rfl⟩

/-- The pixel (1, 0) is outside the rectangle, at its right edge. -/
theorem witness_AfterDisposal2OutsideIsBackground :
    (composeState 2).phase = .idle ∧ failedCheck .compose (composeState 2).cfg (composeState 2).conf = none ∧
      (composeState 2).frameInfo.lastDisp = 2 ∧ (∃ t, exec .compose (composeState 2) = .next t) ∧
      1 < (composeState 2).conf.sw.toNat ∧ 0 < (composeState 2).conf.sh.toNat ∧
      inside (composeState 2).conf 1 0 = false := ⟨rfl, by decide, rfl, ⟨_, rfl⟩, by decide, by decide, by decide⟩

theorem witness_AfterDisposal1OutsideIsPreviousFrame :
    (composeState 1).phase = .idle ∧ failedCheck .compose (composeState 1).cfg (composeState 1).conf = none ∧
      (composeState 1).frameInfo.lastDisp = 1 ∧ (∃ t, exec .compose (composeState 1) = .next t) ∧
      1 < (composeState 1).conf.sw.toNat ∧ 0 < (composeState 1).conf.sh.toNat ∧
      inside (composeState 1).conf 1 0 = false := ⟨rfl, by decide, rfl, ⟨_, rfl⟩, by decide, by decide, by decide⟩

/-- RBUF contents that differ at E = 1, the first cell past the image. -/
theorem witness_PaintReadsOnlyCellsBelowE :
    let s := composeState 1
    let m : Mem Byte := [(0, 1), (1, 7)]
    (∀ j, j < pixelCount s.conf → memGet m j = memGet s.rbuf j) ∧ memGet m 1 ≠ memGet s.rbuf 1 ∧
      ∃ t, exec .compose { s with rbuf := m } = .next t := by
  refine ⟨fun j hj => ?_, by decide, _, rfl⟩
  have : j < 1 := hj
  interval_cases j
  rfl

/-- Both warnings: a ⊥ cell, an index at TLEN. -/
theorem witness_ComposeWarnsExactlyOnBadPixels :
    (bw (bwConf 2) []).phase = .idle ∧ failedCheck .compose Config.default (bwConf 2) = none ∧
    after .compose State.warn (bw (bwConf 2) [(0, 2)]) = some ⟨false, true, true⟩ := by decide

theorem witness_FrameHistoryNeedsOnlyPrevAndKeep :
    (∃ t, exec .newstream State.reset = .next t) ∧ Represents (canvasCount State.reset.conf) [] State.reset ∧
    (let s := bw (bwConf 1) [(0, 1)]
     s.phase = .idle ∧ Represents (canvasCount s.conf) [] s ∧
      ∃ t, exec .compose s = .next t ∧ t.status.err = false) ∧
    (let s := frameState false [(0, 0x18), (1, 0x09)]
     s.phase = .idle ∧ Represents (canvasCount s.conf) [] s ∧ ∃ t, exec .frame s = .next t ∧ t.status.err = false) := by
  have h : ∀ s : State, s.frameInfo = ⟨2, false⟩ → Represents (canvasCount s.conf) [] s := by
    intro s hs
    simp [Represents, hs]
  exact ⟨⟨_, rfl⟩, h _ rfl, ⟨rfl, h _ rfl, _, rfl, rfl⟩, ⟨rfl, h _ rfl, _, rfl, rfl⟩⟩

theorem witness_FrameIsDecodeReorderCompose :
    let s := frameState false [(0, 0x18), (1, 0x09)]
    s.phase = .idle ∧ failedCheck .frame s.cfg s.conf = none ∧
      ∃ a, exec .decode s = .next a ∧ a.status.err = false ∧ ∃ b, exec .reorder a = .next b :=
  ⟨rfl, by decide, _, rfl, rfl, _, rfl⟩

theorem witness_FrameStopsAtLzwcode :
    let s := frameState true [(0, 0xB8), (1, 0x92)]
    s.phase = .idle ∧ failedCheck .frame s.cfg s.conf = none ∧
      ∃ a, exec .decode s = .next a ∧ a.status.errcode = .lzwcode :=
  ⟨rfl, by decide, _, rfl, rfl⟩

theorem witness_FrameEmitsOneFrame :
    let s := frameState false [(0, 0x18), (1, 0x09)]
    s.phase = .idle ∧ 2 ≤ s.cfg.mcsLo ∧ failedCheck .frame s.cfg s.conf = none ∧ s.conf.ctrl.strict = false ∧
      cdataLoaded s.conf s ∧ tableLoaded s.conf s ∧ historyLoaded s.conf s := by
  refine ⟨rfl, by decide, by decide, rfl, by unfold cdataLoaded; decide, fun i hi => ?_, fun k _ => ?_⟩
  · change i < 2 at hi
    change (memGet (frameState false [(0, 0x18), (1, 0x09)]).gct i).isSome = true
    interval_cases i <;> rfl
  · exact ⟨fun h => absurd h (by decide), fun h => absurd h (by decide)⟩

/-- The second state differs in every memory and register the frame does not depend on. -/
theorem witness_FrameDependsOnlyOnItsInputs :
    let s := frameState false [(0, 0x18), (1, 0x09)]
    let s' : State := { s with idxbuf := [(0, 3)], rbuf := [(5, 1)], canvas := [(0, ⟨1, 2, 3, 4⟩)], dict := [(0, Str.single 3)], lzw := ⟨5, 17, some (Str.single 1), 3, 2⟩, brVal := 9 }
    s.phase = .idle ∧ s'.phase = .idle ∧ memsWf s = true ∧ memsWf s' = true ∧
      (∃ t, exec .frame s = .next t ∧ t.status.err = false) ∧ ∃ t, exec .frame s' = .next t ∧ t.status.err = false :=
  ⟨rfl, rfl, by decide, by decide, ⟨_, rfl, rfl⟩, _, rfl, rfl⟩

/-- A decode loop of the smallest width. -/
theorem witness_EngineAlwaysEnds :
    let s := inDecode (lzwState 4 3 false []) none
    let t : State := { s with lzw := { s.lzw with w := 1 } }
    t.phase = .busy .decode .lzw ∧ ∀ op, t.phase = .busy op .lzw → 1 ≤ t.lzw.w :=
  ⟨rfl, fun _ _ => by decide⟩

/-- A whole FRAME; a step in the decode loop and a step of Paint. -/
theorem witness_RunningCommandIgnoresConfiguration :
    (Op.frame ≠ .sreset ∧ (commandBody .frame (accept .frame (frameState false [(0, 0x18), (1, 0x09)]))).toOption.isSome = true) ∧
    (let s := inDecode (frameState false [(0, 0x18), (1, 0x09)]) none
     s.phase ≠ .busy .sreset .start ∧ (engineStep s).toOption.isSome = true) ∧
    (let s := setPhase (.busy .compose (.paint 0 0)) (accept .compose (composeState 1))
     s.phase ≠ .busy .sreset .start ∧ (engineStep s).toOption.isSome = true) := by
  decide

theorem witness_InterruptFollowsDoneAndEnable :
    (State.reset.phase = .idle ∧ ∃ t, exec (instrOf .nop) State.reset = .next t) ∧ (2 : Word).getLsbD 1 = true ∧
    (rejectCommand State.reset).status.done = true :=
  ⟨⟨rfl, _, rfl⟩, by decide, rfl⟩

/-- The first and the last word of each reserved range; a byte past a word, a halfword at a word, the window's last
byte; the bytes next to the window. -/
theorem witness_UnalignedAccessIsBusError :
    (∀ off ∈ [0x50, 0x3FC, 0xC00, 0xFFFFFC, 0x8000000, 0xFFFFFFC], off % 4 = 0 ∧
      ((0x50 ≤ off ∧ off < 0x400) ∨ (0xC00 ≤ off ∧ off < 0x1000000) ∨ (0x8000000 ≤ off ∧ off < 2 ^ 28))) ∧
    (State.reset.cfg.base ≤ 1 ∧ 1 < State.reset.cfg.base + 2 ^ 28 ∧ (1 - State.reset.cfg.base) % 4 ≠ 0) ∧
    (State.reset.cfg.base ≤ 0 ∧ 0 < State.reset.cfg.base + 2 ^ 28 ∧ 2 ≠ 4) ∧
    (State.reset.cfg.base ≤ 2 ^ 28 - 1 ∧ 2 ^ 28 - 1 < State.reset.cfg.base + 2 ^ 28 ∧
      (2 ^ 28 - 1 - State.reset.cfg.base) % 4 ≠ 0) ∧
    (let s : State := { State.reset with cfg := { Config.default with base := 8 } }
     7 < s.cfg.base ∧ s.cfg.base + 2 ^ 28 ≤ 2 ^ 28 + 8) := by decide

/-- The first and the last word of each memory region, and the words next to them. -/
theorem witness_MemoryAccessWhileBusyFaults :
    busy busyState = true ∧
    (∀ off ∈ [0x400, 0xBFC, 0x1000000, 0x7FFFFFC], off % 4 = 0 ∧ off < 2 ^ 28 ∧
      ((0x400 ≤ off ∧ off < 0xC00) ∨ (0x1000000 ≤ off ∧ off < 0x8000000))) ∧
    ∀ off ∈ [0x0, 0x3FC, 0xC00, 0xFFFFFC, 0x8000000, 0xFFFFFFC], off % 4 = 0 ∧ off < 2 ^ 28 ∧
      (off < 0x400 ∨ (0xC00 ≤ off ∧ off < 0x1000000) ∨ 0x8000000 ≤ off) := by decide

/-- An idle machine and a busy one that meets the invariant of STATUS; the last register of each list. -/
theorem witness_ConfigurationRegistersReadBack :
    busy State.reset = false ∧ (busy busyState = true ∧ statusInv busyState) ∧
    0x4C ∈ [0x34, 0x38, 0x3C, 0x40, 0x44, 0x48, 0x4C] :=
  ⟨rfl, ⟨rfl, fun _ => ⟨rfl, rfl, rfl⟩, by decide⟩, by decide⟩

/-- The last whole CDATA word, a word half past the size, the last word of the region; a loaded byte; the last table
entries; the last OUT pixel and the one past the size; the last IDXBUF word. -/
theorem witness_MemoryWordsReadBack :
    busy State.reset = false ∧ (0xFFFFC % 4 = 0 ∧ 0xFFFFC + 4 ≤ State.reset.cfg.cdataBytes ∧ 0xFFFFC < 2 ^ 24) ∧
    (let s : State := { State.reset with cfg := { Config.default with cdataBytes := 6 }, cdata := [(5, 9)] }
     busy s = false ∧ 4 % 4 = 0 ∧ 4 + 1 < s.cfg.cdataBytes ∧ s.cfg.cdataBytes ≤ 4 + 2 ∧ memGet s.cdata (4 + 1) = some 9) ∧
    State.reset.cfg.cdataBytes ≤ 0xFFFFFC ∧ 255 < 256 ∧
    (let s : State := { State.reset with prev := [(0xFFFFF, ⟨1, 2, 3, 4⟩)] }
     busy s = false ∧ 0xFFFFF < 2 ^ 24 ∧ 0xFFFFF < s.cfg.canvasPixMax ∧ memGet s.prev 0xFFFFF = some ⟨1, 2, 3, 4⟩ ∧
      s.cfg.canvasPixMax ≤ 0x100000 ∧ 0x100000 < 2 ^ 24) ∧
    0xFFFFFC < 2 ^ 24 ∧ 0xFFFFFC % 4 = 0 := by decide

/-- A power-on reset in the middle of a command. -/
theorem witness_ResetRegistersAndMemories :
    let s : State := { busyState with host := [.powerOnReset], sched := [.host] }
    s.host = .powerOnReset :: [] ∧ nextAgent s = .host ∧ Reg.warn ≠ .ctrl ∧ Reg.warn ≠ .frameInfo := by decide

/-- The machine in the decode loop of `startState`, and after it has stopped. -/
def loopState (p : Point) (stop : Stop) : State :=
  { startState with phase := .busy .decode p, status := { startState.status with stop := stop } }

theorem loopState_inv (p : Point) (stop : Stop) : LzwInv (loopState p stop) :=
  lzwInv_congr startState_inv rfl rfl rfl rfl

/-- An idle machine, one in a decode loop, one after it. -/
theorem witness_StepKeepsInvariant :
    (let s := stageCommand 7 (frameState false [(0, 0x18), (1, 0x09)])
     Inv s ∧ ∃ t, step s = .next t) ∧
    (Inv (loopState .lzw .none) ∧ ∃ t, step (loopState .lzw .none) = .next t) ∧
    (Inv (loopState .lzwEnd .input) ∧ ∃ t, step (loopState .lzwEnd .input) = .next t) := by
  have short (p : Point) (stop : Stop) : dictShort (loopState p stop) := fun _ c str h => by
    rw [startState_length c str h]; decide
  refine ⟨⟨⟨rfl, ⟨fun h => absurd h (by decide), by decide⟩, by decide, by unfold lzwFit; decide,
      fun _ c str h => (by cases h), trivial, trivial⟩, _, rfl⟩,
    ⟨⟨rfl, ⟨fun _ => ⟨rfl, rfl, rfl⟩, by decide⟩, by decide, by unfold lzwFit; decide, short _ _, ⟨rfl, fun _ => by decide⟩,
      loopState_inv _ _, rfl⟩, _, rfl⟩,
    ⟨⟨rfl, ⟨fun _ => ⟨rfl, rfl, rfl⟩, by decide⟩, by decide, by unfold lzwFit; decide, short _ _, ⟨rfl, fun _ => by decide⟩,
      loopState_inv _ _, by decide⟩, _, rfl⟩⟩

/-- A sub-block of one byte and one of 255. -/
theorem witness_SubBlockRunsReadBack :
    ∀ b ∈ [([1] : List Byte), List.replicate 255 0], 1 ≤ b.length ∧ b.length ≤ 255 := by
  intro b hb
  rcases List.mem_cons.1 hb with rfl | hb
  · decide
  · rw [List.mem_singleton.1 hb, List.length_replicate]
    omega

end Sys2Proof.Tests
end

section
/-! The encoding family: the classes of LZW codes (R76) and the reserved command words (R71, R72). -/

namespace Sys2Proof

/-! ## The classes of a code -/

theorem decodeCode_clear (x : CodeCtx) : decodeCode x (2 ^ x.mcs) = .lzwClear x.width (2 ^ x.mcs) := by
  simp [decodeCode]

theorem decodeCode_end (x : CodeCtx) : decodeCode x (2 ^ x.mcs + 1) = .lzwEnd x.width (2 ^ x.mcs + 1) := by
  simp [decodeCode]

section
variable {x : CodeCtx} {c : Nat} (hclear : c ≠ 2 ^ x.mcs) (hend : c ≠ 2 ^ x.mcs + 1)
include hclear hend

theorem decodeCode_dict (hlt : c < x.count) : decodeCode x c = .lzwDict x.width c := by
  simp [decodeCode, hclear, hend, hlt]

theorem decodeCode_kwkwk (heq : c = x.count) (hprev : x.hasPrev = true) : decodeCode x c = .lzwKwkwk x.width c := by
  have hnot : ¬ c < x.count := heq.not_lt
  simp only [decodeCode, if_neg hclear, if_neg hend, if_neg hnot, if_pos (And.intro heq hprev)]

/-- A code past the dictionary, or the next entry's code with no previous entry to make it from. -/
theorem decodeCode_invalid (h : c > x.count ∨ c = x.count ∧ x.hasPrev = false) :
    decodeCode x c = .lzwInvalid x.width c := by
  have hdict : ¬ c < x.count := by omega
  have hkwkwk : ¬ (c = x.count ∧ x.hasPrev = true) := by
    rintro ⟨heq, hprev⟩
    rcases h with hgt | ⟨-, hnone⟩
    · exact hgt.ne' heq
    · simp [hnone] at hprev
  simp only [decodeCode, if_neg hclear, if_neg hend, if_neg hdict, if_neg hkwkwk]

end

/-! ## Reserved command words -/

/-- RES is tested before OP (R72). -/
theorem decodeCommand_of_res_ne_zero {w : Word} (h : w.extractLsb' 4 28 ≠ 0) :
    decodeCommand w = .reservedRes (w.extractLsb' 4 28) (w.extractLsb' 0 4) :=
  if_pos h

theorem decodeCommand_of_reserved_op {w : Word} (hres : w.extractLsb' 4 28 = 0)
    (hop : 8 ≤ (w.extractLsb' 0 4).toNat) : decodeCommand w = .reservedOp (w.extractLsb' 0 4) := by
  rw [decodeCommand, if_neg (not_not_intro hres)]
  split
  case h_9 => rfl
  all_goals omega

namespace Machine

/-- A reserved word while IDLE (R83): BADCMD at once, OVR and STOP kept, no snapshot. -/
theorem runReserved_idle {s : State} (h : s.phase = .idle) :
    runReserved s = .next { s with status := ⟨true, true, s.status.ovr, .badcmd, s.status.stop⟩ } := by
  have hreject : rejectCommand s = { s with status := ⟨true, true, s.status.ovr, .badcmd, s.status.stop⟩ } := by
    cases s; cases h; rfl
  simp [runReserved, busy_of_idle h, hreject]

theorem exec_reservedOp (op : BitVec 4) (s : State) : exec (.reservedOp op) s = runReserved s := rfl

theorem exec_reservedRes (res : BitVec 28) (op : BitVec 4) (s : State) :
    exec (.reservedRes res op) s = runReserved s := rfl

/-! ## The statements -/

/-- Settles O3: one lemma for each class of R76. -/
theorem codeClassesInTableOrder : Obligations.CodeClassesInTableOrder := by
  unfold Obligations.CodeClassesInTableOrder
  intro x c
  refine ⟨?clearCode, ?endCode, ?dict, ?kwkwk, ?invalid⟩
  case clearCode => rintro rfl; exact decodeCode_clear x
  case endCode => rintro rfl; exact decodeCode_end x
  case dict => exact fun hlt hclear hend => decodeCode_dict hclear hend hlt
  case kwkwk => exact fun heq hprev hclear hend => decodeCode_kwkwk hclear hend heq hprev
  case invalid => exact fun h hclear hend => decodeCode_invalid hclear hend h

/-- Settles O10: the decoder tests RES, then OP, and both kinds of reserved word run `runReserved`. -/
theorem reservedWordsRaiseBadcmd : Obligations.ReservedWordsRaiseBadcmd := by
  unfold Obligations.ReservedWordsRaiseBadcmd
  refine ⟨fun w => ⟨?op, ?res⟩, fun s res op hidle => ⟨?execOp, ?execRes⟩⟩
  case op => rintro ⟨hres, hop⟩; exact decodeCommand_of_reserved_op hres hop
  case res => exact decodeCommand_of_res_ne_zero
  case execOp => rw [exec_reservedOp, runReserved_idle hidle]
  case execRes => rw [exec_reservedRes, runReserved_idle hidle]

end Machine
end Sys2Proof
end

section
/-! The commands' family: what an accepted command ends with (R83, R84), and NOP, SRESET, NEWSTREAM and BITREAD
(R85 to R88). -/

namespace Sys2Proof.Machine

/-! ## Acceptance and the two ends of a command -/

/-- A CMD write while BUSY only sets OVR (R83, R187). -/
theorem exec_instrOf_busy {s : State} (h : busy s = true) (op : Op) :
    exec (instrOf op) s = .next { s with status := { s.status with ovr := true } } := by
  rw [exec_instrOf, runCommand_busy h]
  rfl

section
variable {s : State} (hidle : s.phase = .idle)
include hidle

/-- From idle to completion (R83): the snapshot and STATUS change, and STOP only as `clearsStop` says. -/
theorem complete_accept (op : Op) :
    complete (accept op s) = { s with
      snap := s.conf, status := endStatus s .none (if clearsStop op then .none else s.status.stop) } := by
  cases s; cases hidle; cases op <;> rfl

/-- From idle to an error (R83, R167): the same, with ERR and the code. -/
theorem raiseError_accept (op : Op) {code : ErrCode} (hcode : code ≠ .none) :
    raiseError code (accept op s) = { s with
      snap := s.conf, status := endStatus s code (if clearsStop op then .none else s.status.stop) } := by
  have herr : (code != .none) = true := bne_iff_ne.2 hcode
  rw [endStatus, herr]
  cases s; cases hidle; cases op <;> rfl

/-! ## BITREAD: its checks -/

/-- A failed check ends BITREAD with its code, and BR_VAL keeps its value (R84, R88). -/
theorem exec_bitread_of_failedCheck {code : ErrCode} (hcode : code ≠ .none)
    (hfail : failedCheck .bitread s.cfg s.conf = some code) :
    exec .bitread s = .next { s with snap := s.conf, status := endStatus s code s.status.stop } := by
  calc exec .bitread s
      = asOutcome (checked .bitread bitreadWork (accept .bitread s)) := exec_instrOf_idle hidle .bitread
    _ = .next (raiseError code (accept .bitread s)) := by
        rw [checked_of_some (op := .bitread) (s := accept .bitread s) hfail, asOutcome_ok]
    _ = _ := congrArg _ (raiseError_accept hidle .bitread hcode)

/-- With its checks passed, BITREAD is its work on the live configuration, which the snapshot copies (R51, R88). -/
theorem exec_bitread_of_checks_pass (hpass : failedCheck .bitread s.cfg s.conf = none) :
    exec .bitread s = asOutcome ((readBits s.cdata s.conf.brOff.toNat s.conf.brN.toNat).bind fun v =>
      .ok { s with snap := s.conf, status := endStatus s .none s.status.stop, brVal := BitVec.ofNat 16 v }) := by
  have hend (v : BitVec 16) : complete { accept .bitread s with brVal := v } =
      { s with snap := s.conf, status := endStatus s .none s.status.stop, brVal := v } :=
    congrArg (fun t : State => { t with brVal := v }) (complete_accept hidle .bitread)
  calc exec .bitread s
      = asOutcome (checked .bitread bitreadWork (accept .bitread s)) := exec_instrOf_idle hidle .bitread
    _ = asOutcome (bitreadWork (accept .bitread s)) := by
        rw [checked_of_none (op := .bitread) (s := accept .bitread s) hpass]
    _ = _ := by simp only [bitreadWork, hend]; rfl

end

/-- The rows V3, V5 and V6 of R84, in table order. -/
theorem failedCheck_bitread (p : Config) (c : Conf) : failedCheck .bitread p c =
    if c.clen.toNat > p.cdataBytes then some .cfg
    else if c.brN.toNat > 16 ∨ c.brOff.toNat + c.brN.toNat > 8 * c.clen.toNat then some .brrange
    else none := by
  by_cases h3 : p.cdataBytes < c.clen.toNat
  · simp [failedCheck, checksOf, checkFails, checkCode, h3]
  · by_cases h5 : 16 < c.brN.toNat
    · simp [failedCheck, checksOf, checkFails, checkCode, Config.brNMax, h3, h5]
    · by_cases h6 : 8 * c.clen.toNat < c.brOff.toNat + c.brN.toNat <;>
        simp [failedCheck, checksOf, checkFails, checkCode, Config.brNMax, streamBits, h3, h5, h6]

/-! ## ReadBits on a byte never written -/

/-- The converse of `readBits_ok`: ReadBits reads every byte of its field (R96). -/
theorem isSome_of_readBits_eq_ok {m : Mem Byte} {off n v : Nat} (h : readBits m off n = .ok v) {i : Nat}
    (hi : i < n) : (memGet m ((off + i) / 8)).isSome = true := by
  induction n generalizing off v i with
  | zero => omega
  | succ n ih =>
    obtain ⟨b, hbit, h⟩ := bind_eq_ok.1 h
    obtain ⟨r, hrest, -⟩ := bind_eq_ok.1 h
    cases i with
    | zero =>
      by_contra hnone
      rw [streamBit_error (by simpa using hnone)] at hbit
      cases hbit
    | succ i =>
      rw [show off + (i + 1) = off + 1 + i by omega]
      exact ih hrest (by omega)

/-- A ⊥ byte of the field makes ReadBits the fault of R172, at a ⊥ byte (R94). -/
theorem readBits_eq_error_of_bottom {m : Mem Byte} {off n i : Nat} (hi : i < n)
    (hbottom : memGet m ((off + i) / 8) = none) :
    ∃ k, readBits m off n = .error (.bottomRead .cdata k) ∧ memGet m k = none := by
  cases hread : readBits m off n with
  | ok v => simpa [hbottom] using isSome_of_readBits_eq_ok hread hi
  | error f =>
    obtain ⟨j, -, hnone, rfl⟩ := readBits_error hread
    exact ⟨_, rfl, hnone⟩

/-! ## The statements -/

/-- Settles O15: with R84's rows for BITREAD decided, its work is ReadBits, which gives a value on loaded bytes and
faults on a ⊥ byte. -/
theorem bitreadReadsTheField : Obligations.BitreadReadsTheField := by
  unfold Obligations.BitreadReadsTheField
  refine ⟨by decide, fun s hidle => ⟨fun hlen hn hfield => ?passed, fun hlen => ?cfg, fun hlen hrange => ?brrange⟩⟩
  case passed =>
    have hpass : failedCheck .bitread s.cfg s.conf = none := by
      rw [failedCheck_bitread, if_neg (by omega), if_neg (by omega)]
    have hexec := exec_bitread_of_checks_pass hidle hpass
    refine ⟨fun hloaded => ?_, fun i hi hbottom => ?_⟩
    · obtain ⟨v, hv⟩ := readBits_ok hloaded
      have hlt := readBits_lt hv
      refine ⟨v, hv, hlt, fun hzero => ?_, by rw [hexec, hv]; rfl⟩
      simpa [hzero] using hlt
    · obtain ⟨k, hk, hnone⟩ := readBits_eq_error_of_bottom hi hbottom
      exact ⟨k, by rw [hexec, hk]; rfl, hnone⟩
  case cfg =>
    exact exec_bitread_of_failedCheck hidle (by decide) (by rw [failedCheck_bitread, if_pos hlen])
  case brrange =>
    exact exec_bitread_of_failedCheck hidle (by decide)
      (by rw [failedCheck_bitread, if_neg hlen.not_gt, if_pos hrange])

/-- Settles O12: NOP's body is the completion of the accepted state. -/
theorem nopCompletesAtOnce : Obligations.NopCompletesAtOnce := by
  unfold Obligations.NopCompletesAtOnce
  refine ⟨by decide, fun s hidle => ?_, fun s hbusy => exec_instrOf_busy hbusy .nop, by decide⟩
  calc exec .nop s
      = .next (complete (accept .nop s)) := exec_instrOf_idle hidle .nop
    _ = _ := congrArg _ (complete_accept hidle .nop)

/-- Settles O13: the body of SRESET, on the accepted state, sets each register to the value R53 gives it. -/
theorem sresetResetsRegistersKeepsMemories : Obligations.SresetResetsRegistersKeepsMemories := by
  unfold Obligations.SresetResetsRegistersKeepsMemories
  refine ⟨by decide, fun s hbusy => exec_instrOf_busy hbusy .sreset, fun s hidle => ?_⟩
  calc exec .sreset s
      = .next { complete (accept .sreset s) with
          conf := Conf.reset, status := ⟨true, false, false, .none, .none⟩, warn := State.reset.warn
          brVal := State.reset.brVal, lzw := State.reset.lzw, frameNo := State.reset.frameNo
          frameInfo := State.reset.frameInfo, dly := State.reset.dly } := exec_instrOf_idle hidle .sreset
    _ = _ := by rw [complete_accept hidle]; rfl

/-- Settles O14: the body of NEWSTREAM is the completion with the history's registers forgotten. -/
theorem newstreamForgetsFrameHistory : Obligations.NewstreamForgetsFrameHistory := by
  unfold Obligations.NewstreamForgetsFrameHistory
  refine ⟨by decide, fun s hidle => ?_⟩
  calc exec .newstream s
      = .next { complete (accept .newstream s) with
          frameNo := 0, frameInfo := ⟨2, false⟩, warn := ⟨false, false, false⟩, dly := ⟨0, false, false⟩ } :=
        exec_instrOf_idle hidle .newstream
    _ = _ := by rw [complete_accept hidle]; rfl

end Sys2Proof.Machine
end

section
/-! The LZW family: the clear code (R98, R103), and the tests a decode step makes before it reads (R101, R102). -/

namespace Sys2Proof.Machine

/-! ## The clear code -/

/-- What the clear code sets and its frame (R103): the width and the count start again and no entry is pending. -/
theorem clearWork_frame (s : State) : clearWork s = { s with
    dict := (clearWork s).dict
    lzw := ⟨s.snap.imgCfg.mcs.toNat + 1, clearCode s.snap + 2, none, s.lzw.pos, s.lzw.outn⟩ } := rfl

/-- The cells DictReset leaves (R98): forgetting P does not touch them. -/
theorem memGet_clearWork (s : State) (k : Nat) : memGet (clearWork s).dict k = literalEntry s.snap k :=
  memGet_dictReset s k

theorem exec_lzwClear (w c : Nat) (s : State) : exec (.lzwClear w c) s = .next (clearWork s) := rfl

/-! ## The tests before the read -/

theorem lzwStep_of_count {s : State} (hcount : pixelCount s.snap ≤ s.lzw.outn) :
    lzwStep s = .ok (stopWith .count s) :=
  if_pos hcount

/-- The count test comes first, so the input test counts only while pixels are missing. -/
theorem lzwStep_of_input {s : State} (hmissing : s.lzw.outn < pixelCount s.snap)
    (hshort : streamBits s.snap < s.lzw.pos + s.lzw.w) : lzwStep s = .ok (stopWith .input s) := by
  rw [lzwStep, if_neg hmissing.not_ge, if_pos hshort]

/-! ## The statements -/

/-- Settles O18: the code 2^MCS is decoded as CLEAR, whose work is DictReset with P forgotten. -/
theorem clearCodeResetsDictionary : Obligations.ClearCodeResetsDictionary := by
  unfold Obligations.ClearCodeResetsDictionary
  refine ⟨fun s => ?decoded, fun s w c => ?cleared⟩
  case decoded => exact decodeCode_clear (codeCtx s)
  case cleared => exact ⟨clearWork s, exec_lzwClear w c s, clearWork_frame s, memGet_clearWork s⟩

/-- Settles O22: the count test, then the input test, each of which stops the step with only STOP set. -/
theorem decodeStopsBeforeReading : Obligations.DecodeStopsBeforeReading := by
  unfold Obligations.DecodeStopsBeforeReading
  refine fun s => ⟨fun hcount => ?count, fun hmissing hshort => ?input⟩
  case count => exact lzwStep_of_count hcount
  case input => exact lzwStep_of_input hmissing hshort

end Sys2Proof.Machine
end

section
/-! The compositor's family: seeding by a disposal code (R129 to R133), the parameters a frame resolves to (R125 to
R128), and what a completed COMPOSE leaves, outside the rectangle too (R138, R143, R144). -/

namespace Sys2Proof.Machine

/-! ## Seeding -/

/-- Disposals 0, 2 and the reserved 4 to 7 have one meaning (R130, R132). -/
theorem exec_backgroundDisposal {i : Instr} (hi : i = .dispUnspecified ∨ i = .dispRestoreBackground ∨
    i = .dispReserved4 ∨ i = .dispReserved5 ∨ i = .dispReserved6 ∨ i = .dispReserved7) (s : State) :
    exec i s = asOutcome (seedBackground s) := by
  rcases hi with rfl | rfl | rfl | rfl | rfl | rfl <;> rfl

theorem exec_dispDoNotDispose (s : State) : exec .dispDoNotDispose s = asOutcome (seedCopy .prev s.prev s) := rfl

theorem seedBackground_of_some {s : State} {bg : Rgba} (h : backgroundPixel s.snap s = some bg) :
    seedBackground s = .ok { s with canvas := memFill (canvasCount s.snap) bg s.canvas } := by
  rw [seedBackground, background_of_some h, Except_bind_ok]

theorem firstBottom_le {α : Type} {n j k : Nat} {m : Mem α} (hj : firstBottom n m = some j)
    (hk : memGet m k = none) : j ≤ k := by
  obtain ⟨-, -, hbefore⟩ := List.find?_range_eq_some.1 hj
  by_contra hlt
  simpa [hk] using hbefore k (by omega)

/-- A copy stops at the first ⊥ cell of its source (R131, R133, R172). -/
theorem seedCopy_error {name : MemName} {src : Mem Rgba} {s : State} {k : Nat} (hk : k < canvasCount s.snap)
    (hbottom : memGet src k = none) :
    ∃ j, seedCopy name src s = .error (.bottomRead name j) ∧ j ≤ k ∧ memGet src j = none := by
  cases hfirst : firstBottom (canvasCount s.snap) src with
  | none => simpa [hbottom] using firstBottom_eq_none.1 hfirst k hk
  | some j => exact ⟨j, by rw [seedCopy, hfirst], firstBottom_le hfirst hbottom, (firstBottom_eq_some hfirst).2⟩

/-! ## The parameters of a frame -/

section
variable {c : Conf}

section
variable (hgce : c.imgCfg.gceV = true)
include hgce

theorem resolveDisp_of_gce : resolveDisp c = c.packed.extractLsb' 2 3 := if_pos hgce

theorem resolveTrans_of_gce : resolveTrans c = if c.packed.getLsbD 0 then some c.tidx else none := by
  rw [resolveTrans, hgce, Bool.true_and, packedTf]

theorem frameDelay_of_gce :
    frameDelay c = if c.delay = 0 then ⟨10, false, true⟩ else ⟨c.delay, false, false⟩ := if_pos hgce

end

section
variable (hnogce : c.imgCfg.gceV = false)
include hnogce

theorem resolveDisp_of_no_gce : resolveDisp c = 2 := by simp [resolveDisp, hnogce]

theorem resolveTrans_of_no_gce : resolveTrans c = none := by simp [resolveTrans, hnogce]

theorem frameDelay_of_no_gce : frameDelay c = ⟨0, true, false⟩ := by simp [frameDelay, hnogce]

end

/-- The tick of a frame without a GCE (R126). -/
theorem delaySeconds_of_tick {d : Dly} (h : d.tick = true) : delaySeconds d = 1 / 60 := if_pos h

/-- The delay counts hundredths of a second (R126). -/
theorem delaySeconds_of_no_tick {d : Dly} (h : d.tick = false) : delaySeconds d = (d.cs.toNat : ℚ) / 100 := by
  simp [delaySeconds, h]

theorem tableSel_of_lct (hlct : c.imgCfg.lctEn = true) : tableSel c = .localTable := if_pos hlct

theorem tableSel_of_no_lct (hnolct : c.imgCfg.lctEn = false) :
    tableSel c = if c.lsd.getLsbD 7 then .globalTable else .none := by
  simp [tableSel, hnolct, lsdGctFlag]

theorem tableLen_of_localTable (h : tableSel c = .localTable) : tableLen c = 2 ^ (c.imgCfg.lctExp.toNat + 1) := by
  simp only [tableLen, h, tableSize]

theorem tableLen_of_globalTable (h : tableSel c = .globalTable) :
    tableLen c = 2 ^ ((c.lsd.extractLsb' 0 3).toNat + 1) := by
  rw [tableLen, h, tableSize, lsdGctExp]

theorem tableLen_of_no_table (h : tableSel c = .none) : tableLen c = 0 := by rw [tableLen, h]

end

/-- bg is transparent exactly when the background index is the transparent index (R128). -/
theorem backgroundPixel_alpha {c : Conf} {s : State} {bg : Rgba} (h : backgroundPixel c s = some bg) :
    bg.a = 0 ↔ resolveTrans c = some c.bgIdx := by
  have halpha : bg.a = if resolveTrans c = some c.bgIdx then 0 else 255 := by
    rw [backgroundPixel] at h
    split at h
    · obtain ⟨t, -, rfl⟩ := Option.map_eq_some_iff.1 h
      rfl
    · cases h
      rfl
  rw [halpha]
  split <;> simp [*]

/-! ## A completed COMPOSE -/

/-- The frames that method 3 goes back to (R138). -/
theorem keeps_iff {d : BitVec 3} : keeps d = true ↔ d = 0 ∨ d = 1 := by simp [keeps]

/-- The pixel of a cell outside the rectangle keeps its seed (R135). -/
theorem paintedCell_of_outside {c : Conf} {s : State} {x y : Nat} (hx : x < c.sw.toNat) (hy : y < c.sh.toNat)
    (hout : inside c x y = false) (seed : Option Rgba) : paintedCell c s (y * c.sw.toNat + x) seed = seed := by
  obtain ⟨hmod, hdiv, -⟩ := cell_mod_div hx hy
  rw [paintedCell, hmod, hdiv, hout, if_neg Bool.false_ne_true]

section
variable {s t : State} (hidle : s.phase = .idle) (hpass : failedCheck .compose s.cfg s.conf = none)
  (hexec : exec .compose s = .next t)
include hidle hpass hexec

/-- A completed COMPOSE in terms of the state it began in (R91, R124, R138): its only results not given outright are
the painted canvas and the two warnings of Paint. -/
theorem exec_compose_next : ∃ (canvas : Mem Rgba) (warn : Warn),
    t = { s with
      snap := s.conf
      status := endStatus s .none s.status.stop
      warn := { s.warn with badidx := warn.badidx, exhaust := warn.exhaust }
      canvas := canvas
      prev := memCopy (canvasCount s.conf) canvas s.prev
      keep := if keeps (resolveDisp s.conf) then memCopy (canvasCount s.conf) canvas s.keep else s.keep
      frameNo := s.frameNo + 1
      frameInfo := ⟨resolveDisp s.conf, s.frameInfo.keepV || keeps (resolveDisp s.conf)⟩
      dly := frameDelay s.conf } ∧
    (∀ k, k < canvasCount s.conf →
      memGet canvas k = paintedCell s.conf s k (seedPixel s.conf s k) ∧ (memGet canvas k).isSome = true) ∧
    (∀ k, canvasCount s.conf ≤ k → memGet canvas k = memGet s.canvas k) := by
  obtain ⟨u, hu, rfl⟩ := exec_compose_idle hidle hpass hexec
  obtain ⟨v, rfl, hframe, hpainted, hkept, -, -, hunderrun⟩ := composeFrame_spec hu
  refine ⟨v.canvas, v.warn, ?_, hpainted, hkept⟩
  have hwarn : v.warn = { s.warn with badidx := v.warn.badidx, exhaust := v.warn.exhaust } :=
    congrArg (fun b => { v.warn with underrun := b }) hunderrun
  calc complete (emitFrame v)
      = { complete (accept .compose s) with
          warn := v.warn, canvas := v.canvas, prev := (emitFrame v).prev, keep := (emitFrame v).keep
          frameNo := s.frameNo + 1, frameInfo := (emitFrame v).frameInfo, dly := (emitFrame v).dly } := by
        rw [hframe]; rfl
    _ = _ := by rw [complete_accept hidle, hwarn, hframe]; rfl

/-- Outside the rectangle the emitted frame is the seed (R135, R138). -/
theorem exec_compose_outside {x y : Nat} (hx : x < s.conf.sw.toNat) (hy : y < s.conf.sh.toNat)
    (hout : inside s.conf x y = false) :
    memGet t.prev (y * s.conf.sw.toNat + x) = seedPixel s.conf s (y * s.conf.sw.toNat + x) ∧
      (memGet t.prev (y * s.conf.sw.toNat + x)).isSome = true := by
  obtain ⟨canvas, warn, rfl, hpainted, -⟩ := exec_compose_next hidle hpass hexec
  obtain ⟨-, -, hcell⟩ := cell_mod_div hx hy
  simpa only [memGet_memCopy, if_pos hcell, paintedCell_of_outside hx hy hout] using hpainted _ hcell

end

/-! ## The statements -/

/-- Settles O32: the six codes have the meaning `seedBackground`, which fills the canvas with bg. -/
theorem backgroundDisposalsFillCanvas : Obligations.BackgroundDisposalsFillCanvas := by
  unfold Obligations.BackgroundDisposalsFillCanvas
  intro s i bg hi hbg
  exact ⟨_, by rw [exec_backgroundDisposal hi, seedBackground_of_some hbg, asOutcome_ok], rfl, memGet_memFill _ _ _⟩

/-- Settles O33: the code copies PREV, whose first ⊥ cell is the fault. -/
theorem doNotDisposeCopiesPreviousFrame : Obligations.DoNotDisposeCopiesPreviousFrame := by
  unfold Obligations.DoNotDisposeCopiesPreviousFrame
  refine fun s => ⟨fun hloaded => ?copied, fun k hk hbottom => ?fault⟩
  case copied =>
    exact ⟨_, by rw [exec_dispDoNotDispose, seedCopy_ok hloaded, asOutcome_ok], rfl, memGet_memCopy _ _ _⟩
  case fault =>
    obtain ⟨j, hcopy, hle, hnone⟩ := seedCopy_error (name := .prev) hk hbottom
    exact ⟨j, by rw [exec_dispDoNotDispose, hcopy, asOutcome_error], hle, hnone⟩

/-- Settles O35: one lemma for each parameter with and without a GCE, and for each choice of the table. -/
theorem frameParametersResolve : Obligations.FrameParametersResolve := by
  unfold Obligations.FrameParametersResolve
  refine ⟨fun c => ⟨fun hgce => ?gce, fun hnogce => ?noGce, fun hlct => ?localTable, fun hnolct hgct => ?globalTable,
    fun hnolct hnogct => ?noTable⟩, fun s => ⟨fun bg => background_of_some, background_of_none⟩⟩
  case gce =>
    refine ⟨resolveDisp_of_gce hgce, fun htf => ?transparent, fun htf => ?noTrans, fun hzero => ?clamped,
      fun hpos => ?delay⟩
    case transparent => rw [resolveTrans_of_gce hgce, htf, if_pos rfl]
    case noTrans => rw [resolveTrans_of_gce hgce, htf, if_neg Bool.false_ne_true]
    case clamped =>
      have hdelay : frameDelay c = ⟨10, false, true⟩ := by rw [frameDelay_of_gce hgce, if_pos hzero]
      refine ⟨hdelay, ?_⟩
      calc delaySeconds (frameDelay c)
          = ((10 : ℕ) : ℚ) / 100 := by rw [hdelay, delaySeconds_of_no_tick rfl]; rfl
        _ = 1 / 10 := by norm_num
    case delay =>
      have hdelay : frameDelay c = ⟨c.delay, false, false⟩ := by rw [frameDelay_of_gce hgce, if_neg hpos]
      exact ⟨hdelay, by rw [hdelay, delaySeconds_of_no_tick rfl]⟩
  case noGce =>
    have hdelay := frameDelay_of_no_gce hnogce
    exact ⟨resolveDisp_of_no_gce hnogce, resolveTrans_of_no_gce hnogce, hdelay,
      by rw [hdelay, delaySeconds_of_tick rfl]⟩
  case localTable =>
    have hsel := tableSel_of_lct hlct
    exact ⟨hsel, tableLen_of_localTable hsel⟩
  case globalTable =>
    have hsel : tableSel c = .globalTable := by rw [tableSel_of_no_lct hnolct, hgct, if_pos rfl]
    exact ⟨hsel, tableLen_of_globalTable hsel⟩
  case noTable =>
    have hsel : tableSel c = .none := by rw [tableSel_of_no_lct hnolct, hnogct, if_neg Bool.false_ne_true]
    exact ⟨hsel, tableLen_of_no_table hsel⟩

/-- Settles O37: the history is copied from the painted canvas, KEEP for disposals 0 and 1 alone. -/
theorem composeEmitsFrameAndHistory : Obligations.ComposeEmitsFrameAndHistory := by
  unfold Obligations.ComposeEmitsFrameAndHistory
  intro s t hidle hpass hexec
  obtain ⟨canvas, warn, rfl, -, hkept⟩ := exec_compose_next hidle hpass hexec
  refine ⟨rfl, fun k hk => ?frame, hkept, fun k hk => ?prevKept, fun k => ?keep⟩
  case frame => rw [memGet_memCopy, if_pos hk]
  case prevKept => rw [memGet_memCopy, if_neg hk.not_gt]
  case keep =>
    by_cases hdisp : resolveDisp s.conf = 0 ∨ resolveDisp s.conf = 1
    · simp only [if_pos (keeps_iff.2 hdisp), memGet_memCopy, hdisp, true_and]
    · simp only [if_neg (mt keeps_iff.1 hdisp), hdisp, false_and, if_false]

/-- Settles O40: after disposal 2 the seed is bg. -/
theorem afterDisposal2OutsideIsBackground : Obligations.AfterDisposal2OutsideIsBackground := by
  unfold Obligations.AfterDisposal2OutsideIsBackground
  intro s t hidle hpass hlast hexec x y hx hy hout
  obtain ⟨hseed, hsome⟩ := exec_compose_outside hidle hpass hexec hx hy hout
  obtain ⟨bg, hbg⟩ := Option.isSome_iff_exists.1 hsome
  have hback : backgroundPixel s.conf s = some bg := by
    rw [← hbg, hseed]
    simp [seedPixel, hlast]
  exact ⟨bg, hback, hbg, backgroundPixel_alpha hback⟩

/-- Settles O41: after disposal 1 the seed is PREV as the COMPOSE found it. -/
theorem afterDisposal1OutsideIsPreviousFrame : Obligations.AfterDisposal1OutsideIsPreviousFrame := by
  unfold Obligations.AfterDisposal1OutsideIsPreviousFrame
  intro s t hidle hpass hlast hexec x y hx hy hout
  obtain ⟨hseed, -⟩ := exec_compose_outside hidle hpass hexec hx hy hout
  rw [hseed, seedPixel, if_pos hlast]

end Sys2Proof.Machine
end

section
/-! The family of the reset and the hazards: a command word of any kind while BUSY (R83, R187). -/

namespace Sys2Proof.Machine

/-- A command word is one of the eight commands (R70) or reserved by its OP or its RES (R71, R72). -/
theorem isCommandWord_cases {i : Instr} (h : isCommandWord i = true) :
    (∃ op, i = instrOf op) ∨ (∃ op, i = .reservedOp op) ∨ ∃ res op, i = .reservedRes res op := by
  cases i
  case nop => exact .inl ⟨.nop, rfl⟩
  case sreset => exact .inl ⟨.sreset, rfl⟩
  case newstream => exact .inl ⟨.newstream, rfl⟩
  case bitread => exact .inl ⟨.bitread, rfl⟩
  case decode => exact .inl ⟨.decode, rfl⟩
  case reorder => exact .inl ⟨.reorder, rfl⟩
  case compose => exact .inl ⟨.compose, rfl⟩
  case frame => exact .inl ⟨.frame, rfl⟩
  case reservedOp op => exact .inr (.inl ⟨op, rfl⟩)
  case reservedRes res op => exact .inr (.inr ⟨res, op, rfl⟩)
  all_goals exact absurd h Bool.false_ne_true

/-- A reserved word is no exception: while BUSY it sets OVR and raises no BADCMD (R83, R187). -/
theorem runReserved_busy {s : State} (h : busy s = true) :
    runReserved s = .next { s with status := { s.status with ovr := true } } :=
  if_pos h

/-- Settles O9: the eight commands and both kinds of reserved word test BUSY first. -/
theorem busyCommandOnlySetsOvr : Obligations.BusyCommandOnlySetsOvr := by
  unfold Obligations.BusyCommandOnlySetsOvr
  intro s i hword hbusy
  obtain ⟨op, rfl⟩ | ⟨op, rfl⟩ | ⟨res, op, rfl⟩ := isCommandWord_cases hword
  · exact exec_instrOf_busy hbusy op
  · rw [exec_reservedOp, runReserved_busy hbusy]
  · rw [exec_reservedRes, runReserved_busy hbusy]

end Sys2Proof.Machine
end

section
/-! The family of the remaining statements, encoding: encoder and decoder undo each other (R70 to R72, R74, R76, R79, R80). -/

namespace Sys2Proof

/-! ## The fields of a datum -/

@[simp] theorem commandWord_res (res : BitVec 28) (op : BitVec 4) : (commandWord res op).extractLsb' 4 28 = res :=
  BitVec.extractLsb'_append_eq_left

@[simp] theorem commandWord_op (res : BitVec 28) (op : BitVec 4) : (commandWord res op).extractLsb' 0 4 = op :=
  BitVec.extractLsb'_append_eq_right

/-- A command word is its two fields (R70). -/
theorem commandWord_fields (w : Word) : commandWord (w.extractLsb' 4 28) (w.extractLsb' 0 4) = w := by
  rw [commandWord, BitVec.extractLsb'_append_extractLsb'_eq_extractLsb' (by rfl)]
  exact BitVec.extractLsb'_eq_self

@[simp] theorem packedDisp_packedOfDisp (d : BitVec 3) : packedDisp (packedOfDisp d) = d := by
  revert d; decide

/-! ## Encoding what was decoded -/

theorem encode_decodeCommand (w : Word) : encode (decodeCommand w) = .command w := by
  by_cases hres : w.extractLsb' 4 28 = 0
  · have hrow : ∀ op : BitVec 4, encode (decodeCommand (commandWord 0 op)) = .command (commandWord 0 op) := by decide
    rw [← commandWord_fields w, hres]
    exact hrow _
  · rw [decodeCommand_of_res_ne_zero hres, encode, commandWord_fields]

theorem inContext_decodeCommand (x : CodeCtx) (w : Word) : (decodeCommand w).inContext x = true := by
  unfold decodeCommand
  split
  · rfl
  · split <;> rfl

theorem encode_decodeCode (x : CodeCtx) (c : Nat) : encode (decodeCode x c) = .code x.width c := by
  unfold decodeCode
  split_ifs <;> rfl

/-- The tests of R76 put a code in the class whose condition it meets. -/
theorem inContext_decodeCode (x : CodeCtx) (c : Nat) : (decodeCode x c).inContext x = true := by
  by_cases hclear : c = 2 ^ x.mcs
  · subst hclear; rw [decodeCode_clear]; simp [Instr.inContext]
  by_cases hend : c = 2 ^ x.mcs + 1
  · subst hend; rw [decodeCode_end]; simp [Instr.inContext]
  rcases Nat.lt_trichotomy c x.count with hlt | heq | hgt
  · rw [decodeCode_dict hclear hend hlt]; simp [Instr.inContext, *]
  · cases hprev : x.hasPrev with
    | true => rw [decodeCode_kwkwk hclear hend heq hprev]; simp_all [Instr.inContext]
    | false => rw [decodeCode_invalid hclear hend (.inr ⟨heq, hprev⟩)]; simp_all [Instr.inContext]
  · rw [decodeCode_invalid hclear hend (.inl hgt)]; simp_all [Instr.inContext]

theorem encode_decodeDisposal (d : BitVec 3) : encode (decodeDisposal d) = .packed (packedOfDisp d) := by
  revert d; decide

theorem inContext_decodeDisposal (x : CodeCtx) (d : BitVec 3) : (decodeDisposal d).inContext x = true := by
  unfold decodeDisposal
  split <;> rfl

/-! ## Decoding what was encoded -/

theorem decodeCommand_commandWord_of_res {res : BitVec 28} (op : BitVec 4) (h : res ≠ 0) :
    decodeCommand (commandWord res op) = .reservedRes res op := by
  rw [decodeCommand_of_res_ne_zero (by rwa [commandWord_res]), commandWord_res, commandWord_op]

theorem decodeCommand_commandWord_of_op {op : BitVec 4} (h : 8 ≤ op.toNat) :
    decodeCommand (commandWord 0 op) = .reservedOp op := by
  rw [decodeCommand_of_reserved_op (commandWord_res 0 op) (by rwa [commandWord_op]), commandWord_op]

/-- A code of the decoder's width that fits it is read by its class (R74, R76). -/
theorem decode_code {x : CodeCtx} {w c : Nat} (hw : w = x.width) (hfits : codeFits w c = true) :
    decode x (.code w c) = .ok (decodeCode x c) := by
  simp only [codeFits, Bool.and_eq_true, decide_eq_true_eq] at hfits
  rw [decode, if_neg (not_not_intro hw), if_neg hfits.2.not_ge]

theorem decode_packedOfDisp (x : CodeCtx) (d : BitVec 3) :
    decode x (.packed (packedOfDisp d)) = .ok (decodeDisposal d) := by
  rw [decode, packedDisp_packedOfDisp]

/-! ## The statements -/

/-- Settles O1: the fields of a command word and of a packed byte read back, and an LZW code meets the condition of its
class. -/
theorem decodeEncodeRoundTrip : Obligations.DecodeEncodeRoundTrip := by
  unfold Obligations.DecodeEncodeRoundTrip
  intro x i hwf hctx
  cases i
  case reservedOp op =>
    rw [encode, decode, decodeCommand_commandWord_of_op (by simpa [Instr.wellFormed] using hwf)]
  case reservedRes res op =>
    rw [encode, decode, decodeCommand_commandWord_of_res op (by simpa [Instr.wellFormed] using hwf)]
  case lzwClear w c =>
    simp only [Instr.wellFormed, Instr.inContext, Bool.and_eq_true, beq_iff_eq] at hwf hctx
    obtain ⟨rfl, rfl⟩ := hctx
    rw [encode, decode_code rfl hwf.1, decodeCode_clear]
  case lzwEnd w c =>
    simp only [Instr.wellFormed, Instr.inContext, Bool.and_eq_true, beq_iff_eq] at hwf hctx
    obtain ⟨rfl, rfl⟩ := hctx
    rw [encode, decode_code rfl hwf.1, decodeCode_end]
  case lzwDict w c =>
    simp only [Instr.inContext, Bool.and_eq_true, beq_iff_eq, bne_iff_ne, decide_eq_true_eq] at hctx
    obtain ⟨⟨⟨rfl, hlt⟩, hclear⟩, hend⟩ := hctx
    rw [encode, decode_code rfl hwf, decodeCode_dict hclear hend hlt]
  case lzwKwkwk w c =>
    simp only [Instr.inContext, Bool.and_eq_true, beq_iff_eq, bne_iff_ne] at hctx
    obtain ⟨⟨⟨⟨rfl, heq⟩, hprev⟩, hclear⟩, hend⟩ := hctx
    rw [encode, decode_code rfl hwf, decodeCode_kwkwk hclear hend heq hprev]
  case lzwInvalid w c =>
    simp only [Instr.inContext, Bool.and_eq_true, Bool.or_eq_true, beq_iff_eq, bne_iff_ne, decide_eq_true_eq,
      Bool.not_eq_true'] at hctx
    obtain ⟨⟨⟨rfl, hcount⟩, hclear⟩, hend⟩ := hctx
    rw [encode, decode_code rfl hwf, decodeCode_invalid hclear hend hcount]
  case dispUnspecified => exact decode_packedOfDisp x 0
  case dispDoNotDispose => exact decode_packedOfDisp x 1
  case dispRestoreBackground => exact decode_packedOfDisp x 2
  case dispRestoreToPrevious => exact decode_packedOfDisp x 3
  case dispReserved4 => exact decode_packedOfDisp x 4
  case dispReserved5 => exact decode_packedOfDisp x 5
  case dispReserved6 => exact decode_packedOfDisp x 6
  case dispReserved7 => exact decode_packedOfDisp x 7
  all_goals rfl

/-- Settles O2: for each kind of datum, what the decoder reads encodes back and stands in its context. -/
theorem encodeDecodeRoundTrip : Obligations.EncodeDecodeRoundTrip := by
  unfold Obligations.EncodeDecodeRoundTrip
  intro x e i hdecode
  cases e with
  | command w =>
    cases hdecode
    exact ⟨inContext_decodeCommand x w, encode_decodeCommand w⟩
  | code width c =>
    rw [decode] at hdecode
    split_ifs at hdecode with hw hfits
    cases hdecode
    obtain rfl := not_not.1 hw
    exact ⟨inContext_decodeCode x c, encode_decodeCode x c⟩
  | packed b =>
    cases hdecode
    exact ⟨inContext_decodeDisposal x _, encode_decodeDisposal _⟩

/-- Settles O4: seven words of the opcode table, each evaluated. -/
theorem tableWordsDecode : Obligations.TableWordsDecode := by
  unfold Obligations.TableWordsDecode
  decide

end Sys2Proof
end

section
/-! The family of the remaining statements, the step: CMD writes, decoded codes and disposal codes (R64, R83, R102, R129),
and the checks of an accepted command (R84). -/

namespace Sys2Proof.Machine

/-! ## Command words -/

theorem cmdWriteWord_cmd (c : Config) (w : Word) : cmdWriteWord c (.write (c.base + 4) 4 w) = some w := by
  simp [cmdWriteWord]

/-- The host's turn with a CMD write first in its queue [log 6]. -/
theorem step_cmdWrite {s : State} {w : Word} {rest : List HostOp} (hq : s.host = .write (s.cfg.base + 4) 4 w :: rest)
    (ha : nextAgent s = .host) :
    step s = if s.sched.tail = [] then exec (decodeCommand w) (takeOp rest s) else .next (acceptWord w (takeOp rest s)) := by
  rw [step_host_cons ha hq, hostStep, show (takeOp rest s).cfg = s.cfg from rfl, cmdWriteWord_cmd]
  simp

/-- BADCMD while IDLE changes STATUS alone (R71, R72). -/
theorem rejectCommand_idle {s : State} (h : s.phase = .idle) :
    rejectCommand s = { s with status := ⟨true, true, s.status.ovr, .badcmd, s.status.stop⟩ } := by
  cases s; cases h; rfl

theorem clearsStop_iff {op : Op} : clearsStop op = true ↔ op = .decode ∨ op = .frame := by
  cases op <;> decide

/-- Acceptance in one record (R51, R83). -/
theorem accept_eq (op : Op) (s : State) : accept op s = { s with
    snap := s.conf
    phase := .busy op .start
    status := ⟨false, false, s.status.ovr, .none, if op = .decode ∨ op = .frame then .none else s.status.stop⟩ } := by
  cases op <;> rfl

/-! ## Steps inside a command -/

theorem engineStep_lzw {s : State} {op : Op} (h : s.phase = .busy op .lzw) :
    engineStep s = (lzwStep s).bind fun t => .ok (afterCode op t) := by
  rw [engineStep, h]

theorem engineStep_seed {s : State} {op : Op} (h : s.phase = .busy op .seed) :
    engineStep s = (seedBy s.frameInfo.lastDisp s).bind fun t => .ok (setPhase (.busy op (.paint 0 0)) t) := by
  rw [engineStep, h]

/-- A decode step that reads a code (R100, R102). -/
theorem lzwStep_of_code {s : State} {c : Nat} (hmissing : s.lzw.outn < pixelCount s.snap)
    (hfits : s.lzw.pos + s.lzw.w ≤ streamBits s.snap) (hread : readBits s.cdata s.lzw.pos s.lzw.w = .ok c) :
    lzwStep s = codeWork c (advancePos s) := by
  rw [lzwStep, if_neg hmissing.not_ge, if_neg hfits.not_gt, hread, Except_bind_ok]

/-- An operation followed by a change that cannot fault. -/
theorem asOutcome_bind_ok (x : Except Fault State) (f : State → State) :
    asOutcome (x.bind fun t => .ok (f t)) = (match asOutcome x with
      | .next t => .next (f t)
      | .fault e => .fault e
      | .refused r => .refused r) := by
  cases x <;> rfl

/-! ## The checks -/

theorem checkCode_ne_none (k : Check) : checkCode k ≠ .none := by
  cases k <;> decide

/-- A command with rows in R84's table begins with its checks. -/
theorem commandBody_eq_checked {op : Op} (h : checksOf op ≠ []) : ∃ work, commandBody op = checked op work := by
  cases op
  case nop | sreset | newstream => exact absurd rfl h
  case bitread | decode | reorder | compose | frame => exact ⟨_, rfl⟩

/-- A failed check ends its command with the check's code; the acceptance aside nothing changes (R84). -/
theorem exec_of_failedCheck {s : State} {op : Op} {code : ErrCode} (hidle : s.phase = .idle)
    (hfail : failedCheck op s.cfg s.conf = some code) :
    exec (instrOf op) s = .next { s with
      snap := s.conf
      status := endStatus s code (if op = .decode ∨ op = .frame then .none else s.status.stop) } := by
  have hcode : code ≠ .none := by
    obtain ⟨k, -, rfl⟩ := Option.map_eq_some_iff.1 hfail
    exact checkCode_ne_none k
  obtain ⟨work, hwork⟩ := commandBody_eq_checked (op := op) fun hnil => by simp [failedCheck, hnil] at hfail
  have hbody : commandBody op (accept op s) = .ok (raiseError code (accept op s)) := by
    rw [hwork, checked_of_some (by simpa using hfail)]
  simp only [exec_instrOf_idle hidle, hbody, asOutcome_ok, raiseError_accept hidle op hcode, clearsStop_iff]

/-- A command all of whose rows raise CFG fails with it exactly when one of them fails. -/
theorem failedCheck_eq_cfg {op : Op} (hcfg : ∀ k ∈ checksOf op, checkCode k = .cfg) {p : Config} {c : Conf} :
    failedCheck op p c = some .cfg ↔ ∃ k ∈ checksOf op, checkFails k p c = true := by
  constructor
  · intro h
    obtain ⟨k, hfind, -⟩ := Option.map_eq_some_iff.1 h
    exact ⟨k, List.mem_of_find?_eq_some hfind, List.find?_some (p := fun k => checkFails k p c) hfind⟩
  · intro h
    obtain ⟨k, hfind⟩ := Option.isSome_iff_exists.1 (List.find?_isSome.2 h)
    rw [failedCheck, hfind, Option.map_some, hcfg k (List.mem_of_find?_eq_some hfind)]

section
variable {p : Config} {c : Conf}

/-! The rows of R84's table. -/

theorem checkFails_v1 : checkFails .v1 p c = true ↔ c.imgCfg.mcs.toNat < p.mcsLo ∨ c.imgCfg.mcs.toNat > 8 :=
  (Bool.or_eq_true _ _).to_iff.trans (or_congr decide_eq_true_iff decide_eq_true_iff)

theorem checkFails_v2 : checkFails .v2 p c = true ↔ c.iw.toNat * c.ih.toNat > p.pixMax := decide_eq_true_iff

theorem checkFails_v3 : checkFails .v3 p c = true ↔ c.clen.toNat > p.cdataBytes := decide_eq_true_iff

theorem checkFails_v4 : checkFails .v4 p c = true ↔ c.sw.toNat * c.sh.toNat > p.canvasPixMax := decide_eq_true_iff

theorem checkFails_v5 : checkFails .v5 p c = true ↔ c.brN.toNat > 16 := decide_eq_true_iff

theorem checkFails_v6 : checkFails .v6 p c = true ↔ c.brOff.toNat + c.brN.toNat > 8 * c.clen.toNat := decide_eq_true_iff

/-- A command passes its checks exactly when no row of its own fails. -/
theorem failedCheck_eq_none_iff {op : Op} :
    failedCheck op p c = none ↔ ¬ ∃ k ∈ checksOf op, checkFails k p c = true := by
  simp [failedCheck_eq_none]

end

/-! ## The statements -/

/-- Settles O5: nothing is scheduled after the CMD write. -/
theorem stepRunsCommandWord : Obligations.StepRunsCommandWord := by
  unfold Obligations.StepRunsCommandWord
  intro s w rest hq ha htail
  rw [step_cmdWrite hq ha, if_pos htail]

/-- Settles O6: the three cases of `acceptWord`. -/
theorem stepAcceptsCommandWord : Obligations.StepAcceptsCommandWord := by
  unfold Obligations.StepAcceptsCommandWord
  intro s w rest hq ha htail
  rw [step_cmdWrite hq ha, if_neg htail, acceptWord, show busy (takeOp rest s) = busy s from rfl]
  refine ⟨fun hbusy => ?busy, fun hidle hnone => ?reserved, fun op hidle hop => ?accepted⟩
  case busy => rw [if_pos hbusy]; rfl
  case reserved =>
    rw [hidle, if_neg Bool.false_ne_true, hnone]
    exact congrArg _ (rejectCommand_idle (s := takeOp rest s) (busy_eq_false.1 hidle))
  case accepted =>
    rw [hidle, if_neg Bool.false_ne_true, hop]
    exact congrArg _ (accept_eq op (takeOp rest s))

/-- Settles O7: the step reads the code, and its work is `exec` of the decoded code. -/
theorem stepRunsDecodedCode : Obligations.StepRunsDecodedCode := by
  unfold Obligations.StepRunsDecodedCode
  intro s op c hphase ha hmissing hfits hread
  rw [step_engine ha, engineStep_lzw (s := popTurn s) hphase, asOutcome_bind_ok,
    lzwStep_of_code (s := popTurn s) hmissing hfits hread, codeWork_eq_exec]
  rfl

/-- Settles O8: seeding by LAST_DISP is `exec` of the decoded disposal code. -/
theorem stepRunsDisposalCode : Obligations.StepRunsDisposalCode := by
  unfold Obligations.StepRunsDisposalCode
  intro s op hphase ha
  rw [step_engine ha, engineStep_seed (s := popTurn s) hphase, asOutcome_bind_ok, seedBy_eq_exec]
  rfl

/-- Settles O11: the first failing row of `checksOf` ends the command, and each command's rows decide whether one fails. -/
theorem firstFailingCheckEndsCommand : Obligations.FirstFailingCheckEndsCommand := by
  unfold Obligations.FirstFailingCheckEndsCommand
  refine ⟨fun s op before after k hidle hrows hbefore hk =>
    exec_of_failedCheck hidle (failedCheck_append hrows hbefore hk), ?_⟩
  intro s hidle v1 v2 v3 v4 v5 v6 ended
  have hdecode : (∃ k ∈ checksOf .decode, checkFails k s.cfg s.conf = true) ↔ v1 ∨ v2 ∨ v3 := by
    simp [checksOf, checkFails_v1, checkFails_v2, checkFails_v3, v1, v2, v3]
  have hreorder : (∃ k ∈ checksOf .reorder, checkFails k s.cfg s.conf = true) ↔ v2 := by
    simp [checksOf, checkFails_v2, v2]
  have hcompose : (∃ k ∈ checksOf .compose, checkFails k s.cfg s.conf = true) ↔ v2 ∨ v4 := by
    simp [checksOf, checkFails_v2, checkFails_v4, v2, v4]
  have hframe : (∃ k ∈ checksOf .frame, checkFails k s.cfg s.conf = true) ↔ v1 ∨ v2 ∨ v3 ∨ v4 := by
    simp [checksOf, checkFails_v1, checkFails_v2, checkFails_v3, checkFails_v4, v1, v2, v3, v4]
  have hbitread : (∃ k ∈ checksOf .bitread, checkFails k s.cfg s.conf = true) ↔ v3 ∨ v5 ∨ v6 := by
    simp [checksOf, checkFails_v3, checkFails_v5, checkFails_v6, v3, v5, v6]
  have hcfg {op : Op} (hrows : ∀ k ∈ checksOf op, checkCode k = .cfg)
      (hfail : ∃ k ∈ checksOf op, checkFails k s.cfg s.conf = true) :=
    exec_of_failedCheck hidle ((failedCheck_eq_cfg hrows).2 hfail)
  refine ⟨fun h => hcfg (op := .decode) (by decide) (hdecode.2 h), fun h => hcfg (op := .reorder) (by decide) (hreorder.2 h),
    fun h => hcfg (op := .compose) (by decide) (hcompose.2 h), fun h => hcfg (op := .frame) (by decide) (hframe.2 h),
    fun h3 => ?bitreadCfg, fun h3 h => ?bitreadRange, failedCheck_eq_none_iff.trans (not_congr hdecode),
    failedCheck_eq_none_iff.trans (not_congr hreorder), failedCheck_eq_none_iff.trans (not_congr hcompose),
    failedCheck_eq_none_iff.trans (not_congr hframe), failedCheck_eq_none_iff.trans (not_congr hbitread), ?unchecked⟩
  case bitreadCfg =>
    exact exec_of_failedCheck (op := .bitread) (code := .cfg) hidle (by rw [failedCheck_bitread, if_pos h3])
  case bitreadRange =>
    exact exec_of_failedCheck (op := .bitread) (code := .brrange) hidle
      (by rw [failedCheck_bitread, if_neg h3, if_pos h])
  case unchecked => rintro op (rfl | rfl | rfl) <;> rfl

end Sys2Proof.Machine
end

section
/-! The family of the remaining statements, bits and codes: ReadBits (R95, R96) and the meaning of END, INVALID, DICT and
KWKWK (R104 to R112). -/

namespace Sys2Proof.Machine

/-! ## The bytes of a field -/

/-- The bytes from `off / 8` to `(off + n - 1) / 8` are those that hold a bit of the field (R96). -/
theorem exists_bit_of_byte {off n k : Nat} (hn : 1 ≤ n) (hlo : off / 8 ≤ k) (hhi : k ≤ (off + n - 1) / 8) :
    ∃ i, i < n ∧ (off + i) / 8 = k :=
  ⟨max off (8 * k) - off, by omega, by omega⟩

theorem byte_of_bit {off n i : Nat} (hi : i < n) : off / 8 ≤ (off + i) / 8 ∧ (off + i) / 8 ≤ (off + n - 1) / 8 := by
  omega

/-! ## String codes -/

theorem exec_lzwEnd (w c : Nat) (s : State) : exec (.lzwEnd w c) s = .next (stopWith .endCode s) := rfl

theorem exec_lzwInvalid (w c : Nat) (s : State) : exec (.lzwInvalid w c) s = .next (invalidCode s) := rfl

/-- No forced reset without the peek (R111, R112). -/
theorem forcedReset_of_not_due {s : State}
    (h : ¬ (s.snap.ctrl.earlyReset = true ∧ s.lzw.w = Config.wMax ∧ s.lzw.n = Config.dMax)) : forcedReset s = .ok s :=
  if_neg h

section
variable {s : State} (hdue : s.snap.ctrl.earlyReset = true ∧ s.lzw.w = Config.wMax ∧ s.lzw.n = Config.dMax)
  (hbits : s.lzw.pos + 12 ≤ streamBits s.snap)
include hdue hbits

/-- With the peek due and 12 bits left, the peeked code decides (R111). -/
theorem forcedReset_of_peek {v : Nat} (hread : readBits s.cdata s.lzw.pos 12 = .ok v) :
    forcedReset s = .ok (if v ≠ clearCode s.snap then dictReset s else s) := by
  rw [forcedReset, if_pos hdue, if_pos hbits, hread, Except_bind_ok]
  split <;> rfl

theorem forcedReset_of_bottom {f : Fault} (hread : readBits s.cdata s.lzw.pos 12 = .error f) :
    forcedReset s = .error f := by
  rw [forcedReset, if_pos hdue, if_pos hbits, hread, Except_bind_error]

end

/-- With fewer than 12 bits left nothing is peeked (R111). -/
theorem forcedReset_of_short {s : State} (hbits : s.lzw.pos + 12 > streamBits s.snap) : forcedReset s = .ok s := by
  rw [forcedReset, if_neg (by omega : ¬ s.lzw.pos + 12 ≤ streamBits s.snap), ite_self]

/-- The state a string code has made when it comes to the forced reset: the string is emitted, the entry added, the width
grown (R108 to R110). -/
def grownState (str : Str) (s : State) : State := growWidth (addEntry str (emitBytes str.bytes s))

theorem emitAndGrow_eq (str : Str) (s : State) : emitAndGrow str s = forcedReset (grownState str s) := rfl

/-- What the new entry is (R109); for KWKWK it is the string itself (R106). -/
theorem grownEntry_new {s : State} {i : Instr} {str p : Str} (hstr : IsStringCode i s str) (hp : s.lzw.p = some p)
    (hn : s.lzw.n < 4096) :
    grownEntry s str s.lzw.n = some ⟨p.head, p.tail ++ [str.head]⟩ ∧
      ((∃ w c, i = .lzwKwkwk w c) → grownEntry s str s.lzw.n = some str) := by
  have hnew : grownEntry s str s.lzw.n = some (p.snoc str.head) := by simp [grownEntry, hp, hn]
  refine ⟨hnew, ?_⟩
  rintro ⟨w, c, rfl⟩
  obtain ⟨w', c', h, -⟩ | ⟨w', c', q, -, hq, rfl⟩ := hstr
  · cases h
  · cases hp.symm.trans hq
    exact hnew

/-! ## The statements -/

/-- Settles O16: by induction on the number of bits, the first bit split off the sum. -/
theorem readBitsIsTheWeightedSum : Obligations.ReadBitsIsTheWeightedSum := by
  unfold Obligations.ReadBitsIsTheWeightedSum
  intro m b off n hloaded
  have hsum : readBits m off n =
      .ok (∑ i ∈ Finset.range n, (b ((off + i) / 8)).toNat / 2 ^ ((off + i) % 8) % 2 * 2 ^ i) := by
    induction n generalizing off with
    | zero => rfl
    | succ n ih =>
      have hfirst : streamBit m off = .ok ((b (off / 8)).toNat / 2 ^ (off % 8) % 2) :=
        streamBit_ok (hloaded 0 (by omega))
      have hrest := ih (off + 1) fun i hi => by
        rw [show off + 1 + i = off + (i + 1) by omega]; exact hloaded (i + 1) (by omega)
      rw [readBits, hfirst, Except_bind_ok, hrest, Except_bind_ok, Finset.sum_range_succ', Finset.mul_sum, Nat.add_comm]
      simp only [Nat.add_zero, pow_zero, mul_one, pow_succ]
      congr 2
      refine Finset.sum_congr rfl fun i _ => ?_
      rw [show off + 1 + i = off + (i + 1) by omega]
      ring
  exact ⟨hsum, readBits_lt hsum⟩

/-- Settles O17: ReadBits touches exactly the bytes that hold a bit of its field. -/
theorem readBitsReadsExactlyItsBytes : Obligations.ReadBitsReadsExactlyItsBytes := by
  unfold Obligations.ReadBitsReadsExactlyItsBytes
  refine fun m off n hn => ⟨⟨?loaded, fun hloaded => ?reads⟩, fun f hfault => ?fault, fun m' hsame => ?same⟩
  case loaded =>
    rintro ⟨v, hv⟩ k hlo hhi
    obtain ⟨i, hi, rfl⟩ := exists_bit_of_byte hn hlo hhi
    exact isSome_of_readBits_eq_ok hv hi
  case reads => exact readBits_ok fun i hi => hloaded _ (byte_of_bit hi).1 (byte_of_bit hi).2
  case fault =>
    obtain ⟨i, hi, hnone, rfl⟩ := readBits_error hfault
    exact ⟨_, (byte_of_bit hi).1, (byte_of_bit hi).2, hnone, rfl⟩
  case same => exact readBits_congr fun i hi => hsame _ (byte_of_bit hi).1 (byte_of_bit hi).2

/-- Settles O19: END stops; INVALID stops in strict mode alone. -/
theorem endAndInvalidCodesTouchOnlyStop : Obligations.EndAndInvalidCodesTouchOnlyStop := by
  unfold Obligations.EndAndInvalidCodesTouchOnlyStop
  refine fun s w c => ⟨exec_lzwEnd w c s, fun hstrict => ?strict, fun htolerant => ?tolerant⟩
  case strict => rw [exec_lzwInvalid, invalidCode, if_pos hstrict]; rfl
  case tolerant => rw [exec_lzwInvalid, invalidCode, htolerant, if_neg Bool.false_ne_true]

/-- Settles O20: without the peek the grown state is the result. -/
theorem stringCodeEmitsAndGrows : Obligations.StringCodeEmitsAndGrows := by
  unfold Obligations.StringCodeEmitsAndGrows
  intro s i str hstr hout hdue
  obtain ⟨m, d, hgrown, hcells, hentries⟩ := emitBytes_addEntry_growWidth str s hout
  have hexec : exec i s = .next (grownState str s) := by
    rw [exec_stringCode hstr, emitAndGrow_eq, forcedReset_of_not_due (by rw [grownState, hgrown]; exact hdue), asOutcome_ok]
  rw [grownState, hgrown] at hexec
  refine ⟨_, hexec, rfl, hcells, hentries, fun p hp hn => ?_⟩
  simpa only [hentries] using grownEntry_new hstr hp hn

/-- Settles O21: with the peek due, the forced reset on the grown state. -/
theorem forcedResetKeepsPreviousEntry : Obligations.ForcedResetKeepsPreviousEntry := by
  unfold Obligations.ForcedResetKeepsPreviousEntry
  intro s i str hstr hout hdue
  obtain ⟨m, d, hgrown, hcells, hentries⟩ := emitBytes_addEntry_growWidth str s hout
  obtain ⟨hearly, hw, hn⟩ := hdue
  let u : State := { s with idxbuf := m, dict := d, lzw := ⟨12, 4096, some str, s.lzw.pos, emittedCount s str⟩ }
  have hexec : exec i s = asOutcome (forcedReset u) := by
    rw [exec_stringCode hstr, emitAndGrow_eq, grownState, hgrown, hw, hn]
  have hdue : u.snap.ctrl.earlyReset = true ∧ u.lzw.w = Config.wMax ∧ u.lzw.n = Config.dMax := ⟨hearly, rfl, rfl⟩
  refine ⟨fun v hbits hread hv => ?reset, fun f hbits hread => ?fault, fun hkeep => ?kept⟩
  case reset =>
    rw [forcedReset_of_peek hdue hbits hread, if_pos hv, asOutcome_ok] at hexec
    exact ⟨dictReset u, hexec, rfl, hcells, memGet_dictReset u⟩
  case fault => rw [hexec, forcedReset_of_bottom hdue hbits hread, asOutcome_error]
  case kept =>
    refine ⟨u, hexec.trans ?_, rfl, hcells, hentries⟩
    by_cases hbits : s.lzw.pos + 12 > streamBits s.snap
    · rw [forcedReset_of_short (s := u) hbits, asOutcome_ok]
    · have hclear := hkeep.resolve_left hbits
      rw [forcedReset_of_peek hdue (not_lt.1 hbits) hclear, if_neg (not_not_intro rfl), asOutcome_ok]

end Sys2Proof.Machine
end

section
/-! The family of the remaining statements, the invariants of a decode (R77, R98, R99, R116): LzwStart establishes them
and every decode step keeps them. -/

namespace Sys2Proof

/-! ## Strings -/

@[simp] theorem Str.length_single (b : Byte) : (Str.single b).length = 1 := rfl

@[simp] theorem Str.length_snoc (s : Str) (b : Byte) : (s.snoc b).length = s.length + 1 := by
  simp [Str.length, Str.snoc]

@[simp] theorem Str.length_bytes (s : Str) : s.bytes.length = s.length := rfl

theorem Str.length_pos (s : Str) : 1 ≤ s.length := Nat.succ_pos _

theorem Str.mem_bytes_snoc {s : Str} {b x : Byte} : x ∈ (s.snoc b).bytes ↔ x ∈ s.bytes ∨ x = b := by
  simp [Str.bytes, Str.snoc, or_assoc]

theorem Str.head_mem_bytes (s : Str) : s.head ∈ s.bytes := List.mem_cons_self

/-- A string of one byte is a single symbol (R98). -/
theorem Str.eq_single_of_length {s : Str} (h : s.length = 1) : s = .single s.head := by
  obtain ⟨b, l⟩ := s
  cases l with
  | nil => rfl
  | cons c l => simp [Str.length] at h

namespace Machine

theorem bytesBelow_snoc {b : Nat} {s : Str} {x : Byte} (hs : bytesBelow b s.bytes) (hx : x.toNat < b) :
    bytesBelow b (s.snoc x).bytes := by
  intro y hy
  rcases Str.mem_bytes_snoc.1 hy with hy | rfl
  · exact hs y hy
  · exact hx

/-! ## A reset dictionary -/

theorem literalEntry_eq_some {c : Conf} {k : Nat} {str : Str} (h : literalEntry c k = some str) :
    k < clearCode c ∧ str = .single (BitVec.ofNat 8 k) := by
  rw [literalEntry] at h
  split at h
  · exact ⟨‹_›, (Option.some.inj h).symm⟩
  · cases h

/-- The clear code lies between 4 and 256 (R7, R75). -/
theorem clearCode_bounds {c : Conf} (hlo : 2 ≤ c.imgCfg.mcs.toNat) (hhi : c.imgCfg.mcs.toNat ≤ 8) :
    4 ≤ clearCode c ∧ clearCode c ≤ 256 :=
  ⟨Nat.pow_le_pow_right (n := 2) (by decide) hlo, Nat.pow_le_pow_right (n := 2) (by decide) hhi⟩

/-- After DictReset (R98) the invariants hold, whatever string of their lengths is kept as P (R111): the first new entry's
code is not taken yet. -/
theorem lzwInv_of_literals {t : State} (hmcs : 2 ≤ t.snap.imgCfg.mcs.toNat ∧ t.snap.imgCfg.mcs.toNat ≤ 8)
    (hw : t.lzw.w = t.snap.imgCfg.mcs.toNat + 1) (hn : t.lzw.n = clearCode t.snap + 2)
    (hdict : ∀ k, memGet t.dict k = literalEntry t.snap k)
    (hprevBytes : ∀ str, t.lzw.p = some str → bytesBelow (clearCode t.snap) str.bytes)
    (hprevLen : ∀ str, t.lzw.p = some str → str.length * (str.length - 1) ≤ 2 * t.lzw.outn ∧
      (str.length * (str.length + 1) ≤ 2 * t.lzw.outn ∨ t.lzw.outn = pixelCount t.snap))
    (houtn : t.lzw.outn ≤ pixelCount t.snap)
    (houtput : ∀ k b, memGet t.idxbuf k = some b → k < t.lzw.outn ∧ b.toNat < clearCode t.snap)
    (hwritten : ∀ k, k < t.lzw.outn → (memGet t.idxbuf k).isSome = true)
    (hpos : t.lzw.pos ≤ streamBits t.snap) : LzwInv t := by
  obtain ⟨hclear, hclear'⟩ := clearCode_bounds hmcs.1 hmcs.2
  have hentry {k : Nat} {str : Str} (h : memGet t.dict k = some str) := literalEntry_eq_some ((hdict k).symm.trans h)
  refine {
    mcs := hmcs, width := ?width, count := ?count, fits := .inl ?fits, least := .inl hw, defined := ?defined
    literal := ?literal, longer := ?longer, prefixed := ?prefixed, prevEntry := fun h => absurd h hn.not_gt
    dictBytes := ?dictBytes, prevBytes := hprevBytes, outn := houtn, output := houtput, written := hwritten
    pos := hpos, entryLen := ?entryLen, prevLen := hprevLen }
  case width => rw [hw, Config.wMax]; omega
  case count => rw [hn, Config.dMax]; omega
  case fits =>
    rw [hn, hw, pow_succ, ← clearCode]
    omega
  case defined =>
    intro c
    rw [hdict, literalEntry, hn]
    split <;> simp <;> omega
  case literal => intro c hc; rw [hdict, literalEntry, if_pos hc]
  case longer => intro c str hc h; exact absurd (hentry h).1 (by omega)
  case prefixed => intro c str hc h; exact absurd (hentry h).1 (by omega)
  case dictBytes =>
    intro c str h x hx
    obtain ⟨hc, rfl⟩ := hentry h
    obtain rfl : x = BitVec.ofNat 8 c := List.mem_singleton.1 hx
    rw [BitVec.toNat_ofNat]
    omega
  case entryLen =>
    intro c str h
    obtain ⟨-, rfl⟩ := hentry h
    simp

/-- A reset within a decode keeps the invariants (R98, R111). -/
theorem lzwInv_dictReset {s : State} (h : LzwInv s) : LzwInv (dictReset s) :=
  lzwInv_of_literals h.mcs rfl rfl (memGet_dictReset s) h.prevBytes h.prevLen h.outn h.output h.written h.pos

/-- So does the clear code (R103). -/
theorem lzwInv_clearWork {s : State} (h : LzwInv s) : LzwInv (clearWork s) :=
  lzwInv_of_literals h.mcs rfl rfl (memGet_clearWork s) (fun _ hp => nomatch hp) (fun _ hp => nomatch hp) h.outn h.output
    h.written h.pos

/-- LzwStart establishes them (R99). -/
theorem lzwInv_lzwStart {s : State} (hmcs : 2 ≤ s.snap.imgCfg.mcs.toNat ∧ s.snap.imgCfg.mcs.toNat ≤ 8) :
    LzwInv (lzwStart s) :=
  lzwInv_of_literals hmcs rfl rfl (memGet_dictReset _) (fun _ hp => nomatch hp) (fun _ hp => nomatch hp) (Nat.zero_le _)
    (fun _ _ h => nomatch h) (fun _ h => absurd h (Nat.not_lt_zero _)) (Nat.zero_le _)

/-! ## The numbers of a grown dictionary -/

theorem le_grownCount (s : State) : s.lzw.n ≤ grownCount s := by
  rw [grownCount]; split <;> omega

theorem grownCount_of_prev {s : State} {p : Str} (hp : s.lzw.p = some p) (hn : s.lzw.n < 4096) :
    grownCount s = s.lzw.n + 1 := by
  simp [grownCount, hp, hn]

/-- N and W stay inside R77's bounds: W is the width of the next code until 12 bits and 4096 entries. -/
theorem grown_bounds {s : State} (h : LzwInv s) :
    (s.snap.imgCfg.mcs.toNat + 1 ≤ grownWidth s ∧ grownWidth s ≤ 12) ∧ grownCount s ≤ 4096 ∧
    (grownCount s < 2 ^ grownWidth s ∨ grownWidth s = 12 ∧ grownCount s = 4096) ∧
    (grownWidth s = s.snap.imgCfg.mcs.toNat + 1 ∨ 2 ^ (grownWidth s - 1) ≤ grownCount s) := by
  obtain ⟨hlo, hhi⟩ : s.snap.imgCfg.mcs.toNat + 1 ≤ s.lzw.w ∧ s.lzw.w ≤ 12 := h.width
  have hmax : s.lzw.n ≤ 4096 := h.count.2
  have hfits : s.lzw.n < 2 ^ s.lzw.w ∨ s.lzw.w = 12 ∧ s.lzw.n = 4096 := h.fits
  have hcount : grownCount s = s.lzw.n ∨ grownCount s = s.lzw.n + 1 ∧ s.lzw.n < 4096 := by
    rw [grownCount]; split
    · exact .inr ⟨rfl, by omega⟩
    · exact .inl rfl
  have hleast := h.least
  have hle := le_grownCount s
  by_cases hgrow : grownCount s = 2 ^ s.lzw.w ∧ s.lzw.w < 12
  · have hwidth : grownWidth s = s.lzw.w + 1 := if_pos hgrow
    have hpow : 2 ^ (s.lzw.w + 1) = 2 * 2 ^ s.lzw.w := by rw [pow_succ]; omega
    have hpos : 0 < 2 ^ s.lzw.w := by positivity
    rw [hwidth, hpow, Nat.add_sub_cancel]
    omega
  · have hwidth : grownWidth s = s.lzw.w := if_neg hgrow
    have hfull : s.lzw.w = 12 → 2 ^ s.lzw.w = 4096 := fun h => by rw [h]; rfl
    rw [hwidth]
    omega

/-! ## The entries of a grown dictionary -/

/-- The string of the next code: an entry of the dictionary, or P and its first byte while there is a code for it
(R105, R106). -/
def IsNextString (s : State) (str : Str) : Prop :=
  (∃ c, c < s.lzw.n ∧ memGet s.dict c = some str) ∨
  (s.lzw.n < 4096 ∧ ∃ p, s.lzw.p = some p ∧ str = p.snoc p.head)

/-- An entry after the code is an old one, or the new one (R109). -/
theorem grownEntry_cases {s : State} {str x : Str} {c : Nat} (h : grownEntry s str c = some x) :
    memGet s.dict c = some x ∨ c = s.lzw.n ∧ s.lzw.n < 4096 ∧ ∃ p, s.lzw.p = some p ∧ x = p.snoc str.head := by
  rw [grownEntry] at h
  split at h
  · split at h
    · exact .inr ⟨(by omega), (by omega), _, ‹_›, (Option.some.inj h).symm⟩
    · exact .inl h
  · exact .inl h

theorem grownEntry_of_ne {s : State} {str : Str} {c : Nat} (h : c ≠ s.lzw.n) :
    grownEntry s str c = memGet s.dict c := by
  rw [grownEntry]
  split
  · rw [if_neg fun hc => h hc.1]
  · rfl

section
variable {s : State} {str : Str} (hinv : LzwInv s)
include hinv

/-- An entry's code is below N (R116). -/
theorem lt_count_of_entry {c : Nat} {x : Str} (h : memGet s.dict c = some x) : c < s.lzw.n := by
  have hc := (hinv.defined c).1 (by rw [h]; rfl)
  have hn := hinv.count.1
  omega

theorem grownEntry_of_entry {c : Nat} {x : Str} (h : memGet s.dict c = some x) : grownEntry s str c = some x := by
  rw [grownEntry_of_ne (lt_count_of_entry hinv h).ne, h]

/-- The new entry comes from a previous entry that is a string of the dictionary, unless a forced reset kept it
[log 23]. -/
theorem prev_mem_of_short {p : Str} (hp : s.lzw.p = some p) (hlen : s.lzw.n = clearCode s.snap + 2 → p.length = 1) :
    ∃ q, q < s.lzw.n ∧ memGet s.dict q = some p := by
  rcases hinv.count.1.lt_or_eq with hlt | heq
  · exact hinv.prevEntry hlt p hp
  · have hhead := hinv.prevBytes p hp p.head p.head_mem_bytes
    refine ⟨p.head.toNat, by omega, ?_⟩
    rw [hinv.literal _ hhead, BitVec.ofNat_toNat, BitVec.setWidth_eq, ← Str.eq_single_of_length (hlen heq.symm)]

theorem bytesBelow_nextString (hstr : IsNextString s str) : bytesBelow (clearCode s.snap) str.bytes := by
  rcases hstr with ⟨c, -, hc⟩ | ⟨-, p, hp, rfl⟩
  · exact hinv.dictBytes c str hc
  · exact bytesBelow_snoc (hinv.prevBytes p hp) (hinv.prevBytes p hp p.head p.head_mem_bytes)

variable (hmissing : s.lzw.outn < pixelCount s.snap)
include hmissing

/-- While pixels are missing, P has cost the pixels of its own length too. -/
theorem prev_cost {p : Str} (hp : s.lzw.p = some p) : (p.length + 1) * p.length ≤ 2 * s.lzw.outn := by
  rw [Nat.mul_comm]
  exact (hinv.prevLen p hp).2.resolve_right hmissing.ne

/-- The string of the next code has cost the pixels of all shorter ones. -/
theorem nextString_cost (hstr : IsNextString s str) : str.length * (str.length - 1) ≤ 2 * s.lzw.outn := by
  rcases hstr with ⟨c, -, hc⟩ | ⟨-, p, hp, rfl⟩
  · exact hinv.entryLen c str hc
  · simpa using prev_cost hinv hmissing hp

end

/-! ## The fields of a grown state -/

section
variable {s : State} {str : Str}

theorem grownState_frame (hout : s.lzw.outn ≤ pixelCount s.snap) : grownState str s = { s with
    idxbuf := (grownState str s).idxbuf, dict := (grownState str s).dict
    lzw := ⟨grownWidth s, grownCount s, some str, s.lzw.pos, emittedCount s str⟩ } := by
  obtain ⟨m, d, hgrown, -, -⟩ := emitBytes_addEntry_growWidth str s hout
  rw [grownState, hgrown]

theorem memGet_grownState_idxbuf (hout : s.lzw.outn ≤ pixelCount s.snap) (k : Nat) :
    memGet (grownState str s).idxbuf k = emittedCell s str k := by
  obtain ⟨m, d, hgrown, hcells, -⟩ := emitBytes_addEntry_growWidth str s hout
  rw [grownState, hgrown, hcells]

theorem memGet_grownState_dict (hout : s.lzw.outn ≤ pixelCount s.snap) (c : Nat) :
    memGet (grownState str s).dict c = grownEntry s str c := by
  obtain ⟨m, d, hgrown, -, hentries⟩ := emitBytes_addEntry_growWidth str s hout
  rw [grownState, hgrown, hentries]

/-- An emitted cell is an old one or a byte of the string (R108). -/
theorem emittedCell_cases {k : Nat} {b : Byte} (h : emittedCell s str k = some b) :
    memGet s.idxbuf k = some b ∨ k < emittedCount s str ∧ b ∈ str.bytes := by
  rw [emittedCell] at h
  split at h
  · exact .inr ⟨by omega, List.mem_of_getElem? h⟩
  · exact .inl h

/-- The cells of the string are filled (R108). -/
theorem emittedCell_isSome {k : Nat} (hlo : s.lzw.outn ≤ k) (hhi : k < emittedCount s str) :
    (emittedCell s str k).isSome = true := by
  have hlen : k - s.lzw.outn < str.bytes.length := by
    rw [emittedCount] at hhi
    rw [Str.length_bytes]
    omega
  rw [emittedCell, if_pos ⟨hlo, hhi⟩, List.getElem?_eq_getElem hlen]
  rfl

variable (hinv : LzwInv s) (hstr : IsNextString s str) (hmissing : s.lzw.outn < pixelCount s.snap)
include hinv hstr

/-- The string of the code is an entry afterwards, for KWKWK the new one (R106). -/
theorem nextString_mem_grown : ∃ q, q < grownCount s ∧ grownEntry s str q = some str := by
  rcases hstr with ⟨c, hc, hentry⟩ | ⟨hn, p, hp, rfl⟩
  · exact ⟨c, hc.trans_le (le_grownCount s), grownEntry_of_entry hinv hentry⟩
  · exact ⟨s.lzw.n, by rw [grownCount_of_prev hp hn]; omega, by simp [grownEntry, hp, hn, Str.snoc]⟩

include hmissing

/-- A string code keeps the invariants, up to the forced reset (R105, R106, R108 to R110, R116). -/
theorem lzwInv_grownState : LzwInv (grownState str s) := by
  have hout := hmissing.le
  have hsnap : (grownState str s).snap = s.snap := by rw [grownState_frame hout]
  have hlzw : (grownState str s).lzw = ⟨grownWidth s, grownCount s, some str, s.lzw.pos, emittedCount s str⟩ := by
    rw [grownState_frame hout]
  obtain ⟨hwidth, hcount, hfits, hleast⟩ := grown_bounds hinv
  have hn := hinv.count.1
  have hle := le_grownCount s
  have hmore : s.lzw.outn ≤ emittedCount s str := by rw [emittedCount]; omega
  have hbytes := bytesBelow_nextString hinv hstr
  have hcost := nextString_cost hinv hmissing hstr
  have hnewBytes {p : Str} (hp : s.lzw.p = some p) : bytesBelow (clearCode s.snap) (p.snoc str.head).bytes :=
    bytesBelow_snoc (hinv.prevBytes p hp) (hbytes _ str.head_mem_bytes)
  refine {
    mcs := ?mcs, width := ?width, count := ?count, fits := ?fits, least := ?least, defined := ?defined
    literal := ?literal, longer := ?longer, prefixed := ?prefixed, prevEntry := ?prevEntry, dictBytes := ?dictBytes
    prevBytes := ?prevBytes, outn := ?outn, output := ?output, written := ?written, pos := ?pos
    entryLen := ?entryLen, prevLen := ?prevLen }
  all_goals simp only [hsnap, hlzw, memGet_grownState_dict hout, memGet_grownState_idxbuf hout, Config.wMax, Config.dMax]
  case mcs => exact hinv.mcs
  case width => exact hwidth
  case count => exact ⟨hn.trans hle, hcount⟩
  case fits => exact hfits
  case least => exact hleast
  case defined =>
    intro c
    constructor
    · intro h
      obtain ⟨x, hx⟩ := Option.isSome_iff_exists.1 h
      rcases grownEntry_cases hx with hold | ⟨rfl, hlt, p, hp, -⟩
      · have := (hinv.defined c).1 (by rw [hold]; rfl)
        omega
      · rw [grownCount_of_prev hp hlt]
        omega
    · intro h
      by_cases hc : c = s.lzw.n
      · subst hc
        have hgrown : s.lzw.n < grownCount s := by omega
        obtain ⟨hp, hlt⟩ : s.lzw.p.isSome = true ∧ s.lzw.n < 4096 := by
          by_contra hnot
          rw [grownCount, if_neg hnot] at hgrown
          omega
        obtain ⟨p, hp⟩ := Option.isSome_iff_exists.1 hp
        simp [grownEntry, hp, hlt]
      · rw [grownEntry_of_ne hc, hinv.defined]
        have : grownCount s ≤ s.lzw.n + 1 := by rw [grownCount]; split <;> omega
        omega
  case literal => exact fun c hc => grownEntry_of_entry hinv (hinv.literal c hc)
  case longer =>
    intro c x hc h
    rcases grownEntry_cases h with hold | ⟨-, -, p, -, rfl⟩
    · exact hinv.longer c x hc hold
    · rw [Str.length_snoc]
      have := p.length_pos
      omega
  case prefixed =>
    intro c x hc h hlen
    rcases grownEntry_cases h with hold | ⟨rfl, -, p, hp, rfl⟩
    · obtain ⟨q, b, pre, hq, hpre, hx⟩ := hinv.prefixed c x hc hold hlen
      exact ⟨q, b, pre, hq, grownEntry_of_entry hinv hpre, hx⟩
    · obtain ⟨q, hq, hpre⟩ := prev_mem_of_short hinv hp fun heq => by simpa using hlen heq
      exact ⟨q, str.head, p, hq, grownEntry_of_entry hinv hpre, rfl⟩
  case prevEntry =>
    rintro - x hx
    cases hx
    exact nextString_mem_grown hinv hstr
  case dictBytes =>
    intro c x h
    rcases grownEntry_cases h with hold | ⟨-, -, p, hp, rfl⟩
    · exact hinv.dictBytes c x hold
    · exact hnewBytes hp
  case prevBytes => rintro x hx; cases hx; exact hbytes
  case outn => rw [emittedCount]; omega
  case output =>
    intro k b h
    rcases emittedCell_cases h with hold | ⟨hk, hb⟩
    · have := hinv.output k b hold
      exact ⟨by omega, this.2⟩
    · exact ⟨hk, hbytes b hb⟩
  case written =>
    intro k hk
    by_cases hlo : s.lzw.outn ≤ k
    · exact emittedCell_isSome hlo hk
    · rw [emittedCell, if_neg fun h => hlo h.1]
      exact hinv.written k (by omega)
  case pos => exact hinv.pos
  case entryLen =>
    intro c x h
    rcases grownEntry_cases h with hold | ⟨-, -, p, hp, rfl⟩
    · have := hinv.entryLen c x hold
      omega
    · have := prev_cost hinv hmissing hp
      rw [Str.length_snoc, Nat.add_sub_cancel]
      omega
  case prevLen =>
    rintro x hx
    cases hx
    refine ⟨by omega, ?_⟩
    have hnext : str.length * (str.length + 1) = str.length * (str.length - 1) + 2 * str.length := by
      obtain ⟨l, hl⟩ := Nat.exists_eq_add_of_le' str.length_pos
      rw [hl, Nat.add_sub_cancel]
      ring
    rw [hnext, emittedCount]
    omega

end

end Machine
end Sys2Proof
end

section
/-! The family of the remaining statements, a whole decode: its steps keep the invariants and meet no fault on a loaded
stream (R116, R172), it ends (R115), and what DECODE leaves (R89, R97, R114). -/

namespace Sys2Proof.Machine

/-! ## One step keeps the invariants -/

/-- POS moves past a code that lies inside the stream (R102). -/
theorem lzwInv_advancePos {s : State} (h : LzwInv s) (hfits : s.lzw.pos + s.lzw.w ≤ streamBits s.snap) :
    LzwInv (advancePos s) where
  mcs := h.mcs
  width := h.width
  count := h.count
  fits := h.fits
  least := h.least
  defined := h.defined
  literal := h.literal
  longer := h.longer
  prefixed := h.prefixed
  prevEntry := h.prevEntry
  dictBytes := h.dictBytes
  prevBytes := h.prevBytes
  outn := h.outn
  output := h.output
  written := h.written
  pos := hfits
  entryLen := h.entryLen
  prevLen := h.prevLen

theorem lzwInv_stopWith {s : State} (h : LzwInv s) (r : Stop) : LzwInv (stopWith r s) :=
  lzwInv_congr h rfl rfl rfl rfl

/-- A string code is read at a width its code fits in, so a KWKWK code is below 4096 (R75, R77). -/
theorem codeWork_string_cases {c : Nat} {s t : State} (hinv : LzwInv s) (hc : c < 2 ^ s.lzw.w)
    (h : codeWork c s = .ok t) :
    t = clearWork s ∨ t = stopWith .endCode s ∨ t = invalidCode s ∨
      ∃ str, IsNextString s str ∧ emitAndGrow str s = .ok t := by
  rcases codeWork_cases h with ⟨-, rfl⟩ | ⟨-, rfl⟩ | ⟨-, -, hlt, str, hstr, h⟩ | ⟨-, -, rfl, p, hp, h⟩ | ⟨-, -, -, rfl⟩
  · exact .inl rfl
  · exact .inr (.inl rfl)
  · exact .inr (.inr (.inr ⟨str, .inl ⟨c, hlt, hstr⟩, h⟩))
  · have hmax : 2 ^ s.lzw.w ≤ 2 ^ 12 := Nat.pow_le_pow_right (by decide) hinv.width.2
    exact .inr (.inr (.inr ⟨_, .inr ⟨by omega, p, hp, rfl⟩, h⟩))
  · exact .inr (.inr (.inl rfl))

theorem invalidCode_cases (s : State) : invalidCode s = stopWith .invalid s ∨ invalidCode s = s := by
  rw [invalidCode]; split
  · exact .inl rfl
  · exact .inr rfl

/-- What a decode step can do, in the terms of the invariants: it stops before reading, or it reads a code, which clears,
stops, is ignored, or emits and grows (R100). -/
theorem lzwStep_string_cases {s t : State} (hinv : LzwInv s) (h : lzwStep s = .ok t) :
    (∃ r, t = stopWith r s) ∨
    s.lzw.outn < pixelCount s.snap ∧ LzwInv (advancePos s) ∧
      (t = clearWork (advancePos s) ∨ (∃ r, t = stopWith r (advancePos s)) ∨ t = advancePos s ∨
        ∃ str, IsNextString (advancePos s) str ∧ emitAndGrow str (advancePos s) = .ok t) := by
  rcases lzwStep_cases h with ⟨-, rfl⟩ | ⟨-, -, rfl⟩ | ⟨hmissing, hfits, c, hread, hwork⟩
  · exact .inl ⟨_, rfl⟩
  · exact .inl ⟨_, rfl⟩
  · have hadv := lzwInv_advancePos hinv hfits
    refine .inr ⟨hmissing, hadv, ?_⟩
    rcases codeWork_string_cases hadv (readBits_lt hread) hwork with rfl | rfl | rfl | hstr
    · exact .inl rfl
    · exact .inr (.inl ⟨_, rfl⟩)
    · rcases invalidCode_cases (advancePos s) with h | h
      · exact .inr (.inl ⟨_, h⟩)
      · exact .inr (.inr (.inl h))
    · exact .inr (.inr (.inr hstr))

/-- A string code, its forced reset included, keeps the invariants. -/
theorem lzwInv_emitAndGrow {s t : State} {str : Str} (hinv : LzwInv s) (hstr : IsNextString s str)
    (hmissing : s.lzw.outn < pixelCount s.snap) (h : emitAndGrow str s = .ok t) : LzwInv t := by
  have hgrown := lzwInv_grownState hinv hstr hmissing
  rcases forcedReset_cases h with rfl | ⟨rfl, -⟩
  · exact hgrown
  · exact lzwInv_dictReset hgrown

theorem lzwInv_lzwStep {s t : State} (hinv : LzwInv s) (h : lzwStep s = .ok t) : LzwInv t := by
  rcases lzwStep_string_cases hinv h with ⟨r, rfl⟩ | ⟨hmissing, hadv, rfl | ⟨r, rfl⟩ | rfl | ⟨str, hstr, h⟩⟩
  · exact lzwInv_stopWith hinv r
  · exact lzwInv_clearWork hadv
  · exact lzwInv_stopWith hadv r
  · exact hadv
  · exact lzwInv_emitAndGrow hadv hstr hmissing h

/-! ## No fault on a loaded stream -/

theorem grownState_reads {s : State} {str : Str} :
    (grownState str s).snap = s.snap ∧ (grownState str s).cdata = s.cdata ∧ (grownState str s).lzw.pos = s.lzw.pos := by
  obtain ⟨m, o, hemit⟩ := emitBytes_frame str.bytes s
  rw [grownState, hemit, growWidth_addEntry]
  exact ⟨rfl, rfl, rfl⟩

theorem emitAndGrow_of_loaded {s : State} (hloaded : cdataLoaded s.snap s) (str : Str) :
    ∃ t, emitAndGrow str s = .ok t := by
  obtain ⟨hsnap, hcdata, hpos⟩ := grownState_reads (s := s) (str := str)
  rw [emitAndGrow_eq]
  refine forcedReset_ok fun hbits => ?_
  rw [hsnap, hpos] at hbits
  rw [hcdata, hpos]
  exact readBits_loaded hloaded hbits

theorem codeWork_of_loaded {s : State} (hinv : LzwInv s) (hloaded : cdataLoaded s.snap s) (c : Nat) :
    ∃ t, codeWork c s = .ok t := by
  unfold codeWork
  split_ifs with hclear hend hdict hkwkwk
  · exact ⟨_, rfl⟩
  · exact ⟨_, rfl⟩
  · have hentry : (memGet s.dict c).isSome = true := (hinv.defined c).2 (by omega)
    obtain ⟨str, hstr⟩ := Option.isSome_iff_exists.1 hentry
    rw [dictWork, engineRead_eq_ok.2 hstr, Except_bind_ok]
    exact emitAndGrow_of_loaded hloaded str
  · obtain ⟨p, hp⟩ := Option.isSome_iff_exists.1 hkwkwk.2
    rw [kwkwkWork, hp]
    exact emitAndGrow_of_loaded hloaded _
  · exact ⟨_, rfl⟩

/-- A ⊥ dictionary cell is never read (R116, R172). -/
theorem lzwStep_of_loaded {s : State} (hinv : LzwInv s) (hloaded : cdataLoaded s.snap s) : ∃ t, lzwStep s = .ok t := by
  unfold lzwStep
  split_ifs with hcount hinput
  · exact ⟨_, rfl⟩
  · exact ⟨_, rfl⟩
  · have hfits : s.lzw.pos + s.lzw.w ≤ streamBits s.snap := by omega
    obtain ⟨c, hc⟩ := readBits_loaded hloaded hfits
    rw [hc, Except_bind_ok]
    exact codeWork_of_loaded (lzwInv_advancePos hinv hfits) hloaded c

/-- A string of 4097 bytes costs 1 + 2 + … + 4096 pixels (R48) [log 27]. -/
theorem entry_length_le {s : State} (hinv : LzwInv s) (hsmall : pixelCount s.snap < 8390656) {c : Nat} {str : Str}
    (h : memGet s.dict c = some str) : str.length ≤ 4096 := by
  have hcost := hinv.entryLen c str h
  have hout := hinv.outn
  by_contra hlong
  have : 4097 * 4096 ≤ str.length * (str.length - 1) := Nat.mul_le_mul (by omega) (by omega)
  omega

/-! ## Until a forced reset -/

/-- With every entry an earlier string plus one byte, a string is at most one byte longer than its code (R116). -/
theorem length_le_of_prefixed {s : State} (hinv : LzwInv s)
    (hentry : ∀ c str, clearCode s.snap + 2 ≤ c → memGet s.dict c = some str →
      ∃ q b pre, q < c ∧ memGet s.dict q = some pre ∧ str = pre.snoc b)
    (c : Nat) (str : Str) (h : memGet s.dict c = some str) : str.length ≤ c + 1 := by
  induction c using Nat.strong_induction_on generalizing str with
  | _ c ih =>
    rcases (hinv.defined c).1 (by rw [h]; rfl) with hlit | ⟨hc, -⟩
    · cases h.symm.trans (hinv.literal c hlit)
      simp
    · obtain ⟨q, b, pre, hq, hpre, rfl⟩ := hentry c str hc h
      have := ih q hq pre hpre
      rw [Str.length_snoc]
      omega

/-- R48's bound follows, because the dictionary has 4096 codes. -/
theorem dictPrefixInv_of_prefixed {s : State} (hinv : LzwInv s)
    (hprev : ∀ str, s.lzw.p = some str → ∃ q, q < s.lzw.n ∧ memGet s.dict q = some str)
    (hentry : ∀ c str, clearCode s.snap + 2 ≤ c → memGet s.dict c = some str →
      ∃ q b pre, q < c ∧ memGet s.dict q = some pre ∧ str = pre.snoc b) : DictPrefixInv s where
  prev := hprev
  entry := hentry
  short c str h := by
    have hlen := length_le_of_prefixed hinv hentry c str h
    have hc := lt_count_of_entry hinv h
    have hmax : s.lzw.n ≤ 4096 := hinv.count.2
    omega

/-- After DictReset without a previous entry there is no entry yet. -/
theorem dictPrefixInv_of_literals {t : State} (hinv : LzwInv t) (hdict : ∀ k, memGet t.dict k = literalEntry t.snap k)
    (hprev : t.lzw.p = none) : DictPrefixInv t := by
  refine dictPrefixInv_of_prefixed hinv (fun str hp => ?_) fun c str hc h => ?_
  · rw [hprev] at hp
    cases hp
  · have := (literalEntry_eq_some ((hdict c).symm.trans h)).1
    omega

theorem dictPrefixInv_congr {s t : State} (h : DictPrefixInv s) (hsnap : t.snap = s.snap) (hn : t.lzw.n = s.lzw.n)
    (hp : t.lzw.p = s.lzw.p) (hdict : t.dict = s.dict) : DictPrefixInv t where
  prev := by rw [hp, hn, hdict]; exact h.prev
  entry := by rw [hsnap, hdict]; exact h.entry
  short := by rw [hdict]; exact h.short

/-- A string code makes its entry from a previous entry that is a string of the dictionary (R109). -/
theorem dictPrefixInv_grownState {s : State} {str : Str} (hinv : LzwInv s) (hpre : DictPrefixInv s)
    (hstr : IsNextString s str) (hmissing : s.lzw.outn < pixelCount s.snap) : DictPrefixInv (grownState str s) := by
  have hframe := grownState_frame (str := str) hmissing.le
  have hsnap : (grownState str s).snap = s.snap := by rw [hframe]
  have hlzw : (grownState str s).lzw = ⟨grownWidth s, grownCount s, some str, s.lzw.pos, emittedCount s str⟩ := by
    rw [hframe]
  refine dictPrefixInv_of_prefixed (lzwInv_grownState hinv hstr hmissing) ?prev ?entry
  all_goals simp only [hsnap, hlzw, memGet_grownState_dict hmissing.le]
  case prev => rintro x hx; cases hx; exact nextString_mem_grown hinv hstr
  case entry =>
    intro c x hc h
    rcases grownEntry_cases h with hold | ⟨rfl, -, p, hp, rfl⟩
    · obtain ⟨q, b, pre, hq, hentry, hx⟩ := hpre.entry c x hc hold
      exact ⟨q, b, pre, hq, grownEntry_of_entry hinv hentry, hx⟩
    · obtain ⟨q, hq, hentry⟩ := hpre.prev p hp
      exact ⟨q, str.head, p, hq, grownEntry_of_entry hinv hentry, rfl⟩

/-! ## The loop -/

theorem lzwLoop_stopped {s : State} (h : s.status.stop ≠ .none) (n : Nat) : lzwLoop n s = .ok s := by
  cases n with
  | zero => rfl
  | succ n => rw [lzwLoop, if_neg h]

theorem lzwLoop_succ {s : State} (h : s.status.stop = .none) (n : Nat) :
    lzwLoop (n + 1) s = (lzwStep s).bind (lzwLoop n) := by
  rw [lzwLoop, if_pos h]

/-- A loop that has not stopped has read that many codes of at least MCS + 1 bits (R115). -/
theorem lzwLoop_progress {n : Nat} {s t : State} (hw : s.snap.imgCfg.mcs.toNat + 1 ≤ s.lzw.w)
    (h : lzwLoop (n + 1) s = .ok t) (hstop : t.status.stop = .none) :
    s.lzw.pos + (n + 1) * (s.snap.imgCfg.mcs.toNat + 1) ≤ streamBits s.snap := by
  induction n generalizing s with
  | zero =>
    by_cases hs : s.status.stop = .none
    · rw [lzwLoop_succ hs] at h
      obtain ⟨u, hu, h⟩ := bind_eq_ok.1 h
      cases h
      obtain ⟨-, -, hkind⟩ := lzwStep_frame hu
      simp only [hstop, reduceCtorEq, false_and, false_or] at hkind
      omega
    · rw [lzwLoop_stopped hs] at h
      cases h
      exact absurd hstop hs
  | succ n ih =>
    by_cases hs : s.status.stop = .none
    · rw [lzwLoop_succ hs] at h
      obtain ⟨u, hu, h⟩ := bind_eq_ok.1 h
      obtain ⟨hframe, hwidth, hkind⟩ := lzwStep_frame hu
      have hsnap : u.snap = s.snap := by rw [hframe]
      have hu : u.status.stop = .none := by
        by_contra hne
        rw [lzwLoop_stopped hne] at h
        cases h
        exact hne hstop
      have hrest := ih (by rw [hsnap]; exact hwidth hw) h
      simp only [hu, reduceCtorEq, false_and, false_or] at hkind
      rw [hsnap, hkind.2.1] at hrest
      rw [Nat.add_mul _ 1]
      omega
    · rw [lzwLoop_stopped hs] at h
      cases h
      exact absurd hstop hs

/-- Every decode stops within its bound (R115). -/
theorem lzwLoop_ends {s t : State} (hw : s.snap.imgCfg.mcs.toNat + 1 ≤ s.lzw.w)
    (h : lzwLoop (lzwBound s.snap) s = .ok t) : t.status.stop ≠ .none := by
  intro hstop
  have hread := lzwLoop_progress hw h hstop
  have hbound := Nat.lt_div_mul_add (a := streamBits s.snap) (b := s.snap.imgCfg.mcs.toNat + 1) (Nat.succ_pos _)
  rw [Nat.add_mul, Nat.one_mul] at hread
  omega

/-- What the stop reasons say of a loop that began unstopped (R101, R107). -/
theorem lzwLoop_stop {n : Nat} {s t : State} (hs : s.status.stop = .none) (h : lzwLoop n s = .ok t) :
    (t.status.stop = .invalid → s.snap.ctrl.strict = true) ∧
    (t.status.stop = .count → pixelCount s.snap ≤ t.lzw.outn) := by
  induction n generalizing s with
  | zero =>
    cases h
    simp [hs]
  | succ n ih =>
    rw [lzwLoop_succ hs] at h
    obtain ⟨u, hu, h⟩ := bind_eq_ok.1 h
    obtain ⟨hframe, -, hkind⟩ := lzwStep_frame hu
    have hsnap : u.snap = s.snap := by rw [hframe]
    by_cases hstop : u.status.stop = .none
    · rw [← hsnap]
      exact ih hstop h
    · rw [lzwLoop_stopped hstop] at h
      cases h
      rcases hkind with ⟨hst, hlzw, hcount⟩ | ⟨hst, -⟩ | ⟨-, -, hst | hst | ⟨hst, hstrict⟩⟩
      · exact ⟨fun hi => (by simp [hst] at hi), fun _ => by rw [hlzw]; exact hcount⟩
      · simp [hst]
      · exact absurd (hst.trans hs) hstop
      · simp [hst]
      · exact ⟨fun _ => hstrict, fun hc => by simp [hst] at hc⟩

theorem lzwInv_lzwLoop {n : Nat} {s t : State} (hinv : LzwInv s) (h : lzwLoop n s = .ok t) : LzwInv t := by
  induction n generalizing s with
  | zero => cases h; exact hinv
  | succ n ih =>
    by_cases hs : s.status.stop = .none
    · rw [lzwLoop_succ hs] at h
      obtain ⟨u, hu, h⟩ := bind_eq_ok.1 h
      exact ih (lzwInv_lzwStep hinv hu) h
    · rw [lzwLoop_stopped hs] at h
      cases h
      exact hinv

/-- On a loaded stream the loop meets no fault. -/
theorem lzwLoop_of_loaded {s : State} (hinv : LzwInv s) (hloaded : cdataLoaded s.snap s) (n : Nat) :
    ∃ t, lzwLoop n s = .ok t := by
  induction n generalizing s with
  | zero => exact ⟨s, rfl⟩
  | succ n ih =>
    by_cases hs : s.status.stop = .none
    · obtain ⟨u, hu⟩ := lzwStep_of_loaded hinv hloaded
      have hframe := (lzwStep_frame hu).1
      rw [lzwLoop_succ hs, hu, Except_bind_ok]
      refine ih (lzwInv_lzwStep hinv hu) ?_
      rw [hframe]
      exact hloaded
    · exact ⟨s, lzwLoop_stopped hs _⟩

/-! ## A whole decode -/

/-- What is left after a decode that began unstopped: the invariants, and why it stopped (R113, R116). -/
structure Decoded (c : Conf) (t : State) : Prop where
  inv : LzwInv t
  stopped : t.status.stop ≠ .none
  strict : t.status.stop = .invalid → c.ctrl.strict = true
  full : t.status.stop = .count → t.lzw.outn = pixelCount c

theorem underrunCheck_eq (s : State) : underrunCheck s = { s with warn := { s.warn with
    underrun := s.warn.underrun || (s.status.stop != .count && decide (s.lzw.outn < pixelCount s.snap)) } } := by
  rw [underrunCheck]
  split <;> rename_i h
  · simp [warnUnderrun, h]
  · have hfalse : (s.status.stop != .count && decide (s.lzw.outn < pixelCount s.snap)) = false := by
      rw [Bool.eq_false_iff]
      simpa using h
    rw [hfalse, Bool.or_false]

/-- A decode with MCS in range and its stream loaded meets no fault and ends with a stop reason (R97, R115, R172). -/
theorem lzwDecode_of_loaded {s : State} (hmcs : 2 ≤ s.snap.imgCfg.mcs.toNat ∧ s.snap.imgCfg.mcs.toNat ≤ 8)
    (hstop : s.status.stop = .none) (hloaded : cdataLoaded s.snap s) :
    ∃ t, lzwDecode s = .ok t ∧ Decoded s.snap t ∧
      t.warn.underrun = (s.warn.underrun || (t.status.stop != .count && decide (t.lzw.outn < pixelCount s.snap))) := by
  have hstart : LzwInv (lzwStart s) := lzwInv_lzwStart hmcs
  obtain ⟨u, hu⟩ := lzwLoop_of_loaded hstart hloaded (lzwBound s.snap)
  have hinv := lzwInv_lzwLoop hstart hu
  have hends := lzwLoop_ends (s := lzwStart s) (le_refl _) hu
  obtain ⟨hstrict, hfull⟩ := lzwLoop_stop (s := lzwStart s) hstop hu
  have hframe := lzwLoop_frame hu
  have hsnap : u.snap = s.snap := by rw [hframe]; rfl
  have hwarn : u.warn = s.warn := by rw [hframe]; rfl
  refine ⟨underrunCheck u, by rw [lzwDecode, hu, Except_bind_ok], ?_⟩
  rw [underrunCheck_eq]
  refine ⟨⟨lzwInv_congr hinv rfl rfl rfl rfl, hends, hstrict, fun hcount => le_antisymm ?_ (hfull hcount)⟩, ?_⟩
  · exact hsnap ▸ hinv.outn
  · rw [hwarn, hsnap]

/-! ## The statements -/

/-- Settles O23: no entry and no previous entry yet, and nothing out. -/
theorem lzwStartEstablishesInvariant : Obligations.LzwStartEstablishesInvariant := by
  unfold Obligations.LzwStartEstablishesInvariant
  intro s hlo hhi
  have hinv : LzwInv (lzwStart s) := lzwInv_lzwStart ⟨hlo, hhi⟩
  exact ⟨hinv, dictPrefixInv_of_literals hinv (memGet_dictReset _) rfl⟩

/-- Settles O24: by the cases of a step, and by the pixels a long string costs. -/
theorem lzwStepKeepsInvariant : Obligations.LzwStepKeepsInvariant := by
  unfold Obligations.LzwStepKeepsInvariant
  exact fun s hinv => ⟨fun t => lzwInv_lzwStep hinv, lzwStep_of_loaded hinv,
    fun hsmall c str h => ⟨str.length_pos, entry_length_le hinv hsmall h⟩⟩

/-- Settles O25: a string code's entry is made from a string of the dictionary, and only a forced reset undoes that. -/
theorem dictionaryIsPrefixClosedWithoutEarlyReset : Obligations.DictionaryIsPrefixClosedWithoutEarlyReset := by
  unfold Obligations.DictionaryIsPrefixClosedWithoutEarlyReset
  intro s t hinv hpre h
  have hkeep (ht : DictPrefixInv t) : (s.snap.ctrl.earlyReset = false → DictPrefixInv t) ∧
      (DictPrefixInv t ∨ peekDue (advancePos s) ∧ t.lzw.n = clearCode s.snap + 2 ∧ t.lzw.p.isSome = true) :=
    ⟨fun _ => ht, .inl ht⟩
  rcases lzwStep_string_cases hinv h with ⟨r, rfl⟩ | ⟨hmissing, hadv, rfl | ⟨r, rfl⟩ | rfl | ⟨str, hstr, h⟩⟩
  · exact hkeep (dictPrefixInv_congr hpre rfl rfl rfl rfl)
  · exact hkeep (dictPrefixInv_of_literals (lzwInv_clearWork hadv) (memGet_clearWork _) rfl)
  · exact hkeep (dictPrefixInv_congr hpre rfl rfl rfl rfl)
  · exact hkeep (dictPrefixInv_congr hpre rfl rfl rfl rfl)
  · have hgrown := dictPrefixInv_grownState hadv (dictPrefixInv_congr hpre rfl rfl rfl rfl) hstr hmissing
    have hframe := grownState_frame (s := advancePos s) (str := str) hmissing.le
    rcases forcedReset_cases h with rfl | ⟨rfl, hearly, hw, hn⟩
    · exact hkeep hgrown
    · rw [← grownState, hframe] at hearly hw hn
      refine ⟨fun hoff => ?_, .inr ⟨⟨hearly, hw, hn⟩, ?_, ?_⟩⟩
      · exact absurd (hoff.symm.trans hearly) Bool.false_ne_true
      · rw [← grownState, hframe]; rfl
      · rw [← grownState, hframe]; rfl

/-- Settles O26: each step but the last reads MCS + 1 bits or more. -/
theorem decodeLoopEndsWithinBound : Obligations.DecodeLoopEndsWithinBound := by
  unfold Obligations.DecodeLoopEndsWithinBound
  exact fun s t h => lzwLoop_ends (s := lzwStart s) (le_refl _) h

end Sys2Proof.Machine
end

section
/-! The family of the remaining statements, the interlace reorderer: the row order (R119 to R122) and REORDER (R90, R118). -/

namespace Sys2Proof.Machine

/-! ## The passes -/

/-- One pass lists its rows by their number, for any function that counts them: it goes up by one at each row of the pass. -/
theorem passRows_eq {start stride : Nat} (count : Nat → Nat) (hzero : count 0 = 0)
    (hrow : ∀ h, start ≤ h → (h - start) % stride = 0 → h = start + stride * count h ∧ count (h + 1) = count h + 1)
    (hother : ∀ h, ¬ (start ≤ h ∧ (h - start) % stride = 0) → count (h + 1) = count h) (h : Nat) :
    passRows start stride h = (List.range (count h)).map fun i => start + stride * i := by
  induction h with
  | zero => rw [hzero]; rfl
  | succ h ih =>
    have hsplit : passRows start stride (h + 1) =
        passRows start stride h ++ if start ≤ h ∧ (h - start) % stride = 0 then [h] else [] := by
      simp only [passRows, List.range_succ, List.filter_append, List.filter_cons, List.filter_nil, Bool.and_eq_true,
        decide_eq_true_eq, beq_iff_eq]
    rw [hsplit, ih]
    split
    · rename_i hin
      obtain ⟨heq, hsucc⟩ := hrow h hin.1 hin.2
      rw [hsucc, List.range_succ, List.map_append, List.map_singleton, ← heq]
    · rename_i hout
      rw [hother h hout, List.append_nil]

theorem passRows_first (h : Nat) : passRows 0 8 h = (List.range ((h + 7) / 8)).map fun i => 0 + 8 * i :=
  passRows_eq (fun h => (h + 7) / 8) (by decide) (by omega) (by omega) h

theorem passRows_second (h : Nat) : passRows 4 8 h = (List.range ((h + 3) / 8)).map fun i => 4 + 8 * i :=
  passRows_eq (fun h => (h + 3) / 8) (by decide) (by omega) (by omega) h

theorem passRows_third (h : Nat) : passRows 2 4 h = (List.range ((h + 1) / 4)).map fun i => 2 + 4 * i :=
  passRows_eq (fun h => (h + 1) / 4) (by decide) (by omega) (by omega) h

theorem passRows_fourth (h : Nat) : passRows 1 2 h = (List.range (h / 2)).map fun i => 1 + 2 * i :=
  passRows_eq (fun h => h / 2) (by decide) (by omega) (by omega) h

theorem mem_passRows {start stride h d : Nat} :
    d ∈ passRows start stride h ↔ d < h ∧ start ≤ d ∧ (d - start) % stride = 0 := by
  simp [passRows]

/-! ## The closed form -/

/-- The closed form of R120 lists the four passes of R119 one after another. -/
theorem rowOrder_eq_map (h : Nat) : rowOrder h = (List.range h).map fun s => destRow s h := by
  have hrows : List.range h = List.range ((h + 7) / 8 + (h + 3) / 8 + (h + 1) / 4 + h / 2) := by
    congr 1; omega
  rw [rowOrder, passRows_first, passRows_second, passRows_third, passRows_fourth, hrows]
  simp only [List.range_add, List.map_append, List.map_map]
  congr 1
  · congr 1
    · congr 1
      · refine List.map_congr_left fun i hi => ?_
        have := List.mem_range.1 hi
        rw [destRow, if_pos this]
        omega
      · refine List.map_congr_left fun i hi => ?_
        have := List.mem_range.1 hi
        rw [Function.comp_apply, destRow, if_neg (by omega), if_pos (by omega)]
        omega
    · refine List.map_congr_left fun i hi => ?_
      have := List.mem_range.1 hi
      rw [Function.comp_apply, destRow, if_neg (by omega), if_neg (by omega), if_pos (by omega)]
      omega
  · refine List.map_congr_left fun i hi => ?_
    have := List.mem_range.1 hi
    rw [Function.comp_apply, destRow, if_neg (by omega), if_neg (by omega), if_neg (by omega)]
    omega

theorem destRow_lt {s h : Nat} (hs : s < h) : destRow s h < h := by
  unfold destRow
  dsimp only
  split_ifs <;> omega

/-- The four passes have no row in common (R121). -/
theorem destRow_injective {a b h : Nat} (heq : destRow a h = destRow b h) : a = b := by
  unfold destRow at heq
  dsimp only at heq
  split_ifs at heq <;> omega

/-- Every row is in one of the passes (R119). -/
theorem destRow_surjective {d h : Nat} (hd : d < h) : ∃ s, s < h ∧ destRow s h = d := by
  have hmem : d ∈ rowOrder h := by
    simp only [rowOrder, List.mem_append, mem_passRows]
    omega
  rw [rowOrder_eq_map] at hmem
  simpa using hmem

/-- From nine rows on, row 1 goes to row 8, which comes back to 1 for 15 and 16 rows alone. -/
theorem destRow_destRow_one {h : Nat} (hh : 9 ≤ h) (heq : destRow (destRow 1 h) h = 1) : h = 15 ∨ h = 16 := by
  have hone : destRow 1 h = 8 := by rw [destRow, if_pos (by omega)]
  rw [hone, destRow] at heq
  split_ifs at heq <;> omega

/-! ## The cells -/

section
variable {c : Conf}

theorem destCell_of_interlaced (hilace : c.imgCfg.ilace = true) (k : Nat) :
    destCell c k = destRow (k / c.iw.toNat) c.ih.toNat * c.iw.toNat + k % c.iw.toNat := if_pos hilace

theorem destCell_of_plain (hilace : c.imgCfg.ilace = false) (k : Nat) : destCell c k = k := by
  simp [destCell, hilace]

theorem width_pos_of_lt {k : Nat} (hk : k < pixelCount c) : 0 < c.iw.toNat := by
  rcases Nat.eq_zero_or_pos c.iw.toNat with h | h
  · simp [pixelCount, h] at hk
  · exact h

theorem destCell_lt {k : Nat} (hk : k < pixelCount c) : destCell c k < pixelCount c := by
  cases hilace : c.imgCfg.ilace with
  | false => rwa [destCell_of_plain hilace]
  | true =>
    have hw := width_pos_of_lt hk
    have hrow : k / c.iw.toNat < c.ih.toNat := (Nat.div_lt_iff_lt_mul hw).2 (by rwa [Nat.mul_comm])
    have hcol := Nat.mod_lt k hw
    have hle := Nat.mul_le_mul_right c.iw.toNat (Nat.succ_le_of_lt (destRow_lt hrow))
    rw [Nat.succ_mul] at hle
    rw [destCell_of_interlaced hilace, pixelCount, Nat.mul_comm c.iw.toNat]
    omega

/-- The row and the column of a destination determine the cell (R118, R121). -/
theorem destCell_injective {a b : Nat} (ha : a < pixelCount c) (heq : destCell c a = destCell c b) : a = b := by
  cases hilace : c.imgCfg.ilace with
  | false => rwa [destCell_of_plain hilace, destCell_of_plain hilace] at heq
  | true =>
    have hw := width_pos_of_lt ha
    rw [destCell_of_interlaced hilace, destCell_of_interlaced hilace] at heq
    have hrow (d k : Nat) : (d * c.iw.toNat + k % c.iw.toNat) / c.iw.toNat = d := by
      rw [Nat.mul_comm, Nat.mul_add_div hw, Nat.div_eq_of_lt (Nat.mod_lt k hw), Nat.add_zero]
    have hcol (d k : Nat) : (d * c.iw.toNat + k % c.iw.toNat) % c.iw.toNat = k % c.iw.toNat := by
      rw [Nat.mul_comm, Nat.mul_add_mod, Nat.mod_mod]
    have hdiv : a / c.iw.toNat = b / c.iw.toNat :=
      destRow_injective (by rw [← hrow (destRow (a / c.iw.toNat) c.ih.toNat) a, heq, hrow])
    have hmod : a % c.iw.toNat = b % c.iw.toNat := by
      rw [← hcol (destRow (a / c.iw.toNat) c.ih.toNat) a, heq, hcol]
    rw [← Nat.div_add_mod a c.iw.toNat, hdiv, hmod, Nat.div_add_mod]

end

section
variable {s : State} (hsize : pixelCount s.snap ≤ s.cfg.pixMax) (hwf : memWf s.cfg.pixMax s.rbuf = true)
include hsize hwf

theorem reorderRows_moved {k : Nat} (hk : k < pixelCount s.snap) :
    memGet (reorderRows s).rbuf (destCell s.snap k) = memGet s.idxbuf k :=
  moveCells_moved hwf (fun _ h => (destCell_lt (List.mem_range.1 h)).trans_le hsize) List.nodup_range
    (fun _ ha _ _ => destCell_injective (List.mem_range.1 ha)) (List.mem_range.2 hk)

theorem reorderRows_kept {j : Nat} (hj : pixelCount s.snap ≤ j) : memGet (reorderRows s).rbuf j = memGet s.rbuf j :=
  moveCells_other hwf (fun _ h => (destCell_lt (List.mem_range.1 h)).trans_le hsize)
    fun _ h => ((destCell_lt (List.mem_range.1 h)).trans_le hj).ne

end

/-- A command that passes V2 has its image inside the buffers (R84). -/
theorem pixelCount_le_of_checked {op : Op} {p : Config} {c : Conf} (hrow : Check.v2 ∈ checksOf op)
    (h : failedCheck op p c = none) : pixelCount c ≤ p.pixMax := by
  have := failedCheck_eq_none.1 h .v2 hrow
  simpa [checkFails] using this

/-- REORDER past its check moves the cells and completes (R90). -/
theorem exec_reorder {s : State} (hidle : s.phase = .idle) (hpass : failedCheck .reorder s.cfg s.conf = none) :
    exec .reorder s = .next { s with
      snap := s.conf, status := endStatus s .none s.status.stop
      rbuf := (reorderRows (accept .reorder s)).rbuf } := by
  calc exec .reorder s
      = asOutcome (reorderBody (accept .reorder s)) := exec_instrOf_idle hidle .reorder
    _ = .next (complete (reorderRows (accept .reorder s))) := by
        rw [reorderBody, checked_of_none (op := .reorder) (s := accept .reorder s) hpass, asOutcome_ok]
    _ = .next { complete (accept .reorder s) with rbuf := (reorderRows (accept .reorder s)).rbuf } := rfl
    _ = _ := by rw [complete_accept hidle]; rfl

/-! ## The statements -/

/-- Settles O28: the four ranges of the closed form are the four passes. -/
theorem destRowIsPassOrder : Obligations.DestRowIsPassOrder := by
  unfold Obligations.DestRowIsPassOrder
  exact rowOrder_eq_map

/-- Settles O29: the passes are disjoint and cover the rows. -/
theorem destRowIsBijection : Obligations.DestRowIsBijection := by
  unfold Obligations.DestRowIsBijection
  exact fun h => ⟨fun s => destRow_lt, fun a _ b _ => destRow_injective, fun d => destRow_surjective⟩

/-- Settles O30: row 1, or row 3 where row 1 does come back, shows the order not to be its own inverse. -/
theorem destRowSelfInverseOnlyUpToFour : Obligations.DestRowSelfInverseOnlyUpToFour := by
  unfold Obligations.DestRowSelfInverseOnlyUpToFour
  refine fun h => ⟨fun hinv => ?short, fun hh s hs => ?selfInverse⟩
  case short =>
    by_contra hlong
    by_cases hh : 9 ≤ h
    · rcases destRow_destRow_one hh (hinv 1 (by omega)) with rfl | rfl
      · exact absurd (hinv 3 (by decide)) (by decide)
      · exact absurd (hinv 3 (by decide)) (by decide)
    · have hthree := hinv 3 (by omega)
      obtain rfl | rfl | rfl | rfl : h = 5 ∨ h = 6 ∨ h = 7 ∨ h = 8 := by omega
      all_goals exact absurd hthree (by decide)
  case selfInverse =>
    have hrows : ∀ h ≤ 4, ∀ s < h, destRow (destRow s h) h = s := by decide
    exact hrows h hh s hs

/-- Settles O31: the destinations are cells of the image, each of one cell alone. -/
theorem reorderMovesEveryCell : Obligations.ReorderMovesEveryCell := by
  unfold Obligations.ReorderMovesEveryCell
  intro s hidle hpass hwf
  have hsize := pixelCount_le_of_checked (by decide) hpass
  exact ⟨_, exec_reorder hidle hpass, rfl, fun k => reorderRows_moved (s := accept .reorder s) hsize hwf,
    fun j => reorderRows_kept (s := accept .reorder s) hsize hwf⟩

end Sys2Proof.Machine
end

section
/-! The family of the remaining statements, the compositor: disposal 3 (R133), a composition that meets no fault (R172),
its pixels and warnings (R124, R135, R137, R170), the RBUF cells it reads (R136), and the frame history (R139). -/

namespace Sys2Proof.Machine

/-! ## No fault with the table and the history loaded -/

section
variable {s : State} (htable : tableLoaded s.snap s)
include htable

theorem tableRead_of_loaded {i : Nat} (hi : i < tableLen s.snap) : ∃ t, tableRead s i = .ok t := by
  have hentry := htable i hi
  unfold tableRead
  cases hsel : tableSel s.snap with
  | none => exact ⟨_, rfl⟩
  | globalTable =>
    simp only [hsel] at hentry
    obtain ⟨t, ht⟩ := Option.isSome_iff_exists.1 hentry
    exact ⟨t, engineRead_eq_ok.2 ht⟩
  | localTable =>
    simp only [hsel] at hentry
    obtain ⟨t, ht⟩ := Option.isSome_iff_exists.1 hentry
    exact ⟨t, engineRead_eq_ok.2 ht⟩

theorem background_of_loaded : ∃ bg, background s = .ok bg := by
  rw [background]
  split
  · obtain ⟨t, ht⟩ := tableRead_of_loaded htable ‹_›
    exact ⟨_, by rw [ht, Except_bind_ok]⟩
  · exact ⟨_, rfl⟩

theorem seedBackground_of_loaded : ∃ t, seedBackground s = .ok t := by
  obtain ⟨bg, hbg⟩ := background_of_loaded htable
  exact ⟨_, by rw [seedBackground, hbg, Except_bind_ok]⟩

theorem seedBy_of_loaded (hhistory : historyLoaded s.snap s) : ∃ t, seedBy s.frameInfo.lastDisp s = .ok t := by
  unfold seedBy seedPrevious seedKept
  split_ifs with hone hthree hkept
  · exact ⟨_, seedCopy_ok fun k hk => (hhistory k hk).1 hone⟩
  · exact ⟨_, seedCopy_ok fun k hk => (hhistory k hk).2 hthree hkept⟩
  · exact seedBackground_of_loaded htable
  · exact seedBackground_of_loaded htable

theorem paintIndex_of_loaded (k : Nat) (v : Option Byte) : ∃ t, paintIndex k v s = .ok t := by
  cases v with
  | none => exact ⟨_, rfl⟩
  | some v =>
    simp only [paintIndex]
    split_ifs with htrans hlen
    · exact ⟨_, rfl⟩
    · exact ⟨_, rfl⟩
    · obtain ⟨t, ht⟩ := tableRead_of_loaded htable (not_le.1 hlen)
      exact ⟨_, by rw [ht, Except_bind_ok]⟩

theorem paintCell_of_loaded (k j : Nat) : ∃ r, paintCell k j s = .ok r := by
  rw [paintCell]
  split
  · obtain ⟨t, ht⟩ := paintIndex_of_loaded htable k (memGet s.rbuf j)
    exact ⟨_, by rw [ht, Except_bind_ok]⟩
  · exact ⟨_, rfl⟩

end

theorem paintFrom_of_loaded {s : State} (htable : tableLoaded s.snap s) (n k j : Nat) :
    ∃ t, paintFrom n k j s = .ok t := by
  induction n generalizing k j s with
  | zero => exact ⟨s, rfl⟩
  | succ n ih =>
    obtain ⟨r, hr⟩ := paintCell_of_loaded htable k j
    have hframe := (paintCell_frame hr).1
    rw [paintFrom, hr, Except_bind_ok]
    refine ih ?_ _ _
    rw [hframe]
    exact htable

/-- A composition with its table and its history loaded meets no fault (R172). -/
theorem composeFrame_of_loaded {s : State} (htable : tableLoaded s.snap s) (hhistory : historyLoaded s.snap s) :
    ∃ u, composeFrame s = .ok u := by
  obtain ⟨bg, hbg⟩ := background_of_loaded htable
  obtain ⟨t, ht⟩ := seedBy_of_loaded htable hhistory
  have hframe := seedBy_frame ht
  obtain ⟨u, hu⟩ := paintFrom_of_loaded (s := t) (by rw [hframe]; exact htable) (canvasCount t.snap) 0 0
  exact ⟨emitFrame u, by rw [composeFrame, hbg, Except_bind_ok, ht, Except_bind_ok, paint, hu, Except_bind_ok]⟩

/-! ## Pixels -/

/-- COMPOSE with its checks passed is a composition and its completion (R91). -/
theorem exec_compose_of_checks_pass {s : State} (hidle : s.phase = .idle)
    (hpass : failedCheck .compose s.cfg s.conf = none) :
    exec .compose s = asOutcome ((composeFrame (accept .compose s)).bind fun t => .ok (complete t)) := by
  calc exec .compose s
      = asOutcome (composeBody (accept .compose s)) := exec_instrOf_idle hidle .compose
    _ = _ := by rw [composeBody, checked_of_none (op := .compose) (s := accept .compose s) hpass]

/-- The pixel of R135 and R137 is the painted cell over its seed. -/
theorem framePixel_eq_paintedCell {c : Conf} {s : State} {x y : Nat} (hx : x < c.sw.toNat) (hy : y < c.sh.toNat) :
    framePixel c s x y =
      paintedCell c s (y * c.sw.toNat + x) (seedPixel c s (y * c.sw.toNat + x)) := by
  obtain ⟨hmod, hdiv, -⟩ := cell_mod_div hx hy
  cases hin : inside c x y with
  | false =>
    rw [paintedCell_of_outside hx hy hin, framePixel]
    simp [hin]
  | true =>
    have hsource : consumed c (y * c.sw.toNat + x) = sourceCell c x y := by
      rw [consumed_inside (by rw [hmod, hdiv, hin]), hmod, hdiv]
    simp only [framePixel, paintedCell, paintedOver, hmod, hdiv, hin, hsource, if_true] <;> rfl

/-- A property of some canvas cell inside the rectangle and its RBUF cell, as one of some pixel (R135, R137). -/
theorem exists_cell_iff_exists_pixel {c : Conf} {p : Nat → Prop} :
    (∃ i, i < canvasCount c ∧ inside c (i % c.sw.toNat) (i / c.sw.toNat) = true ∧ p (consumed c i)) ↔
      ∃ x y, x < c.sw.toNat ∧ y < c.sh.toNat ∧ inside c x y = true ∧ p (sourceCell c x y) := by
  constructor
  · rintro ⟨i, hi, hin, hp⟩
    obtain ⟨hx, hy, -⟩ := cell_of_lt hi
    exact ⟨_, _, hx, hy, hin, consumed_inside hin ▸ hp⟩
  · rintro ⟨x, y, hx, hy, hin, hp⟩
    obtain ⟨hmod, hdiv, hlt⟩ := cell_mod_div hx hy
    have hcell : inside c ((y * c.sw.toNat + x) % c.sw.toNat) ((y * c.sw.toNat + x) / c.sw.toNat) = true := by
      rw [hmod, hdiv, hin]
    refine ⟨_, hlt, hcell, ?_⟩
    rw [consumed_inside hcell, hmod, hdiv]
    exact hp

/-! ## RBUF past the image -/

theorem withRbuf_checked (m : Mem Byte) (op : Op) (s : State) (work : State → Except Fault State)
    (hwork : work (withRbuf m s) = (work s).map (withRbuf m)) :
    checked op work (withRbuf m s) = (checked op work s).map (withRbuf m) := by
  cases hf : failedCheck op s.cfg s.snap with
  | none => rw [checked_of_none hf, checked_of_none (s := withRbuf m s) hf, hwork]
  | some code => rw [checked_of_some hf, checked_of_some (s := withRbuf m s) hf]; rfl

theorem withRbuf_composeBody {m : Mem Byte} {s : State} (h : ∀ j, j < pixelCount s.snap → memGet m j = memGet s.rbuf j) :
    composeBody (withRbuf m s) = (composeBody s).map (withRbuf m) := by
  refine withRbuf_checked m .compose s _ ?_
  rw [withRbuf_composeFrame h]
  cases composeFrame s <;> rfl

/-! ## The frame history -/

/-- The history stands in PREV, KEEP and FRAME_INFO alone. -/
theorem represents_congr {n : Nat} {h : List ((Nat → Option Rgba) × BitVec 3)} {s t : State} (hs : Represents n h s)
    (hinfo : t.frameInfo = s.frameInfo) (hprev : t.prev = s.prev) (hkeep : t.keep = s.keep) : Represents n h t := by
  rw [Represents, hinfo, hprev, hkeep]
  exact hs

/-- A composition appends its frame to the history (R138, R139). -/
theorem represents_composeFrame {h : List ((Nat → Option Rgba) × BitVec 3)} {s u : State}
    (hs : Represents (canvasCount s.snap) h s) (hu : composeFrame s = .ok u) :
    Represents (canvasCount s.snap) (h ++ [(fun k => memGet u.prev k, resolveDisp s.snap)]) u := by
  obtain ⟨v, rfl, hframe, -⟩ := composeFrame_spec hu
  have hsnap : v.snap = s.snap := by rw [hframe]
  have hkeepMem : v.keep = s.keep := by rw [hframe]
  have hinfo : v.frameInfo = s.frameInfo := by rw [hframe]
  obtain ⟨-, -, hkeepV, hkeep⟩ := hs
  refine ⟨?last, ?prev, ?keepV, ?keep⟩
  case last => simp [emitFrame_frameInfo, hsnap]
  case prev => simp +contextual
  case keepV =>
    simp only [emitFrame_frameInfo, hinfo, hsnap, Bool.or_eq_true, keeps_iff, hkeepV, List.mem_append,
      List.mem_singleton, or_and_right, exists_or, exists_eq_left]
  case keep =>
    intro f hf k hk
    rw [List.reverse_append, List.reverse_singleton, List.singleton_append, List.find?_cons] at hf
    by_cases hd : keeps (resolveDisp s.snap) = true
    · have hhead : (decide (resolveDisp s.snap = 0) || decide (resolveDisp s.snap = 1)) = true := hd
      rw [hhead] at hf
      cases hf
      show memGet (emitFrame v).keep k = memGet (emitFrame v).prev k
      rw [memGet_emitFrame_prev, emitFrame_keep, hsnap, if_pos hd, memGet_memCopy, if_pos hk, if_pos hk]
    · have hhead : (decide (resolveDisp s.snap = 0) || decide (resolveDisp s.snap = 1)) = false :=
        Bool.eq_false_iff.2 hd
      rw [hhead] at hf
      rw [emitFrame_keep, hsnap, if_neg hd, hkeepMem]
      exact hkeep f hf k hk

/-! ## The statements -/

/-- Settles O34: a copy of KEEP, or the background. -/
theorem restoreToPreviousCopiesKeptFrame : Obligations.RestoreToPreviousCopiesKeptFrame := by
  unfold Obligations.RestoreToPreviousCopiesKeptFrame
  intro s
  have hexec : exec .dispRestoreToPrevious s = asOutcome (seedKept s) := rfl
  rw [hexec, seedKept]
  refine ⟨fun hkept hloaded => ?kept, fun bg hkept hbg => ?none⟩
  case kept =>
    rw [hkept, if_pos rfl, seedCopy_ok hloaded]
    exact ⟨_, rfl, rfl, memGet_memCopy _ _ _⟩
  case none =>
    rw [hkept, if_neg Bool.false_ne_true, seedBackground_of_some hbg]
    exact ⟨_, rfl, rfl, memGet_memFill _ _ _⟩

/-- Settles O36: with everything loaded the composition succeeds, and its cells are the painted ones. -/
theorem composePaintsEveryPixel : Obligations.ComposePaintsEveryPixel := by
  unfold Obligations.ComposePaintsEveryPixel
  intro s hidle hpass htable hhistory
  obtain ⟨u, hu⟩ := composeFrame_of_loaded (s := accept .compose s) htable hhistory
  have hexec : exec .compose s = .next (complete u) := by
    rw [exec_compose_of_checks_pass hidle hpass, hu, Except_bind_ok, asOutcome_ok]
  obtain ⟨canvas, warn, ht, hpainted, -⟩ := exec_compose_next hidle hpass hexec
  refine ⟨_, hexec, fun x y hx hy => ?_⟩
  obtain ⟨-, -, hcell⟩ := cell_mod_div hx hy
  rw [ht, framePixel_eq_paintedCell hx hy, memGet_memCopy, if_pos hcell]
  exact hpainted _ hcell

/-- Settles O38: the warnings of the painted cells, told by pixels. -/
theorem composeWarnsExactlyOnBadPixels : Obligations.ComposeWarnsExactlyOnBadPixels := by
  unfold Obligations.ComposeWarnsExactlyOnBadPixels
  intro s t hidle hpass hexec
  obtain ⟨u, hu, rfl⟩ := exec_compose_idle hidle hpass hexec
  obtain ⟨v, rfl, -, -, -, hexhaust, hbadidx, -⟩ := composeFrame_spec hu
  have hbottom := exists_cell_iff_exists_pixel (c := s.conf) (p := fun j => memGet s.rbuf j = none)
  have hbad := exists_cell_iff_exists_pixel (c := s.conf) (p := fun j => ∃ w, memGet s.rbuf j = some w ∧
    resolveTrans s.conf ≠ some w ∧ tableLen s.conf ≤ w.toNat)
  simp only [← exists_and_left] at hbad
  exact ⟨hexhaust.trans (or_congr Iff.rfl hbottom), hbadidx.trans (or_congr Iff.rfl hbad)⟩

/-- Settles O39: acceptance and the checks do not read RBUF, and the composition reads it below E alone. -/
theorem paintReadsOnlyCellsBelowE : Obligations.PaintReadsOnlyCellsBelowE := by
  unfold Obligations.PaintReadsOnlyCellsBelowE
  intro s m hsame
  have hrun (s : State) : exec .compose s = runCommand .compose composeBody s := rfl
  rw [hrun, hrun, runCommand, runCommand, show busy { s with rbuf := m } = busy s from rfl]
  cases busy s with
  | true => rfl
  | false =>
    rw [if_neg Bool.false_ne_true, if_neg Bool.false_ne_true,
      show accept .compose { s with rbuf := m } = withRbuf m (accept .compose s) from rfl, withRbuf_composeBody hsame]
    cases composeBody (accept .compose s) <;> rfl

/-- Settles O42: NEWSTREAM forgets the history, and the composition of COMPOSE or FRAME appends to it. -/
theorem frameHistoryNeedsOnlyPrevAndKeep : Obligations.FrameHistoryNeedsOnlyPrevAndKeep := by
  unfold Obligations.FrameHistoryNeedsOnlyPrevAndKeep
  refine ⟨fun n s t hidle hexec => ?newstream, fun s t i h hi hidle hrep hexec herr => ?frame⟩
  case newstream =>
    rw [newstreamForgetsFrameHistory.2 s hidle] at hexec
    cases hexec
    simp [Represents]
  case frame =>
    rcases hi with rfl | rfl
    · cases hf : failedCheck .compose s.cfg s.conf with
      | some code => simp [(exec_check_fails (op := .compose) hidle hf hexec).1] at herr
      | none =>
        obtain ⟨u, hu, rfl⟩ := exec_compose_idle hidle hf hexec
        have haccepted : Represents (canvasCount (accept .compose s).snap) h (accept .compose s) :=
          represents_congr hrep rfl rfl rfl
        have hmore := represents_composeFrame haccepted hu
        exact represents_congr hmore rfl rfl rfl
    · cases hf : failedCheck .frame s.cfg s.conf with
      | some code => simp [(exec_check_fails (op := .frame) hidle hf hexec).1] at herr
      | none =>
        obtain ⟨d, hd, ⟨-, rfl⟩ | ⟨-, u, hu, rfl⟩⟩ := exec_frame_idle hidle hf hexec
        · simp at herr
        · have hframe := lzwDecode_frame hd
          have hsnap : (reorderRows d).snap = s.conf := by rw [hframe]; rfl
          have hdecoded : Represents (canvasCount (reorderRows d).snap) h (reorderRows d) := by
            rw [hsnap]
            refine represents_congr hrep ?_ ?_ ?_ <;> (rw [hframe]; rfl)
          have hmore := represents_composeFrame hdecoded hu
          rw [hsnap] at hmore
          exact represents_congr hmore rfl rfl rfl

end Sys2Proof.Machine
end

section
/-! The family of the remaining statements, whole commands: DECODE (R89), FRAME against its parts (R92, C8), what FRAME
depends on (R145), and the interrupt (R171). -/

namespace Sys2Proof.Machine

/-! ## What the units only carry along -/

/-- A change of the state that neither the decoder nor the compositor sees, such as one of the phase or of the live
configuration. -/
structure CarriedAlong (g : State → State) : Prop where
  decoder : ∀ a s, g (withDecoder a s) = withDecoder (g a) s
  compositor : ∀ a s, g (withCompositor a s) = withCompositor (g a) s

theorem carriedAlong_setPhase (p : Phase) : CarriedAlong (setPhase p) := ⟨fun _ _ => rfl, fun _ _ => rfl⟩

section
variable {g : State → State} (hg : CarriedAlong g)
include hg

theorem CarriedAlong.eq_withDecoder (s : State) : g s = withDecoder (g s) s := hg.decoder s s

theorem CarriedAlong.eq_withCompositor (s : State) : g s = withCompositor (g s) s := hg.compositor s s

/-- An operation of the decoder that changes the decoder alone commutes with the change. -/
theorem CarriedAlong.of_decoder {f : State → Except Fault State}
    (hf : ∀ a s, f (withDecoder a s) = (f s).map (withDecoder a)) (hframe : ∀ s t, f s = .ok t → t = withDecoder s t)
    (s : State) : f (g s) = (f s).map g := by
  rw [hg.eq_withDecoder s, hf]
  cases hu : f s with
  | error e => rfl
  | ok u =>
    have hgu : withDecoder (g s) u = g u := by rw [← hg.decoder, ← hframe s u hu]
    rw [Except.map, Except.map, hgu]

/-- So does one of the compositor. -/
theorem CarriedAlong.of_compositor {f : State → Except Fault State}
    (hf : ∀ a s, f (withCompositor a s) = (f s).map (withCompositor a))
    (hframe : ∀ s t, f s = .ok t → t = withCompositor s t) (s : State) : f (g s) = (f s).map g := by
  rw [hg.eq_withCompositor s, hf]
  cases hu : f s with
  | error e => rfl
  | ok u =>
    have hgu : withCompositor (g s) u = g u := by rw [← hg.compositor, ← hframe s u hu]
    rw [Except.map, Except.map, hgu]

theorem CarriedAlong.lzwStep (s : State) : lzwStep (g s) = (lzwStep s).map g :=
  hg.of_decoder withDecoder_lzwStep (fun s t h => by rw [(lzwStep_frame h).1]; rfl) s

theorem CarriedAlong.lzwLoop (n : Nat) (s : State) : lzwLoop n (g s) = (lzwLoop n s).map g :=
  hg.of_decoder (fun a => withDecoder_lzwLoop a n) (fun s t h => by rw [lzwLoop_frame h]; rfl) s

theorem CarriedAlong.lzwStart (s : State) : lzwStart (g s) = g (lzwStart s) := by
  rw [hg.eq_withDecoder s]
  exact (hg.decoder s (Machine.lzwStart s)).symm

theorem CarriedAlong.underrunCheck (s : State) : underrunCheck (g s) = g (underrunCheck s) := by
  have hreads : (g s).status.stop = s.status.stop ∧ (g s).lzw = s.lzw ∧ (g s).snap = s.snap := by
    rw [hg.eq_withDecoder s]
    exact ⟨rfl, rfl, rfl⟩
  have hwarn : warnUnderrun (g s) = g (warnUnderrun s) := by
    rw [hg.eq_withCompositor s]
    exact (hg.compositor s (warnUnderrun s)).symm
  rw [Machine.underrunCheck, Machine.underrunCheck, hreads.1, hreads.2.1, hreads.2.2, hwarn, apply_ite g]

theorem CarriedAlong.lzwDecode (s : State) : lzwDecode (g s) = (lzwDecode s).map g := by
  have hsnap : (g s).snap = s.snap := by rw [hg.eq_withDecoder s]; rfl
  rw [Machine.lzwDecode, Machine.lzwDecode, hsnap, hg.lzwStart, hg.lzwLoop]
  cases Machine.lzwLoop (lzwBound s.snap) (Machine.lzwStart s) with
  | error f => rfl
  | ok u => exact congrArg Except.ok (hg.underrunCheck u)

theorem CarriedAlong.background (s : State) : background (g s) = background s := by
  rw [hg.eq_withCompositor s, withCompositor_background]

theorem CarriedAlong.seedBy (l : BitVec 3) (s : State) : seedBy l (g s) = (seedBy l s).map g :=
  hg.of_compositor (fun a s => withCompositor_seedBy a s l) (fun s t h => by rw [seedBy_frame h]; rfl) s

theorem CarriedAlong.composeFrame (s : State) : composeFrame (g s) = (composeFrame s).map g := by
  refine hg.of_compositor withCompositor_composeFrame (fun s t h => ?_) s
  obtain ⟨v, rfl, hframe, -⟩ := composeFrame_spec h
  rw [hframe]
  rfl

theorem CarriedAlong.paintCell (k j : Nat) (s : State) :
    paintCell k j (g s) = (paintCell k j s).map fun r => (g r.1, r.2) := by
  rw [hg.eq_withCompositor s, withCompositor_paintCell]
  cases hr : Machine.paintCell k j s with
  | error f => rfl
  | ok r =>
    have hframe : r.1 = withCompositor s r.1 := by rw [(paintCell_frame hr).1]; rfl
    have hgr : withCompositor (g s) r.1 = g r.1 := by rw [← hg.compositor, ← hframe]
    rw [Except.map, Except.map, hgr]

end

/-! ## DECODE -/

theorem failedCheck_of_subset {op op' : Op} (hrows : ∀ k ∈ checksOf op', k ∈ checksOf op) {p : Config} {c : Conf}
    (h : failedCheck op p c = none) : failedCheck op' p c = none :=
  failedCheck_eq_none.2 fun k hk => failedCheck_eq_none.1 h k (hrows k hk)

/-- A command that passes V1 has a minimum code size that UGPP decodes (R7, R84). -/
theorem mcs_of_checked {op : Op} {p : Config} {c : Conf} (hrow : Check.v1 ∈ checksOf op) (hlo : 2 ≤ p.mcsLo)
    (h : failedCheck op p c = none) : 2 ≤ c.imgCfg.mcs.toNat ∧ c.imgCfg.mcs.toNat ≤ 8 := by
  have hpass := failedCheck_eq_none.1 h .v1 hrow
  have hrange := mt checkFails_v1.2 (Bool.eq_false_iff.1 hpass)
  omega

section
variable {s : State} (hidle : s.phase = .idle)
include hidle

/-- DECODE with its checks passed is a decode and its end (R89). -/
theorem exec_decode_of_checks_pass (hpass : failedCheck .decode s.cfg s.conf = none) :
    exec .decode s = asOutcome ((lzwDecode (accept .decode s)).bind fun d => .ok (decodeEnd d)) := by
  calc exec .decode s
      = asOutcome (decodeBody (accept .decode s)) := exec_instrOf_idle hidle .decode
    _ = _ := by rw [decodeBody, checked_of_none (op := .decode) (s := accept .decode s) hpass]

theorem exec_decode_next {t : State} (hpass : failedCheck .decode s.cfg s.conf = none) (hexec : exec .decode s = .next t) :
    ∃ d, lzwDecode (accept .decode s) = .ok d ∧ t = decodeEnd d := by
  rw [exec_decode_of_checks_pass hidle hpass, asOutcome_eq_next] at hexec
  obtain ⟨d, hd, hend⟩ := bind_eq_ok.1 hexec
  exact ⟨d, hd, (Except.ok.inj hend).symm⟩

/-- What the end of a DECODE leaves, in terms of the state it began in (R89, R114). -/
theorem decodeEnd_eq {d : State} (hd : lzwDecode (accept .decode s) = .ok d) : decodeEnd d = { s with
    snap := s.conf, idxbuf := d.idxbuf, dict := d.dict, lzw := d.lzw
    warn := { s.warn with underrun := d.warn.underrun }
    status := endStatus s (if d.status.stop = .invalid then .lzwcode else .none) d.status.stop } := by
  have hframe := lzwDecode_frame hd
  have hphase : { s with phase := Phase.idle } = s := by cases s; cases hidle; rfl
  rw [decodeEnd]
  by_cases hstop : d.status.stop = .invalid
  · rw [if_pos hstop, if_pos hstop, ← hphase, hframe]
    rfl
  · rw [if_neg hstop, if_neg hstop, ← hphase, hframe]
    rfl

/-! ## FRAME -/

/-- FRAME with its checks passed is a decode, then LZWCODE, or the reordering, the composition and the completion (R92);
the phase its parts run in leaves no trace. -/
theorem exec_frame_of_checks_pass (hpass : failedCheck .frame s.cfg s.conf = none) :
    exec .frame s = asOutcome ((lzwDecode (accept .decode s)).bind fun d =>
      if d.status.stop = .invalid then .ok (raiseError .lzwcode d)
      else (composeFrame (reorderRows d)).bind fun u => .ok (complete u)) := by
  have hbody : exec .frame s = asOutcome (frameBody (accept .frame s)) := exec_instrOf_idle hidle .frame
  rw [hbody, frameBody, checked_of_none (op := .frame) (s := accept .frame s) hpass,
    show accept .frame s = setPhase (.busy .frame .start) (accept .decode s) from rfl,
    (carriedAlong_setPhase _).lzwDecode]
  cases lzwDecode (accept .decode s) with
  | error f => rfl
  | ok d =>
    simp only [Except.map, Except_bind_ok]
    by_cases hstop : d.status.stop = .invalid
    · have hstop' : (setPhase (.busy .frame .start) d).status.stop = .invalid := hstop
      rw [if_pos hstop, if_pos hstop']
      rfl
    · have hstop' : (setPhase (.busy .frame .start) d).status.stop ≠ .invalid := hstop
      rw [if_neg hstop, if_neg hstop', show reorderRows (setPhase (.busy .frame .start) d) =
        setPhase (.busy .frame .start) (reorderRows d) from rfl, (carriedAlong_setPhase _).composeFrame]
      cases composeFrame (reorderRows d) <;> rfl

end

/-- Acceptance of COMPOSE after a completed DECODE and REORDER leaves what FRAME's REORDER leaves, but for the phase. -/
theorem accept_compose_reorder {s d : State} (hd : lzwDecode (accept .decode s) = .ok d) :
    accept .compose (complete (reorderRows (accept .reorder (complete d)))) =
      setPhase (.busy .compose .start) (reorderRows d) := by
  rw [lzwDecode_frame hd]
  rfl

/-! ## What a composition depends on -/

theorem destCell_surjective {c : Conf} {j : Nat} (hj : j < pixelCount c) : ∃ k, k < pixelCount c ∧ destCell c k = j := by
  cases hilace : c.imgCfg.ilace with
  | false => exact ⟨j, hj, destCell_of_plain hilace j⟩
  | true =>
    have hw := width_pos_of_lt hj
    have hcol := Nat.mod_lt j hw
    obtain ⟨row, hrow, hdest⟩ := destRow_surjective (d := j / c.iw.toNat) (h := c.ih.toNat)
      ((Nat.div_lt_iff_lt_mul hw).2 (by rwa [Nat.mul_comm]))
    have hdiv : (row * c.iw.toNat + j % c.iw.toNat) / c.iw.toNat = row := by
      rw [Nat.mul_comm, Nat.mul_add_div hw, Nat.div_eq_of_lt hcol, Nat.add_zero]
    have hmod : (row * c.iw.toNat + j % c.iw.toNat) % c.iw.toNat = j % c.iw.toNat := by
      rw [Nat.mul_comm, Nat.mul_add_mod, Nat.mod_mod]
    have hle := Nat.mul_le_mul_right c.iw.toNat (Nat.succ_le_of_lt hrow)
    rw [Nat.succ_mul] at hle
    refine ⟨row * c.iw.toNat + j % c.iw.toNat, by rw [pixelCount, Nat.mul_comm c.iw.toNat]; omega, ?_⟩
    rw [destCell_of_interlaced hilace, hdiv, hmod, hdest, Nat.mul_comm, Nat.div_add_mod]

/-- Two states that agree on what a composition reads: the snapshot, the tables, RBUF below E and the history. -/
structure SameInputs (s s' : State) : Prop where
  snap : s'.snap = s.snap
  gct : s'.gct = s.gct
  lct : s'.lct = s.lct
  prev : s'.prev = s.prev
  keep : s'.keep = s.keep
  frameInfo : s'.frameInfo = s.frameInfo
  frameNo : s'.frameNo = s.frameNo
  rbuf : ∀ j, j < pixelCount s.snap → memGet s'.rbuf j = memGet s.rbuf j

theorem seedPixel_congr {s s' : State} (h : SameInputs s s') (c : Conf) (k : Nat) : seedPixel c s' k = seedPixel c s k := by
  simp only [seedPixel, backgroundPixel, tableColour, h.gct, h.lct, h.prev, h.keep, h.frameInfo]

theorem paintedCell_congr {s s' : State} (h : SameInputs s s') {k : Nat} (hk : k < canvasCount s.snap)
    (seed : Option Rgba) : paintedCell s.snap s' k seed = paintedCell s.snap s k seed := by
  rw [paintedCell, paintedCell]
  split
  · have hcell : consumed s.snap k < pixelCount s.snap := by
      rw [consumed_inside ‹_›]
      exact sourceCell_lt (cell_of_lt hk).1 ‹_›
    simp only [paintedOver, h.rbuf _ hcell, tableColour, h.gct, h.lct]
  · rfl

/-- Compositions of such states leave the same frame and the same history, whatever CANVAS and WARN held (R145). -/
theorem composeFrame_congr {s s' u u' : State} (h : SameInputs s s') (hu : composeFrame s = .ok u)
    (hu' : composeFrame s' = .ok u') :
    (∀ k, memGet u'.prev k = memGet u.prev k) ∧ (∀ k, memGet u'.keep k = memGet u.keep k) ∧
      u'.frameNo = u.frameNo ∧ u'.frameInfo = u.frameInfo ∧ u'.dly = u.dly := by
  obtain ⟨v, rfl, hframe, hpainted, -⟩ := composeFrame_spec hu
  obtain ⟨v', rfl, hframe', hpainted', -⟩ := composeFrame_spec hu'
  have hsnap : v.snap = s.snap := by rw [hframe]
  have hsnap' : v'.snap = s.snap := by rw [hframe']; exact h.snap
  have hprev : v'.prev = v.prev := by rw [hframe, hframe']; exact h.prev
  have hkeep : v'.keep = v.keep := by rw [hframe, hframe']; exact h.keep
  have hinfo : v'.frameInfo = v.frameInfo := by rw [hframe, hframe']; exact h.frameInfo
  have hno : v'.frameNo = v.frameNo := by rw [hframe, hframe']; exact h.frameNo
  have hcanvas {k : Nat} (hk : k < canvasCount s.snap) : memGet v'.canvas k = memGet v.canvas k := by
    rw [h.snap] at hpainted'
    rw [(hpainted k hk).1, (hpainted' k hk).1, paintedCell_congr h hk, seedPixel_congr h]
  have hcopy (m : Mem Rgba) (k : Nat) :
      memGet (memCopy (canvasCount s.snap) v'.canvas m) k = memGet (memCopy (canvasCount s.snap) v.canvas m) k := by
    rw [memGet_memCopy, memGet_memCopy]
    split
    · exact hcanvas ‹_›
    · rfl
  refine ⟨fun k => ?_, fun k => ?_, ?_, ?_, ?_⟩
  · rw [emitFrame_prev, emitFrame_prev, hsnap, hsnap', hprev, hcopy]
  · rw [emitFrame_keep, emitFrame_keep, hsnap, hsnap', hkeep]
    split
    · exact hcopy _ k
    · rfl
  · rw [emitFrame_frameNo, emitFrame_frameNo, hno]
  · rw [emitFrame_frameInfo, emitFrame_frameInfo, hinfo, hsnap, hsnap']
  · rw [emitFrame_dly, emitFrame_dly, hsnap, hsnap']

/-- Decodes of one snapshot and one CDATA leave the same IDXBUF and the same stop reason (R145). -/
theorem lzwDecode_congr {s s' d d' : State} (hsnap : s'.snap = s.snap) (hcdata : s'.cdata = s.cdata)
    (hstop : s'.status.stop = s.status.stop) (hd : lzwDecode s = .ok d) (hd' : lzwDecode s' = .ok d') :
    d'.idxbuf = d.idxbuf ∧ d'.status.stop = d.status.stop := by
  obtain ⟨u, hu, hd⟩ := bind_eq_ok.1 hd
  obtain ⟨u', hu', hd'⟩ := bind_eq_ok.1 hd'
  rw [lzwLoop_lzwStart_congr hsnap hcdata hstop, hu] at hu'
  cases hu'
  cases hd
  cases hd'
  rw [underrunCheck_idxbuf, underrunCheck_idxbuf, underrunCheck_status, underrunCheck_status]
  exact ⟨rfl, rfl⟩

/-! ## Every command ends with DONE -/

theorem checked_done {op : Op} {work : State → Except Fault State} {s t : State} (h : checked op work s = .ok t)
    (hwork : work s = .ok t → t.status.done = true) : t.status.done = true := by
  rcases checked_cases h with ⟨code, -, rfl⟩ | ⟨-, h⟩
  · rfl
  · exact hwork h

/-- Every command ends with DONE = 1, completed or with an error (R83, R167). -/
theorem commandBody_done {op : Op} {s t : State} (h : commandBody op s = .ok t) : t.status.done = true := by
  cases op
  case nop | sreset | newstream => cases h; rfl
  case bitread =>
    refine checked_done h fun h => ?_
    obtain ⟨v, -, h⟩ := bind_eq_ok.1 h
    cases h; rfl
  case decode =>
    rw [commandBody, decodeBody] at h
    refine checked_done h fun h => ?_
    obtain ⟨d, -, h⟩ := bind_eq_ok.1 h
    cases h
    rw [decodeEnd]
    split <;> rfl
  case reorder =>
    rw [commandBody, reorderBody] at h
    refine checked_done h fun h => ?_
    cases h; rfl
  case compose =>
    rw [commandBody, composeBody] at h
    refine checked_done h fun h => ?_
    obtain ⟨u, -, h⟩ := bind_eq_ok.1 h
    cases h; rfl
  case frame =>
    rw [commandBody, frameBody] at h
    refine checked_done h fun h => ?_
    obtain ⟨d, -, h⟩ := bind_eq_ok.1 h
    split at h
    · cases h; rfl
    · obtain ⟨u, -, h⟩ := bind_eq_ok.1 h
      cases h; rfl

/-! ## The statements -/

/-- Settles O27: a decode of a loaded stream ends with the invariants of R116, which tell what IDXBUF holds. -/
theorem decodeFillsIdxbuf : Obligations.DecodeFillsIdxbuf := by
  unfold Obligations.DecodeFillsIdxbuf
  intro s hidle hlo hpass hloaded
  obtain ⟨d, hd, hdecoded, hunderrun⟩ := lzwDecode_of_loaded (s := accept .decode s)
    (mcs_of_checked (c := s.conf) (by decide) hlo hpass) rfl hloaded
  have hsnap : d.snap = s.conf := by rw [lzwDecode_frame hd]; rfl
  have hinv := hdecoded.inv
  have hexec : exec .decode s = .next (decodeEnd d) := by
    rw [exec_decode_of_checks_pass hidle hpass, hd, Except_bind_ok, asOutcome_ok]
  rw [decodeEnd_eq hidle hd, hunderrun] at hexec
  refine ⟨_, d.status.stop, hexec, rfl, hdecoded.stopped, hdecoded.strict, hdecoded.full, ?outn, ?pos, fun k => ⟨?filled,
    hinv.written k⟩, ?output⟩
  case outn => exact hsnap ▸ hinv.outn
  case pos => exact hsnap ▸ hinv.pos
  case filled =>
    intro hk
    obtain ⟨b, hb⟩ := Option.isSome_iff_exists.1 hk
    exact (hinv.output k b hb).1
  case output => exact fun k b hb => hsnap ▸ (hinv.output k b hb).2

/-- Settles O43: past the decode, the composition runs on the same state but for the phase. -/
theorem frameIsDecodeReorderCompose : Obligations.FrameIsDecodeReorderCompose := by
  unfold Obligations.FrameIsDecodeReorderCompose
  intro s a b hidle hpass hdecode herr hreorder
  obtain ⟨d, hd, rfl⟩ := exec_decode_next hidle (failedCheck_of_subset (by decide) hpass) hdecode
  have hstop : d.status.stop ≠ .invalid := fun h => by simp [decodeEnd, h] at herr
  have hend : decodeEnd d = complete d := if_neg hstop
  rw [hend] at hreorder
  have hcfg : d.cfg = s.cfg ∧ d.conf = s.conf := by
    rw [lzwDecode_frame hd]
    exact ⟨rfl, rfl⟩
  have hpassed {op : Op} (hrows : ∀ k ∈ checksOf op, k ∈ checksOf .frame) : failedCheck op d.cfg d.conf = none := by
    rw [hcfg.1, hcfg.2]
    exact failedCheck_of_subset hrows hpass
  have hb : b = complete (reorderRows (accept .reorder (complete d))) := by
    have hrun : exec .reorder (complete d) = asOutcome (reorderBody (accept .reorder (complete d))) :=
      exec_instrOf_idle rfl .reorder
    rw [hrun, reorderBody, checked_of_none (op := .reorder) (s := accept .reorder (complete d)) (hpassed (by decide)),
      asOutcome_ok] at hreorder
    exact (Host.Outcome.next.inj hreorder).symm
  subst hb
  rw [exec_frame_of_checks_pass hidle hpass, hd, Except_bind_ok, if_neg hstop,
    exec_compose_of_checks_pass (s := complete (reorderRows (accept .reorder (complete d)))) rfl
      (hpassed (op := .compose) (by decide)), accept_compose_reorder hd, (carriedAlong_setPhase _).composeFrame]
  cases composeFrame (reorderRows d) <;> rfl

/-- Settles O44: LZWCODE comes of the stop reason INVALID, after which FRAME does what DECODE does. -/
theorem frameStopsAtLzwcode : Obligations.FrameStopsAtLzwcode := by
  unfold Obligations.FrameStopsAtLzwcode
  intro s a hidle hpass hdecode hcode
  obtain ⟨d, hd, rfl⟩ := exec_decode_next hidle (failedCheck_of_subset (by decide) hpass) hdecode
  have hend := decodeEnd_eq hidle hd
  have hstop : d.status.stop = .invalid := by
    by_contra hne
    rw [hend, if_neg hne] at hcode
    cases hcode
  refine ⟨?_, by rw [hend], by rw [hend], by rw [hend]⟩
  rw [exec_frame_of_checks_pass hidle hpass, hd, Except_bind_ok, if_pos hstop, asOutcome_ok, decodeEnd, if_pos hstop]

/-- Settles O45: in tolerant mode the decode does not end INVALID, and the composition finds everything loaded. -/
theorem frameEmitsOneFrame : Obligations.FrameEmitsOneFrame := by
  unfold Obligations.FrameEmitsOneFrame
  intro s hidle hlo hpass htolerant hcdata htable hhistory
  obtain ⟨d, hd, hdecoded, -⟩ := lzwDecode_of_loaded (s := accept .decode s)
    (mcs_of_checked (c := s.conf) (by decide) hlo hpass) rfl hcdata
  have hstop : d.status.stop ≠ .invalid := fun h =>
    Bool.false_ne_true (htolerant.symm.trans (hdecoded.strict h))
  have hframe := lzwDecode_frame hd
  have hsnap : (reorderRows d).snap = s.conf := by rw [hframe]; rfl
  obtain ⟨u, hu⟩ := composeFrame_of_loaded (s := reorderRows d) (by rw [hframe]; exact htable)
    (by rw [hframe]; exact hhistory)
  have hexec : exec .frame s = .next (complete u) := by
    rw [exec_frame_of_checks_pass hidle hpass, hd, Except_bind_ok, if_neg hstop, hu, Except_bind_ok, asOutcome_ok]
  obtain ⟨v, rfl, hv, hpainted, -⟩ := composeFrame_spec hu
  have hvsnap : v.snap = s.conf := by rw [hv, hsnap]
  rw [hsnap] at hpainted
  refine ⟨complete (emitFrame v), d.status.stop, hexec, rfl, ?status, ?frameNo, ?lastDisp, ?dly, ?frame, ?kept, ?_⟩
  case status => rw [hv, hframe]; rfl
  case frameNo => rw [hv, hframe]; rfl
  case lastDisp => simp [hvsnap]
  case dly => simp [hvsnap]
  case frame =>
    intro k hk
    rw [complete_prev, memGet_emitFrame_prev, hvsnap, if_pos hk]
    exact (hpainted k hk).2
  case kept =>
    intro k hk
    rw [complete_prev, memGet_emitFrame_prev, hvsnap, if_neg hk.not_gt, hv, hframe]
    rfl
  rw [hv, hframe]
  exact ⟨rfl, rfl, rfl, rfl, rfl⟩

/-- Settles O46: the decodes leave the same IDXBUF, the reorderings the same RBUF below E, and the compositions the same
frame. -/
theorem frameDependsOnlyOnItsInputs : Obligations.FrameDependsOnlyOnItsInputs := by
  unfold Obligations.FrameDependsOnlyOnItsInputs
  intro s s' t t' hidle hidle' hwf hwf' hcfg hconf hcdata hgct hlct hinfo hno hprev hkeep hexec hexec'
  cases hf : failedCheck .frame s.cfg s.conf with
  | some code =>
    have hf' : failedCheck .frame s'.cfg s'.conf = some code := by rw [hcfg, hconf, hf]
    obtain ⟨herr, rfl⟩ := exec_check_fails (op := .frame) hidle hf hexec
    obtain ⟨-, rfl⟩ := exec_check_fails (op := .frame) hidle' hf' hexec'
    exact ⟨rfl, hno, hinfo, fun h => absurd (h.symm.trans herr) Bool.false_ne_true, fun k => congrArg (memGet · k) hprev,
      fun k => congrArg (memGet · k) hkeep⟩
  | none =>
    have hf' : failedCheck .frame s'.cfg s'.conf = none := by rw [hcfg, hconf, hf]
    obtain ⟨d, hd, hend⟩ := exec_frame_idle hidle hf hexec
    obtain ⟨d', hd', hend'⟩ := exec_frame_idle hidle' hf' hexec'
    obtain ⟨hidx, hstop⟩ := lzwDecode_congr (s := accept .frame s) (s' := accept .frame s') hconf hcdata rfl hd hd'
    have hframe := lzwDecode_frame hd
    have hframe' := lzwDecode_frame hd'
    have hcode : d'.status.errcode = d.status.errcode := by rw [hframe, hframe']; rfl
    rcases hend with ⟨hinv, rfl⟩ | ⟨hinv, u, hu, rfl⟩ <;> rcases hend' with ⟨hinv', rfl⟩ | ⟨hinv', u', hu', rfl⟩
    · refine ⟨rfl, ?_, ?_, fun h => absurd h (by simp), fun k => ?_, fun k => ?_⟩
      · rw [hframe, hframe']; exact hno
      · rw [hframe, hframe']; exact hinfo
      · rw [hframe, hframe']; exact congrArg (memGet · k) hprev
      · rw [hframe, hframe']; exact congrArg (memGet · k) hkeep
    · exact absurd (hstop.trans hinv) hinv'
    · exact absurd (hstop.symm.trans hinv') hinv
    · have hsnap : d.snap = s.conf := by rw [hframe]; rfl
      have hsnap' : d'.snap = s.conf := by rw [hframe']; exact hconf
      have hsize := pixelCount_le_of_checked (by decide) hf
      have hwf : memWf d.cfg.pixMax d.rbuf = true := by
        rw [hframe]
        simp only [memsWf, Bool.and_eq_true] at hwf
        tauto
      have hwf' : memWf d'.cfg.pixMax d'.rbuf = true := by
        rw [hframe']
        simp only [memsWf, Bool.and_eq_true] at hwf'
        tauto
      have hsame : SameInputs (reorderRows d) (reorderRows d') := by
        refine ⟨hsnap'.trans hsnap.symm, ?_, ?_, ?_, ?_, ?_, ?_, fun j hj => ?_⟩
        · rw [hframe, hframe']; exact hgct
        · rw [hframe, hframe']; exact hlct
        · rw [hframe, hframe']; exact hprev
        · rw [hframe, hframe']; exact hkeep
        · rw [hframe, hframe']; exact hinfo
        · rw [hframe, hframe']; exact hno
        · rw [reorderRows_snap, hsnap] at hj
          obtain ⟨k, hk, rfl⟩ := destCell_surjective hj
          have hmoved := reorderRows_moved (s := d) (by rw [hsnap, hframe]; exact hsize) hwf (hsnap.symm ▸ hk)
          have hmoved' := reorderRows_moved (s := d') (by rw [hsnap', hframe']; exact hcfg ▸ hsize) hwf' (hsnap'.symm ▸ hk)
          rw [hsnap] at hmoved
          rw [hsnap'] at hmoved'
          rw [hmoved, hmoved', hidx]
      obtain ⟨hp, hk, hn, hi, hdly⟩ := composeFrame_congr hsame hu hu'
      obtain ⟨v, rfl, hv, -⟩ := composeFrame_spec hu
      obtain ⟨v', rfl, hv', -⟩ := composeFrame_spec hu'
      refine ⟨?_, hn, hi, fun _ => hdly, hp, hk⟩
      rw [hv, hv']
      exact hcode

/-- Settles O50: every command ends with DONE = 1. -/
theorem interruptFollowsDoneAndEnable : Obligations.InterruptFollowsDoneAndEnable := by
  unfold Obligations.InterruptFollowsDoneAndEnable
  refine ⟨fun s t op hidle hexec => ?command, fun s v hv => ?acknowledged, fun s v hdone => ?enable⟩
  case command =>
    rw [exec_instrOf_idle hidle, asOutcome_eq_next] at hexec
    rw [irq, commandBody_done hexec, Bool.true_and]
  case acknowledged =>
    have hdone : (regWrite .status v s).status.done = (s.status.done && !v.getLsbD 1) := rfl
    rw [irq, hdone, hv, Bool.not_true, Bool.and_false, Bool.false_and]
  case enable =>
    have hirq : irq (regWrite .ctrl v s) = (s.status.done && v.getLsbD 0) := rfl
    rw [hirq, hdone, Bool.true_and]

end Sys2Proof.Machine
end

section
/-! The family of the remaining statements, the engine's own steps: they end where a command's meaning does (R83, R92),
they always end (R184), and they do not see the live configuration (R51, R186). -/

namespace Sys2Proof.Machine

/-! ## What the engine's steps lead to -/

/-- Some number of engine steps gives this, a model fault included. -/
def EngineReaches (s : State) (r : Except Fault State) : Prop := ∃ n, engineRun n s = r

theorem EngineReaches.refl (s : State) : EngineReaches s (.ok s) := ⟨0, rfl⟩

theorem EngineReaches.one (s : State) : EngineReaches s (engineStep s) := ⟨1, engineRun_one s⟩

theorem EngineReaches.step {s t : State} {r : Except Fault State} (hstep : engineStep s = .ok t)
    (hrest : EngineReaches t r) : EngineReaches s r := by
  obtain ⟨n, hn⟩ := hrest
  exact ⟨n + 1, (engineRun_step hstep n).trans hn⟩

/-- A step that does `x` and stands at `g`, from where the rest leads on: a fault of `x` ends the run. -/
theorem EngineReaches.bind {α : Type} {s : State} {x : Except Fault α} {g : α → State} {rest : α → Except Fault State}
    (hstep : engineStep s = x.bind fun a => .ok (g a)) (hrest : ∀ a, x = .ok a → EngineReaches (g a) (rest a)) :
    EngineReaches s (x.bind rest) := by
  cases x with
  | error f => exact ⟨1, (engineRun_one s).trans hstep⟩
  | ok a => exact .step hstep (hrest a rfl)

theorem bind_assoc_except {α β γ : Type} (x : Except Fault α) (f : α → Except Fault β) (g : β → Except Fault γ) :
    (x.bind f).bind g = x.bind fun a => (f a).bind g := by
  cases x <;> rfl

theorem bind_map_except {α β γ : Type} (x : Except Fault α) (f : α → β) (g : β → Except Fault γ) :
    (x.map f).bind g = x.bind fun a => g (f a) := by
  cases x <;> rfl

/-! ## The sub-phases of Compose (R124) -/

section
variable {op : Op}

theorem engineReaches_emit (s : State) :
    EngineReaches (setPhase (.busy op .emit) s) (.ok (complete (emitFrame s))) :=
  .one _

theorem engineReaches_paint {n k : Nat} {j : Nat} {s : State} (hn : k + n = canvasCount s.snap) :
    EngineReaches (setPhase (.busy op (.paint k j)) s)
      ((paintFrom n k j s).bind fun u => .ok (complete (emitFrame u))) := by
  induction n generalizing k j s with
  | zero =>
    have hstep : engineStep (setPhase (.busy op (.paint k j)) s) = .ok (setPhase (.busy op .emit) s) := by
      exact if_neg (show ¬ k < canvasCount s.snap by omega)
    exact .step hstep (engineReaches_emit s)
  | succ n ih =>
    have hstep : engineStep (setPhase (.busy op (.paint k j)) s) =
        (paintCell k j s).bind fun r => .ok (setPhase (.busy op (.paint (k + 1) r.2)) r.1) := by
      refine (if_pos (show k < canvasCount s.snap by omega)).trans ?_
      rw [paintCell_setPhase, bind_map_except]
      rfl
    rw [paintFrom, bind_assoc_except]
    refine .bind hstep fun r hr => ih ?_
    rw [(paintCell_frame hr).1]
    exact (Nat.add_right_comm k 1 n).trans hn

theorem engineReaches_seed (s : State) : EngineReaches (setPhase (.busy op .seed) s)
    ((seedBy s.frameInfo.lastDisp s).bind fun t => (paint t).bind fun u => .ok (complete (emitFrame u))) := by
  have hstep : engineStep (setPhase (.busy op .seed) s) =
      (seedBy s.frameInfo.lastDisp s).bind fun t => .ok (setPhase (.busy op (.paint 0 0)) t) := by
    rw [engineStep_seed rfl, setPhase_frameInfo, seedBy_setPhase, bind_map_except]
    rfl
  exact .bind hstep fun t _ => engineReaches_paint (Nat.zero_add _)

theorem engineReaches_resolve (s : State) : EngineReaches (setPhase (.busy op .resolve) s)
    ((composeFrame s).bind fun u => .ok (complete u)) := by
  rw [composeFrame, bind_assoc_except]
  simp only [bind_assoc_except, Except_bind_ok]
  exact .bind (show engineStep (setPhase (.busy op .resolve) s) =
    (background s).bind fun _ => .ok (setPhase (.busy op .seed) s) from rfl) fun _ _ => engineReaches_seed s

/-! ## The sub-phases of a decode (R97) -/

/-- What is left of DECODE or FRAME once the decode is over (R89, R92). -/
def afterDecode (op : Op) (d : State) : Except Fault State :=
  if d.status.stop = .invalid then .ok (raiseError .lzwcode d)
  else if op = .frame then (composeFrame (reorderRows d)).bind fun u => .ok (complete u)
  else .ok (complete d)

theorem engineReaches_lzwExit (d : State) : EngineReaches (setPhase (.busy op .lzwExit) d) (afterDecode op d) := by
  have hstep : engineStep (setPhase (.busy op .lzwExit) d) = .ok (lzwExit op (setPhase (.busy op .lzwExit) d)) := rfl
  refine .step hstep ?_
  rw [lzwExit, afterDecode, setPhase_status]
  by_cases hstop : d.status.stop = .invalid
  · rw [if_pos hstop, if_pos hstop]
    exact .refl _
  · rw [if_neg hstop, if_neg hstop]
    by_cases hop : op = .frame
    · rw [if_pos hop, if_pos hop]
      exact .step (t := setPhase (.busy op .resolve) (reorderRows d)) rfl (engineReaches_resolve _)
    · rw [if_neg hop, if_neg hop]
      exact .refl _

theorem engineReaches_lzwEnd (t : State) :
    EngineReaches (setPhase (.busy op .lzwEnd) t) (afterDecode op (underrunCheck t)) := by
  refine .step (t := setPhase (.busy op .lzwExit) (underrunCheck t)) ?_ (engineReaches_lzwExit _)
  rw [show engineStep (setPhase (.busy op .lzwEnd) t) =
    .ok (setPhase (.busy op .lzwExit) (underrunCheck (setPhase (.busy op .lzwEnd) t))) from rfl, underrunCheck_setPhase]
  rfl

/-- One step of the decode loop: the loop goes on while STOP is NONE. -/
theorem engineStep_lzw_setPhase (s : State) : engineStep (setPhase (.busy op .lzw) s) = (lzwStep s).bind fun t =>
    .ok (setPhase (.busy op (if t.status.stop = .none then .lzw else .lzwEnd)) t) := by
  rw [engineStep_lzw rfl, (carriedAlong_setPhase _).lzwStep, bind_map_except]
  congr 1
  funext t
  rw [afterCode, setPhase_status]
  split <;> rfl

/-- The engine's decode loop is the loop of R97, where that one ends with a stop reason. -/
theorem engineReaches_lzw {n : Nat} {s : State} (hstop : s.status.stop = .none)
    (hends : ∀ t, lzwLoop n s = .ok t → t.status.stop ≠ .none) :
    EngineReaches (setPhase (.busy op .lzw) s) ((lzwLoop n s).bind fun t => afterDecode op (underrunCheck t)) := by
  induction n generalizing s with
  | zero => exact absurd hstop (hends s rfl)
  | succ n ih =>
    rw [lzwLoop_succ hstop] at hends ⊢
    rw [bind_assoc_except]
    refine .bind (engineStep_lzw_setPhase s) fun t ht => ?_
    rw [ht, Except_bind_ok] at hends
    by_cases hs : t.status.stop = .none
    · rw [if_pos hs]
      exact ih hs hends
    · rw [if_neg hs, lzwLoop_stopped hs, Except_bind_ok]
      exact engineReaches_lzwEnd t

/-- The decode of a snapshot ends with a stop reason (R115). -/
theorem engineReaches_lzwStart {s : State} (hstop : s.status.stop = .none) :
    EngineReaches (setPhase (.busy op .lzw) (lzwStart s)) ((lzwDecode s).bind (afterDecode op)) := by
  rw [lzwDecode, bind_assoc_except]
  exact engineReaches_lzw (s := lzwStart s) hstop fun t ht => lzwLoop_ends (s := lzwStart s) (Nat.le_refl _) ht

end

/-! ## Whole commands (R83) -/

/-- A command whose first step is its checks and the start of its work. -/
theorem engineReaches_checked {op : Op} {s : State} {g : State → State} {work : State → Except Fault State}
    (hstep : engineStep (accept op s) = checked op (fun s => .ok (g s)) (accept op s))
    (hwork : EngineReaches (g (accept op s)) (work (accept op s))) :
    EngineReaches (accept op s) (checked op work (accept op s)) := by
  cases hf : failedCheck op (accept op s).cfg (accept op s).snap with
  | some code =>
    rw [checked_of_some hf] at hstep ⊢
    exact .step hstep (.refl _)
  | none =>
    rw [checked_of_none hf] at hstep ⊢
    exact .step hstep hwork

theorem afterDecode_decode : afterDecode .decode = fun d => .ok (decodeEnd d) := by
  funext d
  rw [afterDecode, decodeEnd]
  split <;> rfl

theorem afterDecode_frame : afterDecode .frame = fun d =>
    if d.status.stop = .invalid then .ok (raiseError .lzwcode d)
    else (composeFrame (reorderRows d)).bind fun u => .ok (complete u) :=
  rfl

/-- Settles O47: each sub-phase of a command leads where the rest of its body does. -/
theorem engineStepsRefineCommands : Obligations.EngineStepsRefineCommands := by
  unfold Obligations.EngineStepsRefineCommands
  intro op s
  change EngineReaches (accept op s) (commandBody op (accept op s))
  cases op
  case nop | sreset | newstream | bitread | reorder => exact .one _
  case decode =>
    rw [commandBody, decodeBody, ← afterDecode_decode]
    exact engineReaches_checked (g := fun s => setPhase (.busy .decode .lzw) (lzwStart s)) (engineStep_accept .decode s)
       (engineReaches_lzwStart rfl)
  case compose =>
    rw [commandBody, composeBody]
    exact engineReaches_checked (engineStep_accept .compose s) (engineReaches_resolve _)
  case frame =>
    rw [commandBody, frameBody, ← afterDecode_frame]
    exact engineReaches_checked (g := fun s => setPhase (.busy .frame .lzw) (lzwStart s)) (engineStep_accept .frame s)
       (engineReaches_lzwStart rfl)

/-! ## Every command ends (R184) -/

/-- The engine comes to IDLE or to a model fault. -/
def EngineEnds (s : State) : Prop := ∃ r, EngineReaches s r ∧ ∀ t, r = .ok t → t.phase = .idle

theorem EngineEnds.of_idle {s : State} (h : s.phase = .idle) : EngineEnds s :=
  ⟨.ok s, .refl s, fun _ ht => Except.ok.inj ht ▸ h⟩

theorem EngineEnds.of_step {s : State} (h : ∀ t, engineStep s = .ok t → EngineEnds t) : EngineEnds s := by
  cases hstep : engineStep s with
  | error f => exact ⟨.error f, hstep ▸ .one s, fun _ ht => nomatch ht⟩
  | ok t =>
    obtain ⟨r, hr, hidle⟩ := h t hstep
    exact ⟨r, .step hstep hr, hidle⟩

theorem setPhase_of_phase {s : State} {p : Phase} (h : s.phase = p) : setPhase p s = s := by
  subst h; rfl

section
variable {op : Op} (s : State)

theorem afterDecode_idle {t : State} (h : afterDecode op s = .ok t) : t.phase = .idle := by
  rw [afterDecode] at h
  split_ifs at h
  · cases h; rfl
  · obtain ⟨u, -, h⟩ := bind_eq_ok.1 h
    cases h; rfl
  · cases h; rfl

theorem engineEnds_lzwExit : EngineEnds (setPhase (.busy op .lzwExit) s) :=
  ⟨_, engineReaches_lzwExit s, fun _ => afterDecode_idle s⟩

theorem engineEnds_lzwEnd : EngineEnds (setPhase (.busy op .lzwEnd) s) :=
  ⟨_, engineReaches_lzwEnd s, fun _ => afterDecode_idle _⟩

/-- What ends in a completion ends idle. -/
theorem EngineEnds.of_complete {α : Type} {x : Except Fault α} {f : α → State}
    (h : EngineReaches s (x.bind fun u => .ok (complete (f u)))) : EngineEnds s := by
  refine ⟨_, h, fun t ht => ?_⟩
  obtain ⟨u, -, ht⟩ := bind_eq_ok.1 ht
  cases ht; rfl

theorem engineEnds_resolve : EngineEnds (setPhase (.busy op .resolve) s) :=
  .of_complete _ (engineReaches_resolve s)

theorem engineEnds_seed : EngineEnds (setPhase (.busy op .seed) s) := by
  have h := engineReaches_seed (op := op) s
  rw [← bind_assoc_except] at h
  exact .of_complete _ h

theorem engineEnds_emit : EngineEnds (setPhase (.busy op .emit) s) :=
  ⟨_, engineReaches_emit s, fun _ ht => Except.ok.inj ht ▸ rfl⟩

theorem engineEnds_paint (k j : Nat) : EngineEnds (setPhase (.busy op (.paint k j)) s) := by
  by_cases hk : k < canvasCount s.snap
  · exact .of_complete _ (engineReaches_paint (Nat.add_sub_cancel' hk.le))
  · refine .of_step fun t ht => ?_
    have hstep : engineStep (setPhase (.busy op (.paint k j)) s) = .ok (setPhase (.busy op .emit) s) := if_neg hk
    rw [hstep] at ht
    cases ht
    exact engineEnds_emit s

end

/-! ## The decode loop ends: every code moves POS on, and POS stays inside the stream (R102) -/

theorem emitAndGrow_width_pos {s t : State} {str : Str} (hw : 1 ≤ s.lzw.w) (h : emitAndGrow str s = .ok t) :
    1 ≤ t.lzw.w := by
  rw [emitAndGrow_eq] at h
  rcases forcedReset_cases h with rfl | ⟨rfl, -⟩
  · have hgrown : s.lzw.w ≤ (grownState str s).lzw.w := by
      obtain ⟨m, o, hm⟩ := emitBytes_frame str.bytes s
      rw [grownState, hm, growWidth_addEntry]
      simp only [grownWidth]
      split <;> omega
    omega
  · exact Nat.succ_pos _

theorem lzwStep_width_pos {s t : State} (hw : 1 ≤ s.lzw.w) (h : lzwStep s = .ok t) : 1 ≤ t.lzw.w := by
  rcases lzwStep_cases h with ⟨-, rfl⟩ | ⟨-, -, rfl⟩ | ⟨-, -, c, -, h⟩
  · exact hw
  · exact hw
  · have hadv : 1 ≤ (advancePos s).lzw.w := hw
    rcases codeWork_cases h with ⟨-, rfl⟩ | ⟨-, rfl⟩ | ⟨-, -, -, str, -, h⟩ | ⟨-, -, -, p, -, h⟩ | ⟨-, -, -, rfl⟩
    · exact Nat.succ_pos _
    · exact hadv
    · exact emitAndGrow_width_pos hadv h
    · exact emitAndGrow_width_pos hadv h
    · rcases invalidCode_cases (advancePos s) with h | h <;> rw [h] <;> exact hadv

theorem engineEnds_lzw {op : Op} {s : State} (hw : 1 ≤ s.lzw.w) : EngineEnds (setPhase (.busy op .lzw) s) := by
  induction hleft : streamBits s.snap - s.lzw.pos using Nat.strong_induction_on generalizing s with
  | _ left ih =>
    refine .of_step fun t ht => ?_
    rw [engineStep_lzw_setPhase] at ht
    obtain ⟨u, hu, ht⟩ := bind_eq_ok.1 ht
    cases ht
    by_cases hstop : u.status.stop = .none
    · obtain ⟨hframe, -, hkind⟩ := lzwStep_frame hu
      have hsnap : u.snap = s.snap := by rw [hframe]
      simp only [hstop, reduceCtorEq, false_and, false_or] at hkind
      rw [if_pos hstop]
      exact ih _ (by rw [hsnap]; omega) (lzwStep_width_pos hw hu) rfl
    · rw [if_neg hstop]
      exact engineEnds_lzwEnd u

/-- The first step of a longer command is its checks and the start of its work. -/
theorem engineEnds_checked {op : Op} {s : State} {g : State → State}
    (hstep : engineStep s = checked op (fun s => .ok (g s)) s) (hwork : EngineEnds (g s)) : EngineEnds s := by
  refine .of_step fun t ht => ?_
  rw [hstep] at ht
  rcases checked_cases ht with ⟨code, -, rfl⟩ | ⟨-, ht⟩
  · exact .of_idle rfl
  · cases ht
    exact hwork

/-- Does a command do its whole work in its first step? -/
def Op.isOneStep : Op → Bool
  | .nop | .sreset | .newstream | .bitread | .reorder => true
  | .decode | .compose | .frame => false

theorem startStep_of_isOneStep {op : Op} (hop : op.isOneStep = true) (s : State) :
    startStep op s = commandBody op s := by
  cases op
  case nop | sreset | newstream | bitread | reorder => rfl
  case decode | compose | frame => exact absurd hop Bool.false_ne_true

theorem commandBody_idle {op : Op} {s t : State} (hop : op.isOneStep = true) (h : commandBody op s = .ok t) :
    t.phase = .idle := by
  cases op
  case nop | sreset | newstream => cases h; rfl
  case bitread =>
    rcases checked_cases h with ⟨code, -, rfl⟩ | ⟨-, h⟩
    · rfl
    · obtain ⟨v, -, h⟩ := bind_eq_ok.1 h
      cases h; rfl
  case reorder =>
    rw [commandBody, reorderBody] at h
    rcases checked_cases h with ⟨code, -, rfl⟩ | ⟨-, h⟩
    · rfl
    · cases h; rfl
  case decode | compose | frame => exact absurd hop Bool.false_ne_true

theorem engineStep_start {op : Op} {s : State} (hphase : s.phase = .busy op .start) :
    engineStep s = startStep op s := by
  rw [engineStep, hphase]

theorem engineEnds_start {op : Op} {s : State} (hphase : s.phase = .busy op .start) : EngineEnds s := by
  have hstep := engineStep_start hphase
  cases op
  case nop | sreset | newstream | bitread | reorder =>
    rw [startStep_of_isOneStep rfl] at hstep
    exact .of_step fun t ht => .of_idle (commandBody_idle rfl (hstep.symm.trans ht))
  case decode | frame =>
    exact engineEnds_checked (g := fun s => setPhase (.busy _ .lzw) (lzwStart s)) hstep
      (engineEnds_lzw (s := lzwStart s) (Nat.succ_pos _))
  case compose => exact engineEnds_checked hstep (engineEnds_resolve s)

/-- Settles O48: in every sub-phase the engine ends, in the decode loop because POS moves on. -/
theorem engineAlwaysEnds : Obligations.EngineAlwaysEnds := by
  unfold Obligations.EngineAlwaysEnds
  intro s hw
  have hends : EngineEnds s := by
    cases hphase : s.phase with
    | idle => exact .of_idle hphase
    | busy op p =>
      have hself := setPhase_of_phase hphase
      cases p
      case start => exact engineEnds_start hphase
      case lzw => exact hself ▸ engineEnds_lzw (hw op hphase)
      case lzwEnd => exact hself ▸ engineEnds_lzwEnd s
      case lzwExit => exact hself ▸ engineEnds_lzwExit s
      case reorder =>
        refine hself ▸ .of_step fun t ht => ?_
        have hstep : engineStep (setPhase (.busy op .reorder) s) =
            .ok (setPhase (.busy op .resolve) (reorderRows s)) := rfl
        rw [hstep] at ht
        cases ht
        exact engineEnds_resolve _
      case resolve => exact hself ▸ engineEnds_resolve s
      case seed => exact hself ▸ engineEnds_seed s
      case paint k j => exact hself ▸ engineEnds_paint s k j
      case emit => exact hself ▸ engineEnds_emit s
  obtain ⟨r, ⟨n, hn⟩, hidle⟩ := hends
  cases r with
  | ok t => exact ⟨n, .inl ⟨t, hn, hidle t rfl⟩⟩
  | error f => exact ⟨n, .inr ⟨f, hn⟩⟩

/-! ## The live configuration is not seen (R51, R186) -/

/-- The state with another live configuration. -/
def withConf (c : Conf) (s : State) : State := { s with conf := c }

theorem carriedAlong_withConf (c : Conf) : CarriedAlong (withConf c) := ⟨fun _ _ => rfl, fun _ _ => rfl⟩

theorem map_bind_except {α β γ : Type} {x : Except Fault α} {f : α → β} {g : β → Except Fault γ}
    {g' : α → Except Fault γ} {f' : γ → γ} (h : ∀ a, g (f a) = (g' a).map f') :
    (x.map f).bind g = (x.bind g').map f' := by
  cases x with
  | error e => rfl
  | ok a => exact h a

section
variable {op : Op} {c : Conf}

theorem checked_withConf {work : State → Except Fault State} (s : State)
    (hwork : work (withConf c s) = (work s).map (withConf c)) :
    checked op work (withConf c s) = (checked op work s).map (withConf c) := by
  rw [checked, checked]
  change (match failedCheck op s.cfg s.snap with | some code => _ | none => _) = _
  cases failedCheck op s.cfg s.snap with
  | some code => rfl
  | none => exact hwork

theorem commandBody_withConf (hop : op ≠ .sreset) (s : State) :
    commandBody op (withConf c s) = (commandBody op s).map (withConf c) := by
  have hcarried := carriedAlong_withConf c
  cases op
  case nop | newstream => rfl
  case sreset => exact absurd rfl hop
  case bitread =>
    refine checked_withConf s ?_
    rw [bitreadWork, bitreadWork]
    change (readBits s.cdata s.snap.brOff.toNat s.snap.brN.toNat).bind _ = _
    cases readBits s.cdata s.snap.brOff.toNat s.snap.brN.toNat <;> rfl
  case decode =>
    rw [commandBody, decodeBody]
    refine checked_withConf s ?_
    rw [hcarried.lzwDecode]
    refine map_bind_except fun d => congrArg Except.ok ?_
    rw [decodeEnd, decodeEnd, apply_ite (withConf c)]
    rfl
  case reorder =>
    rw [commandBody, reorderBody]
    exact checked_withConf s (by rfl)
  case compose =>
    rw [commandBody, composeBody]
    refine checked_withConf s ?_
    rw [hcarried.composeFrame]
    exact map_bind_except fun u => rfl
  case frame =>
    rw [commandBody, frameBody]
    refine checked_withConf s ?_
    rw [hcarried.lzwDecode]
    refine map_bind_except fun d => ?_
    rw [apply_ite (Except.map (withConf c))]
    refine ite_congr rfl (fun _ => rfl) fun _ => ?_
    rw [show reorderRows (withConf c d) = withConf c (reorderRows d) from rfl, hcarried.composeFrame]
    exact map_bind_except fun u => rfl

theorem startStep_withConf (hop : op ≠ .sreset) (s : State) :
    startStep op (withConf c s) = (startStep op s).map (withConf c) := by
  cases op
  case nop | sreset | newstream | bitread | reorder => exact commandBody_withConf hop s
  case decode | frame | compose =>
    rw [startStep, startStep]
    exact checked_withConf s (by rfl)

theorem engineStep_withConf (s : State) (hphase : s.phase ≠ .busy .sreset .start) :
    engineStep (withConf c s) = (engineStep s).map (withConf c) := by
  have hcarried := carriedAlong_withConf c
  cases hp : s.phase with
  | idle => rw [engineStep, engineStep, show (withConf c s).phase = s.phase from rfl, hp]; rfl
  | busy op p =>
    rw [engineStep, engineStep, show (withConf c s).phase = s.phase from rfl, hp]
    cases p
    case start => exact startStep_withConf (fun hop => hphase (hop ▸ hp)) s
    case lzw =>
      change (lzwStep (withConf c s)).bind _ = _
      rw [hcarried.lzwStep]
      refine map_bind_except fun t => congrArg Except.ok ?_
      rw [afterCode, afterCode, apply_ite (withConf c)]
      rfl
    case lzwEnd => exact congrArg (fun t => Except.ok (setPhase (.busy op .lzwExit) t)) (hcarried.underrunCheck s)
    case lzwExit =>
      refine congrArg Except.ok ?_
      rw [lzwExit, lzwExit, apply_ite (withConf c), apply_ite (withConf c)]
      rfl
    case reorder => rfl
    case resolve =>
      change (background (withConf c s)).bind _ = _
      rw [hcarried.background]
      cases background s <;> rfl
    case seed =>
      change (seedBy s.frameInfo.lastDisp (withConf c s)).bind _ = _
      rw [hcarried.seedBy]
      exact map_bind_except fun t => rfl
    case paint k j =>
      change (if k < canvasCount s.snap then (paintCell k j (withConf c s)).bind _ else _) = _
      rw [hcarried.paintCell, apply_ite (Except.map (withConf c))]
      exact ite_congr rfl (fun _ => map_bind_except fun r => rfl) fun _ => rfl
    case emit => rfl

end

/-- Settles O49: the units read the snapshot alone, and the live configuration is carried along. -/
theorem runningCommandIgnoresConfiguration : Obligations.RunningCommandIgnoresConfiguration := by
  unfold Obligations.RunningCommandIgnoresConfiguration
  exact ⟨fun s c hphase => engineStep_withConf s hphase, fun op s c hop => commandBody_withConf hop s⟩

end Sys2Proof.Machine
end

section
/-! The family of the remaining statements, the host window: accesses and their faults (R54 to R62, R173, R185), the
registers (R18 to R39), the memories (R40 to R48, R55 to R58) and power-on reset (R53, R181). -/

namespace Sys2Proof.Machine

/-! ## Where an access lands -/

theorem placeAt_register {off : Nat} (h : off < 0x100) : placeAt off = .register (regAt off) := if_pos h

theorem placeAt_reserved {off : Nat}
    (h : (0x100 ≤ off ∧ off < 0x400) ∨ (0xC00 ≤ off ∧ off < 0x1000000) ∨ 0x8000000 ≤ off) : placeAt off = .reserved := by
  unfold placeAt
  split_ifs <;> first | omega | rfl

theorem regAt_reserved {off : Nat} (h : 0x50 ≤ off) : regAt off = .reserved := by
  unfold regAt
  split <;> first | omega | rfl

theorem locate_misaligned {c : Config} {addr width : Nat} (hlo : c.base ≤ addr) (hhi : addr < c.base + 2 ^ 28)
    (h : width ≠ 4 ∨ (addr - c.base) % 4 ≠ 0) : locate c addr width = .error (.busError addr width) := by
  have hin : ¬ (addr < c.base ∨ c.base + Config.windowBytes ≤ addr) := by
    unfold Config.windowBytes; omega
  rw [locate, if_neg hin, if_pos h]

/-- An access at no memory of UGPP reaches its place, idle or BUSY. -/
theorem accessPlace_of_locate {s : State} {addr width : Nat} {p : Place} (hloc : locate s.cfg addr width = .ok p)
    (hmem : p.isMemory = false) : accessPlace s addr width = .ok p := by
  rw [accessPlace, hloc, Except_bind_ok, hmem, Bool.false_and, if_neg Bool.false_ne_true]

theorem accessPlace_error {s : State} {addr width : Nat} {f : Fault} (h : accessPlace s addr width = .error f) (v : Word) :
    busWrite addr width v s = .error f ∧ busRead addr width s = .error f := by
  rw [busWrite, busRead, h]
  exact ⟨rfl, rfl⟩

/-- Settles O51: a reserved place reads 0 and takes no write, a misaligned access is refused before its place is looked
at, and an access outside the window has no place. -/
theorem unalignedAccessIsBusError : Obligations.UnalignedAccessIsBusError := by
  unfold Obligations.UnalignedAccessIsBusError
  refine ⟨fun s off v halign hoff => ?reserved, fun s addr width v hlo hhi hbad => ?misaligned,
    fun s addr width v hout => ?outside⟩
  case reserved =>
    have hin : off < 2 ^ 28 := by omega
    by_cases hreg : off < 0x100
    · have hplace : placeAt off = .register .reserved := by
        rw [placeAt_register hreg, regAt_reserved (by omega)]
      have hmem : (placeAt off).isMemory = false := by rw [hplace]; rfl
      rw [busWrite_at v hin halign (.inl hmem), busRead_at hin halign (.inl hmem), hplace]
      refine ⟨rfl, ?_⟩
      rw [placeRead, regRead_conf _ s (by decide) (by decide)]
      rfl
    · have hplace : placeAt off = .reserved := placeAt_reserved (by omega)
      have hmem : (placeAt off).isMemory = false := by rw [hplace]; rfl
      rw [busWrite_at v hin halign (.inl hmem), busRead_at hin halign (.inl hmem), hplace]
      exact ⟨rfl, rfl⟩
  case misaligned =>
    refine accessPlace_error ?_ v
    rw [accessPlace, locate_misaligned hlo hhi hbad]
    rfl
  case outside =>
    have hplace := accessPlace_of_locate (s := s) (locate_outside (width := width) hout) rfl
    rw [busWrite, busRead, hplace]
    exact ⟨rfl, _, rfl⟩

/-- Settles O52: the block memories are the places R185 names, and no other place is refused. -/
theorem memoryAccessWhileBusyFaults : Obligations.MemoryAccessWhileBusyFaults := by
  unfold Obligations.MemoryAccessWhileBusyFaults
  intro s off v hbusy halign hin
  refine ⟨fun hmem => ?_, fun hopen => ?_⟩
  · have hplace := (placeAt_isMemory off).2 hmem
    refine accessPlace_error ?_ v
    rw [accessPlace, locate_ok hin halign, Except_bind_ok, hplace, hbusy]
    rfl
  · have hplace : (placeAt off).isMemory = false := by
      rw [Bool.eq_false_iff]
      intro h
      have := (placeAt_isMemory off).1 h
      omega
    exact ⟨⟨_, busWrite_at v hin halign (.inl hplace)⟩, _, busRead_at hin halign (.inl hplace)⟩

/-! ## The registers -/

section
variable {s : State} {off : Nat} {r : Reg} (hin : off < 0x100) (halign : off % 4 = 0) (hreg : regAt off = r)
include hin halign hreg

theorem busWrite_register (v : Word) : busWrite (s.cfg.base + off) 4 v s = .ok (regWrite r v s) := by
  have hplace : placeAt off = .register r := by rw [placeAt_register hin, hreg]
  rw [busWrite_at v (by omega) halign (.inl (by rw [hplace]; rfl)), hplace]
  rfl

theorem readsAs_register : readsAs s off (regRead r (Config.freeWord s.draws) s) := by
  have hplace : placeAt off = .register r := by rw [placeAt_register hin, hreg]
  rw [readsAs, busRead_at (by omega) halign (.inl (by rw [hplace]; rfl)), hplace]
  rfl

/-- A register that is neither STATUS nor a result register reads as its word, idle or BUSY. -/
theorem readsAs_conf (hconf : r ≠ .status ∧ r.isResult = false) : readsAs s off (regWord r s) := by
  have h := readsAs_register (s := s) hin halign hreg
  rwa [regRead_conf _ s hconf.1 hconf.2] at h

/-- While idle every register reads as its word. -/
theorem readsAs_idle (hidle : busy s = false) : readsAs s off (regWord r s) := by
  have h := readsAs_register (s := s) hin halign hreg
  rwa [regRead, hidle, if_neg Bool.false_ne_true] at h

end

theorem errField_eq (e : ErrCode) : errField e = errCodeBits e := by cases e <;> rfl

theorem stopField_eq (r : Stop) : stopField r = stopBits r := by cases r <;> rfl

/-- SCR_CFG keeps its fields (R25). -/
theorem scrCfgWord_confWrite (v : Word) : (0 : BitVec 8) ++ v.extractLsb' 16 8 ++ v.extractLsb' 8 8 ++ v.extractLsb' 0 8 =
    v &&& 0x00FFFFFF :=
  rgbWord_rgbOfWord v

/-- GCE keeps its fields (R29). -/
theorem gceWord_confWrite (v : Word) : v.extractLsb' 16 16 ++ v.extractLsb' 8 8 ++ v.extractLsb' 0 8 = v := by
  refine BitVec.eq_of_getLsbD_eq fun i hi => ?_
  simp only [BitVec.getLsbD_append, BitVec.getLsbD_extractLsb']
  interval_cases i <;> simp

/-- The bits of a word that a configuration register keeps; the others are reserved (R19 to R32). -/
def keptBits : Reg → Word
  | .ctrl => 0x00000007
  | .scrSize | .imgPos | .imgSize | .gce | .brOff => 0xFFFFFFFF
  | .scrCfg => 0x00FFFFFF
  | .imgCfg => 0x0000077F
  | .clen => 0x01FFFFFF
  | .brN => 0x0000001F
  | .cmd | .status | .warn | .brVal | .pcnt | .lzwDbg | .lzwPos | .frameNo | .frameInfo | .dly | .reserved => 0

/-- The registers a host write configures (R20, R24 to R32). -/
def Reg.isConf : Reg → Bool
  | .ctrl | .scrSize | .scrCfg | .imgPos | .imgSize | .imgCfg | .gce | .clen | .brOff | .brN => true
  | .cmd | .status | .warn | .brVal | .pcnt | .lzwDbg | .lzwPos | .frameNo | .frameInfo | .dly | .reserved => false

theorem and_allBits (v : Word) : v &&& 0xFFFFFFFF = v := BitVec.and_allOnes

/-- A configuration register reads back the bits it keeps. -/
theorem regWord_regWrite {r : Reg} (hr : r.isConf = true) (v : Word) (s : State) :
    regWord r (regWrite r v s) = v &&& keptBits r := by
  cases r
  case ctrl => exact ctrlWord_confWrite v s.conf
  case imgCfg => exact imgCfgWord_confWrite v s.conf
  case scrSize | imgPos | imgSize => exact (halves_append v).trans (and_allBits v).symm
  case gce => exact (gceWord_confWrite v).trans (and_allBits v).symm
  case brOff => exact (and_allBits v).symm
  case scrCfg => exact scrCfgWord_confWrite v
  case clen => exact (BitVec.setWidth_eq _).symm.trans (low_append 25 7 v)
  case brN => exact (BitVec.setWidth_eq _).symm.trans (low_append 5 27 v)
  all_goals exact absurd hr Bool.false_ne_true

/-- A configuration register reads as its word, idle or BUSY (R186). -/
theorem Reg.reads_of_isConf {r : Reg} (hr : r.isConf = true) : r ≠ .status ∧ r.isResult = false := by
  cases r
  case ctrl | scrSize | scrCfg | imgPos | imgSize | imgCfg | gce | clen | brOff | brN => exact ⟨nofun, rfl⟩
  all_goals exact absurd hr Bool.false_ne_true

/-- A configuration write reads back, idle or BUSY (R186). -/
theorem register_readBack {off : Nat} (hin : off < 0x100) (halign : off % 4 = 0) (hr : (regAt off).isConf = true)
    (v : Word) (s : State) :
    ∃ t, busWrite (s.cfg.base + off) 4 v s = .ok t ∧ readsAs t off (v &&& keptBits (regAt off)) := by
  have hconf := Reg.reads_of_isConf hr
  refine ⟨_, busWrite_register hin halign rfl v, ?_⟩
  rw [← regWord_regWrite hr v s]
  exact readsAs_conf hin halign rfl hconf

/-- Settles O53: each offset is a register's, which reads as its word; a write of a configuration register is
`confWrite`. -/
theorem configurationRegistersReadBack : Obligations.ConfigurationRegistersReadBack := by
  unfold Obligations.ConfigurationRegistersReadBack
  refine ⟨fun s v => ?written, fun s => ?conf, fun s hidle => ?idle, fun s hbusy hstatus => ?busy, fun s v r hr => ?readBack⟩
  case written =>
    have hwrite {off : Nat} (hin : off < 0x100) (halign : off % 4 = 0) :
        busWrite (s.cfg.base + off) 4 v s = .ok (regWrite (regAt off) v s) := busWrite_register hin halign rfl v
    refine ⟨hwrite (by decide) (by decide), hwrite (by decide) (by decide), hwrite (by decide) (by decide),
      hwrite (by decide) (by decide), hwrite (by decide) (by decide), hwrite (by decide) (by decide),
      hwrite (by decide) (by decide), hwrite (by decide) (by decide), hwrite (by decide) (by decide),
      hwrite (by decide) (by decide), fun off hoff => ?_⟩
    fin_cases hoff <;> exact hwrite (by decide) (by decide)
  case conf =>
    have hread {off : Nat} (hin : off < 0x100) (halign : off % 4 = 0)
        (hconf : regAt off ≠ .status ∧ (regAt off).isResult = false) : readsAs s off (regWord (regAt off) s) :=
      readsAs_conf hin halign rfl hconf
    exact ⟨hread (by decide) (by decide) (by decide), hread (by decide) (by decide) (by decide),
      hread (by decide) (by decide) (by decide), hread (by decide) (by decide) (by decide),
      hread (by decide) (by decide) (by decide), hread (by decide) (by decide) (by decide),
      hread (by decide) (by decide) (by decide), hread (by decide) (by decide) (by decide),
      hread (by decide) (by decide) (by decide), hread (by decide) (by decide) (by decide),
      hread (by decide) (by decide) (by decide)⟩
  case idle =>
    have hread {off : Nat} (hin : off < 0x100) (halign : off % 4 = 0) : readsAs s off (regWord (regAt off) s) :=
      readsAs_idle hin halign rfl hidle
    refine ⟨?status, hread (by decide) (by decide), hread (by decide) (by decide), hread (by decide) (by decide),
      hread (by decide) (by decide), hread (by decide) (by decide), hread (by decide) (by decide),
      hread (by decide) (by decide), hread (by decide) (by decide)⟩
    have h : readsAs s 0x08 (statusWord (busy s) s.status (stopBits s.status.stop)) := hread (by decide) (by decide)
    rw [hidle, statusWord, ← errField_eq, ← stopField_eq] at h
    exact h
  case busy =>
    obtain ⟨hdone, herr, hcode⟩ := hstatus.1 hbusy
    refine ⟨(Config.freeWord s.draws).extractLsb' 0 3, ?_⟩
    have h := readsAs_register (s := s) (off := 0x08) (r := .status) (by decide) (by decide) rfl
    rw [regRead, if_pos hbusy, if_pos rfl, statusWord, hdone, herr, hcode] at h
    exact h
  case readBack =>
    fin_cases hr <;> exact register_readBack (by decide) (by decide) (by decide) v s

/-- Settles O55: STATUS and WARN are write-1-to-clear. -/
theorem writeOneClearsStatusAndWarn : Obligations.WriteOneClearsStatusAndWarn := by
  unfold Obligations.WriteOneClearsStatusAndWarn
  exact fun s v => ⟨busWrite_register (by decide) (by decide) rfl v, busWrite_register (by decide) (by decide) rfl v⟩

/-! ## The memories -/

section
variable {s : State} {off : Nat} {p : Place} (hidle : busy s = false) (hin : off < 2 ^ 28) (halign : off % 4 = 0)
  (hplace : placeAt off = p)
include hidle hin halign hplace

theorem busWrite_idle (v : Word) : busWrite (s.cfg.base + off) 4 v s = .ok (placeWrite p v s) := by
  rw [busWrite_at v hin halign (.inr hidle), hplace]

theorem readsAs_place : readsAs s off (placeRead p (Config.freeWord s.draws) s) := by
  rw [readsAs, busRead_at hin halign (.inr hidle), hplace]

end

/-- A lane of a word read from CDATA, IDXBUF or RBUF (R58). -/
theorem lane_wordOfBytes_eq (f : Nat → Byte) {j : Nat} (hj : j < 4) :
    (wordOfBytes (f 0) (f 1) (f 2) (f 3)).extractLsb' (8 * j) 8 = f j := by
  rw [lane_wordOfBytes _ _ _ _ hj]
  interval_cases j <;> rfl

/-- A colour-table entry reads back as its three bytes (R56). -/
theorem tableWord_memSet (m : Mem Rgb) (i : Nat) (v free : Word) :
    tableWord (memSet m i (rgbOfWord v)) i free = v &&& 0x00FFFFFF := by
  rw [tableWord, memGet_memSet, if_pos rfl]
  exact rgbWord_rgbOfWord v

theorem memGet_memSet_ne {α : Type} (m : Mem α) {i j : Nat} (v : α) (h : j ≠ i) : memGet (memSet m i v) j = memGet m j := by
  rw [memGet_memSet, if_neg h.symm]

/-- A CDATA word that fits the memory reads back (R55, R58). -/
theorem cdata_readBack {s : State} {k : Nat} (hfits : k + 4 ≤ s.cfg.cdataBytes) (v free : Word) :
    placeRead (.cdata k) free (placeWrite (.cdata k) v s) = v := by
  have hlane {j : Nat} (hj : j < 4) : cdataLane (placeWrite (.cdata k) v s) k j free = lane v j := by
    change (if k + j < s.cfg.cdataBytes then
      (memGet (writeCdata s.cfg.cdataBytes k v s.cdata) (k + j)).getD (lane free j) else 0) = lane v j
    rw [if_pos (by omega), memGet_writeCdata, if_pos (by omega), Nat.add_sub_cancel_left]
    rfl
  rw [placeRead, hlane (by decide), hlane (by decide), hlane (by decide), hlane (by decide)]
  exact wordOfBytes_lanes v

/-- Settles O54: the places of the map are the memories' cells, lane by lane. -/
theorem memoryWordsReadBack : Obligations.MemoryWordsReadBack := by
  unfold Obligations.MemoryWordsReadBack
  refine ⟨fun s k v hidle halign hk => ?cdataWrite, fun s k hidle halign hk => ?cdataRead, fun s i v hidle hi => ?tables,
    fun s k v hidle hk => ?buffers⟩
  case cdataWrite =>
    have hplace := placeAt_cdata hk
    refine ⟨placeWrite (.cdata k) v s, ?_, rfl, fun i => ?_, fun hfits => ?_⟩
    · rw [Nat.add_assoc]
      exact busWrite_idle hidle (by omega) (by omega) hplace v
    · exact memGet_writeCdata s.cfg.cdataBytes k i v s.cdata
    · have h := readsAs_place (s := placeWrite (.cdata k) v s) hidle (by omega) (by omega) hplace
      rwa [cdata_readBack hfits] at h
  case cdataRead =>
    refine ⟨_, readsAs_place hidle (by omega) (by omega) (placeAt_cdata hk), fun j hj => ?_⟩
    rw [placeRead, lane_wordOfBytes_eq (fun j => cdataLane s k j (Config.freeWord s.draws)) hj]
    refine ⟨fun hpast => if_neg (by omega), fun b hlt hb => ?_⟩
    rw [cdataLane, if_pos hlt, hb]
    rfl
  case tables =>
    refine ⟨⟨placeWrite (.gct i) v s, ?_, rfl, ?_, ?_, fun j hj => memGet_memSet_ne _ _ hj⟩,
      ⟨placeWrite (.lct i) v s, ?_, rfl, ?_, ?_, fun j hj => memGet_memSet_ne _ _ hj⟩⟩
    · rw [Nat.add_assoc]
      exact busWrite_idle hidle (by omega) (by omega) (placeAt_gct hi) v
    · have h := readsAs_place (s := placeWrite (.gct i) v s) hidle (by omega) (by omega) (placeAt_gct hi)
      rw [placeRead] at h
      exact (tableWord_memSet s.gct i v _) ▸ h
    · exact (memGet_memSet _ _ _ _).trans (if_pos rfl)
    · rw [Nat.add_assoc]
      exact busWrite_idle hidle (by omega) (by omega) (placeAt_lct hi) v
    · have h := readsAs_place (s := placeWrite (.lct i) v s) hidle (by omega) (by omega) (placeAt_lct hi)
      rw [placeRead] at h
      exact (tableWord_memSet s.lct i v _) ▸ h
    · exact (memGet_memSet _ _ _ _).trans (if_pos rfl)
  case buffers =>
    have hout : readsAs s (0x4000000 + 4 * k) (outWord s k (Config.freeWord s.draws)) :=
      readsAs_place hidle (by omega) (by omega) (placeAt_out hk)
    refine ⟨fun p hlt hp => ?_, fun hpast => ?_, ?_, fun halign => ⟨?_, ?_, ?_, ?_⟩⟩
    · rw [outWord, if_pos hlt, hp] at hout
      exact hout
    · rwa [outWord, if_neg (by omega)] at hout
    · rw [Nat.add_assoc]
      exact busWrite_idle hidle (by omega) (by omega) (placeAt_out hk) v
    · rw [Nat.add_assoc]
      exact busWrite_idle hidle (by omega) (by omega) (placeAt_idxbuf hk) v
    · rw [Nat.add_assoc]
      exact busWrite_idle hidle (by omega) (by omega) (placeAt_rbuf hk) v
    · exact ⟨_, readsAs_place hidle (by omega) (by omega) (placeAt_idxbuf hk), fun j hj =>
        lane_wordOfBytes_eq (fun j => bufLane s.idxbuf s.cfg.pixMax k j) hj⟩
    · exact ⟨_, readsAs_place hidle (by omega) (by omega) (placeAt_rbuf hk), fun j hj =>
        lane_wordOfBytes_eq (fun j => bufLane s.rbuf s.cfg.pixMax k j) hj⟩

/-! ## Power-on reset -/

/-- Settles O56: every register of the reset state is spelled out, and the signal is one step of the host's. -/
theorem resetRegistersAndMemories : Obligations.ResetRegistersAndMemories := by
  unfold Obligations.ResetRegistersAndMemories
  refine ⟨fun r hctrl hinfo => ?_, rfl, rfl, rfl, rfl, fun k => ⟨rfl, rfl, rfl, rfl, rfl, rfl, rfl, rfl, rfl⟩,
    fun s rest hhost hturn => ?_⟩
  · cases r
    case ctrl => exact absurd rfl hctrl
    case frameInfo => exact absurd rfl hinfo
    all_goals rfl
  · rw [step_host_cons hturn hhost]
    rfl

end Sys2Proof.Machine
end

section
/-! The family of the remaining statements, the host's parser (48_host_interface.md section 1): the one cause of
`FormatError` (R147) and the sub-block runs (R151). -/

namespace Sys2Proof.Machine

/-! ## Only the signature is a FormatError -/

theorem ne_format_bind {α β : Type} {x : Except ParseError α} {f : α → Except ParseError β}
    (hx : x ≠ .error .format) (hf : ∀ a, f a ≠ .error .format) : x.bind f ≠ .error .format := by
  cases x with
  | error e => exact fun h => hx (congrArg Except.error (Except.error.inj h))
  | ok a => exact hf a

theorem malformed_ne_format {α : Type} : (.error .malformed : Except ParseError α) ≠ .error .format := nofun

theorem ok_ne_format {α : Type} (a : α) : (.ok a : Except ParseError α) ≠ .error .format := nofun

theorem takeBytes_ne_format (n : Nat) (bs : List Byte) : takeBytes n bs ≠ .error .format := by
  rw [takeBytes]
  split
  · exact malformed_ne_format
  · exact ok_ne_format _

theorem subBlocks_ne_format (n : Nat) (bs : List Byte) : subBlocks n bs ≠ .error .format := by
  induction n generalizing bs with
  | zero => exact malformed_ne_format
  | succ n ih =>
    cases bs with
    | nil => exact malformed_ne_format
    | cons len bs =>
      rw [subBlocks]
      split
      · exact ok_ne_format _
      · exact ne_format_bind (takeBytes_ne_format _ _) fun d => ne_format_bind (ih d.2) fun r => ok_ne_format _

theorem readRun_ne_format (bs : List Byte) : readRun bs ≠ .error .format := subBlocks_ne_format _ bs

theorem readTable_ne_format (flag : Bool) (exp : BitVec 3) (bs : List Byte) : readTable flag exp bs ≠ .error .format := by
  rw [readTable]
  split
  · exact ne_format_bind (takeBytes_ne_format _ _) fun d => ok_ne_format _
  · exact ok_ne_format _

theorem readImage_ne_format (gce : Option GceRec) (bs : List Byte) : readImage gce bs ≠ .error .format := by
  unfold readImage
  split
  · refine ne_format_bind (readTable_ne_format _ _ _) fun lct => ?_
    split
    · exact malformed_ne_format
    · exact ne_format_bind (readRun_ne_format _) fun run => ok_ne_format _
  · exact malformed_ne_format

theorem readGce_ne_format (bs : List Byte) : readGce bs ≠ .error .format := by
  unfold readGce
  split
  · exact ok_ne_format _
  · exact malformed_ne_format

theorem readExtension_ne_format (a : ParseAcc) (bs : List Byte) : readExtension a bs ≠ .error .format := by
  unfold readExtension
  split
  · exact malformed_ne_format
  · split
    · exact ne_format_bind (readGce_ne_format _) fun g => ok_ne_format _
    · refine ne_format_bind (readRun_ne_format _) fun run => ?_
      split_ifs <;> exact ok_ne_format _

theorem readBlocks_ne_format (n : Nat) (a : ParseAcc) (bs : List Byte) : readBlocks n a bs ≠ .error .format := by
  induction n generalizing a bs with
  | zero => exact malformed_ne_format
  | succ n ih =>
    cases bs with
    | nil => exact malformed_ne_format
    | cons tag bs =>
      rw [readBlocks]
      split_ifs
      · exact ok_ne_format _
      · exact ne_format_bind (readImage_ne_format _ _) fun i => ih _ _
      · exact ne_format_bind (readExtension_ne_format _ _) fun r => ih _ _
      · exact malformed_ne_format

theorem readScreen_ne_format (version bs : List Byte) : readScreen version bs ≠ .error .format := by
  unfold readScreen
  split
  · exact ne_format_bind (readTable_ne_format _ _ _) fun t => readBlocks_ne_format _ _ _
  · exact malformed_ne_format

/-- Settles O59: past the signature nothing raises `FormatError`, and a buffer of fewer than three bytes has none. -/
theorem formatErrorExactlyOnBadSignature : Obligations.FormatErrorExactlyOnBadSignature := by
  unfold Obligations.FormatErrorExactlyOnBadSignature
  intro bs
  match bs with
  | [] | [_] | [_, _] => exact iff_of_true rfl (fun h => absurd (congrArg List.length h) (by simp))
  | s0 :: s1 :: s2 :: bs =>
    rw [parseGif]
    by_cases hsig : s0 = 0x47 ∧ s1 = 0x49 ∧ s2 = 0x46
    · rw [if_pos hsig]
      obtain ⟨rfl, rfl, rfl⟩ := hsig
      exact iff_of_false (ne_format_bind (takeBytes_ne_format _ _) fun v => readScreen_ne_format _ _)
        (not_not_intro rfl)
    · rw [if_neg hsig]
      refine iff_of_true rfl fun h => hsig ?_
      simpa using h

/-! ## Sub-block runs -/

theorem takeBytes_append (b rest : List Byte) : takeBytes b.length (b ++ rest) = .ok (b, rest) := by
  rw [takeBytes, if_neg (by simp), List.take_left, List.drop_left]

/-- The bytes of a run of sub-blocks, each with its length before it (R151). -/
def framed (blocks : List (List Byte)) : List Byte := blocks.flatMap fun b => BitVec.ofNat 8 b.length :: b

theorem length_le_framed (blocks : List (List Byte)) : blocks.length ≤ (framed blocks).length := by
  induction blocks with
  | nil => exact Nat.le_refl 0
  | cons b blocks ih =>
    have : (framed (b :: blocks)).length = b.length + 1 + (framed blocks).length := by
      rw [framed, List.flatMap_cons, List.length_append]
      rfl
    rw [this, List.length_cons]
    omega

/-- A run reads back with fuel for its sub-blocks and the terminator. -/
theorem subBlocks_framed (rest : List Byte) (blocks : List (List Byte))
    (hlen : ∀ b ∈ blocks, 1 ≤ b.length ∧ b.length ≤ 255) (n : Nat) (hn : blocks.length < n) :
    subBlocks n (framed blocks ++ 0 :: rest) = .ok (blocks, rest) := by
  induction blocks generalizing n with
  | nil =>
    obtain ⟨m, rfl⟩ := Nat.exists_eq_succ_of_ne_zero hn.ne_bot
    rfl
  | cons b blocks ih =>
    obtain ⟨m, rfl⟩ := Nat.exists_eq_succ_of_ne_zero (Nat.ne_of_gt (Nat.zero_lt_of_lt hn))
    obtain ⟨hpos, hmax⟩ := hlen b List.mem_cons_self
    have htoNat : (BitVec.ofNat 8 b.length).toNat = b.length := by
      rw [BitVec.toNat_ofNat]; omega
    have hne : BitVec.ofNat 8 b.length ≠ 0 := fun h => by
      rw [h] at htoNat
      exact absurd htoNat.symm (Nat.ne_of_gt hpos)
    have hbytes : framed (b :: blocks) ++ 0 :: rest =
        BitVec.ofNat 8 b.length :: (b ++ (framed blocks ++ 0 :: rest)) := by simp [framed]
    have hrest := ih (fun c hc => hlen c (List.mem_cons_of_mem b hc)) m (by rw [List.length_cons] at hn; omega)
    rw [hbytes, subBlocks, if_neg hne, htoNat, takeBytes_append]
    change (subBlocks m (framed blocks ++ 0 :: rest)).bind _ = _
    rw [hrest]
    rfl

/-- Settles O60: the buffer is longer than the number of its sub-blocks. -/
theorem subBlockRunsReadBack : Obligations.SubBlockRunsReadBack := by
  unfold Obligations.SubBlockRunsReadBack
  intro blocks rest hlen
  have hfuel := length_le_framed blocks
  exact subBlocks_framed rest blocks hlen _ (by rw [← framed, List.length_append]; omega)

end Sys2Proof.Machine
end

section
/-! The family of the remaining statements, the invariant of the machine: the reset state meets it (R53), and every step
of the engine and of the host keeps it (R77, R83, R84, R116). -/

namespace Sys2Proof.Machine

/-! ## The data of the machine, and where the engine stands -/

/-- The part of the invariant that does not speak of the engine phase. -/
structure DataInv (s : State) : Prop where
  cfg : s.cfg.valid = true
  mems : memsWf s = true
  lzw : lzwFit s
  strings : dictShort s

/-- The canonical form of each block memory (R40 to R48). -/
structure MemsInv (s : State) : Prop where
  cdata : memWf s.cfg.cdataBytes s.cdata = true
  gct : memWf Config.ctMax s.gct = true
  lct : memWf Config.ctMax s.lct = true
  idxbuf : memWf s.cfg.pixMax s.idxbuf = true
  rbuf : memWf s.cfg.pixMax s.rbuf = true
  canvas : memWf s.cfg.canvasPixMax s.canvas = true
  prev : memWf s.cfg.canvasPixMax s.prev = true
  keep : memWf s.cfg.canvasPixMax s.keep = true
  dict : memWf Config.dMax s.dict = true

theorem memsWf_iff {s : State} : memsWf s = true ↔ MemsInv s := by
  simp only [memsWf, Bool.and_eq_true]
  constructor
  · rintro ⟨⟨⟨⟨⟨⟨⟨⟨hcdata, hgct⟩, hlct⟩, hidxbuf⟩, hrbuf⟩, hcanvas⟩, hprev⟩, hkeep⟩, hdict⟩
    exact ⟨hcdata, hgct, hlct, hidxbuf, hrbuf, hcanvas, hprev, hkeep, hdict⟩
  · exact fun h => ⟨⟨⟨⟨⟨⟨⟨⟨h.cdata, h.gct⟩, h.lct⟩, h.idxbuf⟩, h.rbuf⟩, h.canvas⟩, h.prev⟩, h.keep⟩, h.dict⟩

theorem Inv.data {s : State} (h : Inv s) : DataInv s := ⟨h.cfg, h.mems, h.lzw, h.strings⟩

theorem DataInv.memsInv {s : State} (h : DataInv s) : MemsInv s := memsWf_iff.1 h.mems

/-- An idle machine. -/
theorem Inv.of_idle {t : State} (hdata : DataInv t) (hphase : t.phase = .idle)
    (hstatus : t.status.err = false ↔ t.status.errcode = .none) : Inv t where
  cfg := hdata.cfg
  status := ⟨fun hbusy => absurd (hbusy.symm.trans (busy_of_idle hphase)) (by decide), hstatus⟩
  mems := hdata.mems
  lzw := hdata.lzw
  strings := hdata.strings
  phase := by rw [phaseInv, hphase]; trivial
  decode := by rw [decodeInv, hphase]; trivial

/-- A running command. -/
theorem Inv.of_busy {t : State} {op : Op} {p : Point} (hdata : DataInv t) (hphase : t.phase = .busy op p)
    (hstatus : t.status.done = false ∧ t.status.err = false ∧ t.status.errcode = .none) (hpoint : pointOk op p = true)
    (hcheck : p ≠ .start → failedCheck op t.cfg t.snap = none) (hdecode : decodeInv t) : Inv t where
  cfg := hdata.cfg
  status := ⟨fun _ => hstatus, iff_of_true hstatus.2.1 hstatus.2.2⟩
  mems := hdata.mems
  lzw := hdata.lzw
  strings := hdata.strings
  phase := by rw [phaseInv, hphase]; exact ⟨hpoint, hcheck⟩
  decode := hdecode

theorem decodeInv_congr {s t : State} (hphase : t.phase = s.phase) (hsnap : t.snap = s.snap) (hlzw : t.lzw = s.lzw)
    (hdict : t.dict = s.dict) (hidxbuf : t.idxbuf = s.idxbuf) (hstop : t.status.stop = s.status.stop)
    (h : decodeInv s) : decodeInv t := by
  have hinv : LzwInv s → LzwInv t := fun h => lzwInv_congr h hsnap hlzw hdict hidxbuf
  rw [decodeInv] at h ⊢
  rw [hphase, hstop]
  revert h
  rcases s.phase with _ | ⟨op, p⟩
  · exact id
  · cases p
    case lzw | lzwEnd | lzwExit => exact fun h => ⟨hinv h.1, h.2⟩
    all_goals exact id

/-- A change that leaves the engine phase and the decoder as they are. -/
theorem Inv.of_decoder_kept {s t : State} (h : Inv s) (hdata : DataInv t) (hstatus : statusInv t) (hcfg : t.cfg = s.cfg)
    (hphase : t.phase = s.phase) (hsnap : t.snap = s.snap) (hlzw : t.lzw = s.lzw) (hdict : t.dict = s.dict)
    (hidxbuf : t.idxbuf = s.idxbuf) (hstop : t.status.stop = s.status.stop) : Inv t where
  cfg := hdata.cfg
  status := hstatus
  mems := hdata.mems
  lzw := hdata.lzw
  strings := hdata.strings
  phase := by rw [phaseInv, hphase, hcfg, hsnap]; exact h.phase
  decode := decodeInv_congr hphase hsnap hlzw hdict hidxbuf hstop h.decode

/-- What a step gives: the invariant, with the parameters unchanged (R7). -/
structure Keeps (s t : State) : Prop where
  inv : Inv t
  cfg : t.cfg = s.cfg

/-! ## The decoder keeps the form of its memories -/

/-- The canonical form of the two memories a decode writes. -/
structure DecodeMemsWf (s : State) : Prop where
  idxbuf : memWf s.cfg.pixMax s.idxbuf = true
  dict : memWf Config.dMax s.dict = true

section
variable {s : State}

theorem memWf_literals (hmcs : s.snap.imgCfg.mcs.toNat ≤ 8) : memWf Config.dMax (dictReset s).dict = true := by
  have hle : clearCode s.snap ≤ Config.dMax := (Nat.pow_le_pow_right (n := 2) (by decide) hmcs).trans (by decide)
  exact memWf_map_range hle fun c => Str.single (BitVec.ofNat 8 c)

theorem memWf_emitBytes (hsize : pixelCount s.snap ≤ s.cfg.pixMax) (l : List Byte)
    (h : memWf s.cfg.pixMax s.idxbuf = true) : memWf s.cfg.pixMax (emitBytes l s).idxbuf = true := by
  induction l generalizing s with
  | nil => exact h
  | cons b l ih =>
    rw [emitBytes]
    split
    · exact ih (s := { s with
        idxbuf := memSet s.idxbuf s.lzw.outn b, lzw := { s.lzw with outn := s.lzw.outn + 1 } }) hsize
        (memWf_memSet h (by omega) b)
    · exact ih hsize h

theorem decodeMemsWf_emitAndGrow {t : State} {str : Str} (hmcs : s.snap.imgCfg.mcs.toNat ≤ 8)
    (hsize : pixelCount s.snap ≤ s.cfg.pixMax) (h : DecodeMemsWf s) (hemit : emitAndGrow str s = .ok t) :
    DecodeMemsWf t := by
  have hidxbuf := memWf_emitBytes hsize str.bytes h.idxbuf
  obtain ⟨m, o, hm⟩ := emitBytes_frame str.bytes s
  have hgrown : DecodeMemsWf (grownState str s) := by
    rw [grownState, growWidth_addEntry]
    rw [hm] at hidxbuf ⊢
    refine ⟨hidxbuf, ?_⟩
    change memWf Config.dMax (match s.lzw.p with
      | some p => if s.lzw.n < 4096 then memSet s.dict s.lzw.n (p.snoc str.head) else s.dict
      | none => s.dict) = true
    split
    · split
      · exact memWf_memSet h.dict ‹_› _
      · exact h.dict
    · exact h.dict
  have hsnap : (grownState str s).snap = s.snap := grownState_reads.1
  rw [emitAndGrow_eq] at hemit
  rcases forcedReset_cases hemit with rfl | ⟨rfl, -⟩
  · exact hgrown
  · exact ⟨hgrown.idxbuf, memWf_literals (by rwa [hsnap])⟩

theorem decodeMemsWf_lzwStep {t : State} (hinv : LzwInv s) (hsize : pixelCount s.snap ≤ s.cfg.pixMax)
    (h : DecodeMemsWf s) (hstep : lzwStep s = .ok t) : DecodeMemsWf t := by
  have hadv : DecodeMemsWf (advancePos s) := ⟨h.idxbuf, h.dict⟩
  rcases lzwStep_string_cases hinv hstep with ⟨r, rfl⟩ | ⟨-, -, rfl | ⟨r, rfl⟩ | rfl | ⟨str, -, hemit⟩⟩
  · exact ⟨h.idxbuf, h.dict⟩
  · exact ⟨h.idxbuf, memWf_literals (s := advancePos s) hinv.mcs.2⟩
  · exact ⟨h.idxbuf, h.dict⟩
  · exact hadv
  · exact decodeMemsWf_emitAndGrow (s := advancePos s) hinv.mcs.2 hsize hadv hemit

end

theorem streamBits_le_of_checked {op : Op} {p : Config} {c : Conf} (hrow : Check.v3 ∈ checksOf op)
    (h : failedCheck op p c = none) : streamBits c ≤ 8 * p.cdataBytes := by
  have hfits := mt checkFails_v3.2 (Bool.eq_false_iff.1 (failedCheck_eq_none.1 h .v3 hrow))
  exact Nat.mul_le_mul_left 8 (Nat.le_of_not_gt hfits)

theorem canvasCount_le_of_checked {op : Op} {p : Config} {c : Conf} (hrow : Check.v4 ∈ checksOf op)
    (h : failedCheck op p c = none) : canvasCount c ≤ p.canvasPixMax :=
  Nat.le_of_not_gt (mt checkFails_v4.2 (Bool.eq_false_iff.1 (failedCheck_eq_none.1 h .v4 hrow)))

/-- What the checks of a decoding command bound (R84). -/
theorem decode_checks {op : Op} (hop : op = .decode ∨ op = .frame) :
    Check.v1 ∈ checksOf op ∧ Check.v2 ∈ checksOf op ∧ Check.v3 ∈ checksOf op := by
  rcases hop with rfl | rfl <;> decide

/-- What the checks of a composing command bound (R84). -/
theorem compose_checks {op : Op} (hop : op = .compose ∨ op = .frame) :
    Check.v2 ∈ checksOf op ∧ Check.v4 ∈ checksOf op := by
  rcases hop with rfl | rfl <;> decide

/-- The decoder's data, from the invariants of a decode and its checks. -/
theorem dataInv_of_lzwInv {s t : State} {op : Op} (h : DataInv s) (hop : op = .decode ∨ op = .frame)
    (hcheck : failedCheck op s.cfg s.snap = none) (hframe : t = { s with
      idxbuf := t.idxbuf, dict := t.dict, lzw := t.lzw, status := { s.status with stop := t.status.stop } })
    (hinv : LzwInv t) (hmems : DecodeMemsWf t) : DataInv t := by
  have hm := h.memsInv
  obtain ⟨-, hv2, hv3⟩ := decode_checks hop
  have hcfg : t.cfg = s.cfg := by rw [hframe]
  have hsnap : t.snap = s.snap := by rw [hframe]
  have hsize := pixelCount_le_of_checked hv2 hcheck
  have hbits := streamBits_le_of_checked hv3 hcheck
  have hout := hinv.outn
  have hpos := hinv.pos
  rw [hsnap] at hout hpos
  refine ⟨hcfg ▸ h.cfg, memsWf_iff.2 ⟨?_, ?_, ?_, hmems.idxbuf, ?_, ?_, ?_, ?_, hmems.dict⟩,
    ⟨hinv.width.2, hinv.count.2, by rw [hcfg]; omega, by rw [hcfg]; omega⟩, fun hsmall c str hstr => ?_⟩
  · rw [hframe]; exact hm.cdata
  · rw [hframe]; exact hm.gct
  · rw [hframe]; exact hm.lct
  · rw [hframe]; exact hm.rbuf
  · rw [hframe]; exact hm.canvas
  · rw [hframe]; exact hm.prev
  · rw [hframe]; exact hm.keep
  · have hsmall : s.cfg.pixMax < 8390656 := by rw [hcfg] at hsmall; exact hsmall
    exact entry_length_le hinv (by rw [hsnap]; omega) hstr

/-! ## The compositor keeps the form of its memories -/

section
variable {s t : State}

/-- A change of the canvas and the warnings alone. -/
theorem dataInv_of_canvas (h : DataInv s) (hframe : t = { s with warn := t.warn, canvas := t.canvas })
    (hcanvas : memWf s.cfg.canvasPixMax t.canvas = true) : DataInv t := by
  have hm := h.memsInv
  rw [hframe]
  exact ⟨h.cfg, memsWf_iff.2 ⟨hm.cdata, hm.gct, hm.lct, hm.idxbuf, hm.rbuf, hcanvas, hm.prev, hm.keep, hm.dict⟩,
    h.lzw, h.strings⟩

theorem memWf_seedBy {l : BitVec 3} (h : MemsInv s) (hsize : canvasCount s.snap ≤ s.cfg.canvasPixMax)
    (hseed : seedBy l s = .ok t) : memWf s.cfg.canvasPixMax t.canvas = true := by
  have hbackground : seedBackground s = .ok t → memWf s.cfg.canvasPixMax t.canvas = true := fun hbg => by
    obtain ⟨bg, -, hbg⟩ := bind_eq_ok.1 hbg
    cases hbg
    exact memWf_memFill hsize bg h.canvas
  have hcopy {name : MemName} {src : Mem Rgba} (hsrc : memWf s.cfg.canvasPixMax src = true)
      (hc : seedCopy name src s = .ok t) : memWf s.cfg.canvasPixMax t.canvas = true := by
    rw [seedCopy] at hc
    split at hc
    · cases hc
    · cases hc
      exact memWf_memCopy _ hsrc h.canvas
  rw [seedBy, seedKept] at hseed
  split_ifs at hseed
  · exact hcopy h.prev hseed
  · exact hcopy h.keep hseed
  · exact hbackground hseed
  · exact hbackground hseed

theorem memWf_paintCell {k j : Nat} {r : State × Nat} (h : MemsInv s) (hk : k < s.cfg.canvasPixMax)
    (hpaint : paintCell k j s = .ok r) : memWf s.cfg.canvasPixMax r.1.canvas = true := by
  rw [paintCell] at hpaint
  split at hpaint
  · obtain ⟨u, hu, hpaint⟩ := bind_eq_ok.1 hpaint
    cases hpaint
    rcases paintIndex_cases hu with ⟨-, rfl⟩ | ⟨b, -, -, rfl⟩ | ⟨b, -, -, -, rfl⟩ | ⟨b, c, -, -, -, -, rfl⟩
    · exact h.canvas
    · exact h.canvas
    · exact h.canvas
    · exact memWf_memSet h.canvas hk _
  · cases hpaint
    exact h.canvas

theorem dataInv_emitFrame (h : DataInv s) : DataInv (emitFrame s) := by
  have hm := h.memsInv
  refine ⟨h.cfg, memsWf_iff.2 ⟨hm.cdata, hm.gct, hm.lct, hm.idxbuf, hm.rbuf, hm.canvas,
    memWf_memCopy _ hm.canvas hm.prev, ?_, hm.dict⟩, h.lzw, h.strings⟩
  rw [emitFrame_keep]
  split
  · exact memWf_memCopy _ hm.canvas hm.keep
  · exact hm.keep

theorem dataInv_reorderRows (h : DataInv s) (hsize : pixelCount s.snap ≤ s.cfg.pixMax) : DataInv (reorderRows s) := by
  have hm := h.memsInv
  refine ⟨h.cfg, memsWf_iff.2 ⟨hm.cdata, hm.gct, hm.lct, hm.idxbuf, moveCells_wf hm.rbuf fun k hk => ?_, hm.canvas,
    hm.prev, hm.keep, hm.dict⟩, h.lzw, h.strings⟩
  exact (destCell_lt (List.mem_range.1 hk)).trans_le hsize

end

/-! ## The ends of a command -/

section
variable {s : State} (hdata : DataInv s)
include hdata

theorem inv_complete (hstatus : s.status.err = false ↔ s.status.errcode = .none) : Inv (complete s) :=
  .of_idle ⟨hdata.cfg, hdata.mems, hdata.lzw, hdata.strings⟩ rfl hstatus

theorem inv_raiseError {code : ErrCode} (hcode : code ≠ .none) : Inv (raiseError code s) :=
  .of_idle ⟨hdata.cfg, hdata.mems, hdata.lzw, hdata.strings⟩ rfl (iff_of_false Bool.noConfusion hcode)

end

theorem failedCheck_ne_none {op : Op} {p : Config} {c : Conf} {code : ErrCode} (h : failedCheck op p c = some code) :
    code ≠ .none := by
  obtain ⟨k, -, rfl⟩ := Option.map_eq_some_iff.1 h
  cases k <;> exact nofun

/-- A command whose first step is its checks and then some work keeps the invariant if that work does. -/
theorem keeps_checked {op : Op} {s t : State} {work : State → Except Fault State} (h : Inv s)
    (hstep : checked op work s = .ok t)
    (hwork : failedCheck op s.cfg s.snap = none → work s = .ok t → Keeps s t) : Keeps s t := by
  rcases checked_cases hstep with ⟨code, hcode, rfl⟩ | ⟨hpass, hstep⟩
  · exact ⟨inv_raiseError h.data (failedCheck_ne_none hcode), rfl⟩
  · exact hwork hpass hstep

/-! ## The engine's steps -/

/-- What the invariant says of a running command. -/
theorem Inv.busy_facts {s : State} {op : Op} {p : Point} (h : Inv s) (hphase : s.phase = .busy op p) :
    (s.status.done = false ∧ s.status.err = false ∧ s.status.errcode = .none) ∧ pointOk op p = true ∧
      (p ≠ .start → failedCheck op s.cfg s.snap = none) := by
  have hpoint := h.phase
  rw [phaseInv, hphase] at hpoint
  exact ⟨h.status.1 (by rw [busy, hphase]; rfl), hpoint⟩

section
variable {s : State} {op : Op} {p : Point} (h : Inv s) (hphase : s.phase = .busy op p)
include h hphase

/-- A move to another sub-phase of the same command. -/
theorem keeps_setPhase {p' : Point} {u : State} (hp : p ≠ .start) (hdata : DataInv u) (hcfg : u.cfg = s.cfg)
    (hsnap : u.snap = s.snap) (hstatus : u.status = { s.status with stop := u.status.stop })
    (hpoint : pointOk op p' = true) (hdecode : decodeInv (setPhase (.busy op p') u)) :
    Keeps s (setPhase (.busy op p') u) := by
  obtain ⟨hflags, -, hcheck⟩ := h.busy_facts hphase
  refine ⟨.of_busy ⟨hdata.cfg, hdata.mems, hdata.lzw, hdata.strings⟩ rfl ?_ hpoint (fun _ => ?_) hdecode, hcfg⟩
  · rw [setPhase_status, hstatus]
    exact hflags
  · rw [setPhase_cfg, setPhase_snap, hcfg, hsnap]
    exact hcheck hp

/-- Completion of a running command. -/
theorem keeps_complete {u : State} (hdata : DataInv u) (hcfg : u.cfg = s.cfg)
    (hstatus : u.status = { s.status with stop := u.status.stop }) : Keeps s (complete u) := by
  obtain ⟨⟨-, herr, hcode⟩, -⟩ := h.busy_facts hphase
  refine ⟨inv_complete hdata ?_, hcfg⟩
  rw [hstatus]
  exact iff_of_true herr hcode

end

section
variable {s t : State} {op : Op} (h : Inv s)
include h

theorem keeps_oneStep (hphase : s.phase = .busy op .start) (hop : op.isOneStep = true)
    (hstep : commandBody op s = .ok t) : Keeps s t := by
  have hdata := h.data
  cases op
  case nop =>
    cases hstep
    exact keeps_complete h hphase hdata rfl rfl
  case sreset =>
    cases hstep
    refine ⟨inv_complete ⟨hdata.cfg, hdata.mems, ?_, hdata.strings⟩ (iff_of_true rfl rfl), rfl⟩
    exact ⟨Nat.zero_le _, Nat.zero_le _, Nat.zero_le _, Nat.zero_le _⟩
  case newstream =>
    cases hstep
    exact keeps_complete h hphase ⟨hdata.cfg, hdata.mems, hdata.lzw, hdata.strings⟩ rfl rfl
  case bitread =>
    refine keeps_checked h hstep fun _ hstep => ?_
    obtain ⟨v, -, hstep⟩ := bind_eq_ok.1 hstep
    cases hstep
    exact keeps_complete h hphase ⟨hdata.cfg, hdata.mems, hdata.lzw, hdata.strings⟩ rfl rfl
  case reorder =>
    rw [commandBody, reorderBody] at hstep
    refine keeps_checked h hstep fun hpass hstep => ?_
    cases hstep
    exact keeps_complete h hphase (dataInv_reorderRows hdata (pixelCount_le_of_checked (by decide) hpass)) rfl rfl
  case decode | compose | frame => exact absurd hop Bool.false_ne_true

/-- The start of a decode establishes its invariants (R99). -/
theorem keeps_lzwStart (hphase : s.phase = .busy op .start) (hop : op = .decode ∨ op = .frame)
    (hpass : failedCheck op s.cfg s.snap = none) : Keeps s (setPhase (.busy op .lzw) (lzwStart s)) := by
  obtain ⟨hv1, -, -⟩ := decode_checks hop
  have hlo : 2 ≤ s.cfg.mcsLo := by
    have hvalid := h.cfg
    simp only [Config.valid, Bool.and_eq_true, decide_eq_true_eq] at hvalid
    exact hvalid.2.1
  have hmcs := mcs_of_checked hv1 hlo hpass
  have hinv : LzwInv (lzwStart s) := lzwInv_lzwStart hmcs
  have hstop : s.status.stop = .none := by
    have hdecode := h.decode
    rw [decodeInv, hphase] at hdecode
    exact hdecode hop
  have hdata : DataInv (lzwStart s) := dataInv_of_lzwInv h.data hop hpass rfl hinv
    ⟨rfl, memWf_literals (s := { s with idxbuf := [], lzw := { s.lzw with outn := 0, pos := 0, p := none } }) hmcs.2⟩
  refine ⟨.of_busy ⟨hdata.cfg, hdata.mems, hdata.lzw, hdata.strings⟩ rfl (h.busy_facts hphase).1 ?_ (fun _ => hpass)
    ⟨lzwInv_congr hinv rfl rfl rfl rfl, hstop⟩, rfl⟩
  rcases hop with rfl | rfl <;> rfl

theorem keeps_start (hphase : s.phase = .busy op .start) (hstep : startStep op s = .ok t) : Keeps s t := by
  cases op
  case nop | sreset | newstream | bitread | reorder => exact keeps_oneStep h hphase rfl hstep
  case decode =>
    rw [startStep] at hstep
    refine keeps_checked h hstep fun hpass hstep => ?_
    cases hstep
    exact keeps_lzwStart h hphase (.inl rfl) hpass
  case frame =>
    rw [startStep] at hstep
    refine keeps_checked h hstep fun hpass hstep => ?_
    cases hstep
    exact keeps_lzwStart h hphase (.inr rfl) hpass
  case compose =>
    rw [startStep] at hstep
    refine keeps_checked h hstep fun hpass hstep => ?_
    cases hstep
    have hdata := h.data
    exact ⟨.of_busy ⟨hdata.cfg, hdata.mems, hdata.lzw, hdata.strings⟩ rfl (h.busy_facts hphase).1 rfl (fun _ => hpass)
      trivial, rfl⟩

theorem decode_of_pointOk (hphase : s.phase = .busy op .lzw ∨ s.phase = .busy op .lzwEnd ∨ s.phase = .busy op .lzwExit) :
    (op = .decode ∨ op = .frame) ∧ LzwInv s ∧ failedCheck op s.cfg s.snap = none := by
  have hdecode := h.decode
  rw [decodeInv] at hdecode
  rcases hphase with hp | hp | hp <;> rw [hp] at hdecode <;>
    obtain ⟨-, hpoint, hcheck⟩ := h.busy_facts hp <;>
    exact ⟨by simpa [pointOk] using hpoint, hdecode.1, hcheck nofun⟩

theorem keeps_lzw (hphase : s.phase = .busy op .lzw) (hstep : lzwStep s = .ok t) : Keeps s (afterCode op t) := by
  obtain ⟨hop, hinv, hcheck⟩ := decode_of_pointOk h (.inl hphase)
  have hm := h.data.memsInv
  have hframe := (lzwStep_frame hstep).1
  have hinv' := lzwInv_lzwStep hinv hstep
  have hsize := pixelCount_le_of_checked (decode_checks hop).2.1 hcheck
  have hdata := dataInv_of_lzwInv h.data hop hcheck hframe hinv'
    (decodeMemsWf_lzwStep hinv hsize ⟨hm.idxbuf, hm.dict⟩ hstep)
  have hcfg : t.cfg = s.cfg := by rw [hframe]
  have hsnap : t.snap = s.snap := by rw [hframe]
  have hstatus : t.status = { s.status with stop := t.status.stop } := congrArg State.status hframe
  have hpoint := (h.busy_facts hphase).2.1
  rw [afterCode]
  by_cases hstop : t.status.stop = .none
  · have hself : setPhase (.busy op .lzw) t = t := setPhase_of_phase (by rw [hframe]; exact hphase)
    rw [if_pos hstop, ← hself]
    exact keeps_setPhase h hphase nofun hdata hcfg hsnap hstatus hpoint ⟨lzwInv_congr hinv' rfl rfl rfl rfl, hstop⟩
  · rw [if_neg hstop]
    exact keeps_setPhase h hphase nofun hdata hcfg hsnap hstatus hpoint ⟨lzwInv_congr hinv' rfl rfl rfl rfl, hstop⟩

theorem keeps_lzwEnd (hphase : s.phase = .busy op .lzwEnd) :
    Keeps s (setPhase (.busy op .lzwExit) (underrunCheck s)) := by
  have hdecode := h.decode
  rw [decodeInv, hphase] at hdecode
  have hdata := h.data
  rw [underrunCheck_eq]
  exact keeps_setPhase h hphase nofun ⟨hdata.cfg, hdata.mems, hdata.lzw, hdata.strings⟩ rfl rfl rfl
    (h.busy_facts hphase).2.1 ⟨lzwInv_congr hdecode.1 rfl rfl rfl rfl, hdecode.2⟩

theorem keeps_lzwExit (hphase : s.phase = .busy op .lzwExit) : Keeps s (lzwExit op s) := by
  rw [lzwExit]
  split_ifs with hstop hframe
  · exact ⟨inv_raiseError h.data nofun, rfl⟩
  · exact keeps_setPhase h hphase nofun h.data rfl rfl rfl (by rw [hframe]; rfl) trivial
  · exact keeps_complete h hphase h.data rfl rfl

theorem keeps_reorder (hphase : s.phase = .busy op .reorder) :
    Keeps s (setPhase (.busy op .resolve) (reorderRows s)) := by
  obtain ⟨-, hpoint, hcheck⟩ := h.busy_facts hphase
  have hop : op = .frame := by simpa [pointOk] using hpoint
  subst hop
  exact keeps_setPhase h hphase nofun
    (dataInv_reorderRows h.data (pixelCount_le_of_checked (by decide) (hcheck nofun))) rfl rfl rfl rfl trivial

theorem canvas_of_pointOk {p : Point} (hphase : s.phase = .busy op p) (hp : p ≠ .start)
    (hpoint : pointOk op p = (op == .compose || op == .frame)) : canvasCount s.snap ≤ s.cfg.canvasPixMax := by
  obtain ⟨-, hok, hcheck⟩ := h.busy_facts hphase
  rw [hpoint] at hok
  exact canvasCount_le_of_checked (compose_checks (by simpa using hok)).2 (hcheck hp)

theorem keeps_seed (hphase : s.phase = .busy op .seed) (hstep : seedBy s.frameInfo.lastDisp s = .ok t) :
    Keeps s (setPhase (.busy op (.paint 0 0)) t) := by
  have hframe := seedBy_frame hstep
  have hcanvas := memWf_seedBy h.data.memsInv (canvas_of_pointOk h hphase nofun rfl) hstep
  have hdata : DataInv t := dataInv_of_canvas h.data (hframe.trans (by rw [hframe])) hcanvas
  exact keeps_setPhase h hphase nofun hdata (by rw [hframe]) (by rw [hframe]) (by rw [hframe])
    (h.busy_facts hphase).2.1 trivial

theorem keeps_paint {k j : Nat} {r : State × Nat} (hphase : s.phase = .busy op (.paint k j))
    (hk : k < canvasCount s.snap) (hstep : paintCell k j s = .ok r) :
    Keeps s (setPhase (.busy op (.paint (k + 1) r.2)) r.1) := by
  have hframe := (paintCell_frame hstep).1
  have hsize := canvas_of_pointOk h hphase nofun rfl
  have hdata := dataInv_of_canvas h.data hframe (memWf_paintCell h.data.memsInv (hk.trans_le hsize) hstep)
  exact keeps_setPhase h hphase nofun hdata (by rw [hframe]) (by rw [hframe]) (by rw [hframe])
    (h.busy_facts hphase).2.1 trivial

/-- Every step of the engine keeps the invariant, wherever it stands. -/
theorem keeps_engineStep (hstep : engineStep s = .ok t) : Keeps s t := by
  cases hphase : s.phase with
  | idle =>
    rw [engineStep, hphase] at hstep
    cases hstep
    exact ⟨h, rfl⟩
  | busy op p =>
    have hpoint := (h.busy_facts hphase).2.1
    rw [engineStep, hphase] at hstep
    cases p
    case start => exact keeps_start h hphase hstep
    case lzw =>
      obtain ⟨u, hu, hstep⟩ := bind_eq_ok.1 hstep
      cases hstep
      exact keeps_lzw h hphase hu
    case lzwEnd => cases hstep; exact keeps_lzwEnd h hphase
    case lzwExit => cases hstep; exact keeps_lzwExit h hphase
    case reorder => cases hstep; exact keeps_reorder h hphase
    case resolve =>
      obtain ⟨bg, -, hstep⟩ := bind_eq_ok.1 hstep
      cases hstep
      exact keeps_setPhase h hphase nofun h.data rfl rfl rfl hpoint trivial
    case seed =>
      obtain ⟨u, hu, hstep⟩ := bind_eq_ok.1 hstep
      cases hstep
      exact keeps_seed h hphase hu
    case paint k j =>
      change (if k < canvasCount s.snap then _ else _) = _ at hstep
      split at hstep
      · obtain ⟨r, hr, hstep⟩ := bind_eq_ok.1 hstep
        cases hstep
        exact keeps_paint h hphase ‹_› hr
      · cases hstep
        exact keeps_setPhase h hphase nofun h.data rfl rfl rfl hpoint trivial
    case emit =>
      cases hstep
      exact keeps_complete h hphase (dataInv_emitFrame h.data) rfl rfl

end

theorem keeps_engineRun {n : Nat} {s t : State} (h : Inv s) (hrun : engineRun n s = .ok t) : Keeps s t := by
  induction n generalizing s with
  | zero =>
    cases hrun
    exact ⟨h, rfl⟩
  | succ n ih =>
    obtain ⟨u, hu, hrun⟩ := bind_eq_ok.1 hrun
    have hstep := keeps_engineStep h hu
    have hrest := ih hstep.inv hrun
    exact ⟨hrest.inv, hrest.cfg.trans hstep.cfg⟩

/-! ## A CMD write (R83) -/

section
variable {s : State} (h : Inv s)
include h

theorem keeps_setOvr : Keeps s (setOvr s) :=
  have hdata := h.data
  ⟨h.of_decoder_kept ⟨hdata.cfg, hdata.mems, hdata.lzw, hdata.strings⟩ h.status rfl rfl rfl rfl rfl rfl rfl, rfl⟩

theorem keeps_rejectCommand : Keeps s (rejectCommand s) :=
  have hdata := h.data
  ⟨inv_raiseError (s := clearStatus s) ⟨hdata.cfg, hdata.mems, hdata.lzw, hdata.strings⟩ nofun, rfl⟩

theorem keeps_accept (op : Op) : Keeps s (accept op s) := by
  have hdata := h.data
  rw [accept_eq]
  exact ⟨.of_busy ⟨hdata.cfg, hdata.mems, hdata.lzw, hdata.strings⟩ rfl ⟨rfl, rfl, rfl⟩ (by cases op <;> rfl)
    (fun hne => absurd rfl hne) fun hop => if_pos hop, rfl⟩

theorem keeps_acceptWord (w : Word) : Keeps s (acceptWord w s) := by
  rw [acceptWord]
  split
  · exact keeps_setOvr h
  · split
    · exact keeps_accept h _
    · exact keeps_rejectCommand h

end

theorem decodeCommand_cases (w : Word) : (∃ op, decodeCommand w = instrOf op) ∨
    (∃ r, decodeCommand w = .reservedOp r) ∨ ∃ r o, decodeCommand w = .reservedRes r o := by
  rw [decodeCommand]
  split
  · exact .inr (.inr ⟨_, _, rfl⟩)
  · split
    · exact .inl ⟨.nop, rfl⟩
    · exact .inl ⟨.sreset, rfl⟩
    · exact .inl ⟨.newstream, rfl⟩
    · exact .inl ⟨.bitread, rfl⟩
    · exact .inl ⟨.decode, rfl⟩
    · exact .inl ⟨.reorder, rfl⟩
    · exact .inl ⟨.compose, rfl⟩
    · exact .inl ⟨.frame, rfl⟩
    · exact .inr (.inl ⟨_, rfl⟩)

theorem keeps_runReserved {s t : State} (h : Inv s) (hrun : runReserved s = .next t) : Keeps s t := by
  rw [runReserved] at hrun
  split at hrun
  · cases hrun
    exact keeps_setOvr h
  · cases hrun
    exact keeps_rejectCommand h

/-- A whole command keeps the invariant, because its engine steps do (R83). -/
theorem keeps_command {s t : State} {w : Word} (h : Inv s) (hexec : exec (decodeCommand w) s = .next t) : Keeps s t := by
  rcases decodeCommand_cases w with ⟨op, hop⟩ | ⟨r, hop⟩ | ⟨r, o, hop⟩
  · rw [hop, exec_instrOf, runCommand] at hexec
    split at hexec
    · cases hexec
      exact keeps_setOvr h
    · have haccept := keeps_accept h op
      obtain ⟨n, hn⟩ := engineStepsRefineCommands op s
      have hrun := keeps_engineRun haccept.inv (hn.trans (asOutcome_eq_next.1 hexec))
      exact ⟨hrun.inv, hrun.cfg.trans haccept.cfg⟩
  · rw [hop] at hexec
    exact keeps_runReserved h hexec
  · rw [hop] at hexec
    exact keeps_runReserved h hexec

/-! ## The host's other operations -/

theorem placeAt_table_lt {off i : Nat} (h : placeAt off = .gct i ∨ placeAt off = .lct i) : i < Config.ctMax := by
  unfold placeAt at h
  have hct : Config.ctMax = 256 := rfl
  split_ifs at h <;> simp at h <;> omega

theorem locate_table_lt {c : Config} {addr width i : Nat}
    (h : locate c addr width = .ok (.gct i) ∨ locate c addr width = .ok (.lct i)) : i < Config.ctMax := by
  rw [locate] at h
  split_ifs at h
  · simp at h
  · simp at h
  · simp only [Except.ok.injEq] at h
    exact placeAt_table_lt h

theorem accessPlace_eq_ok {s : State} {addr width : Nat} {p : Place} (h : accessPlace s addr width = .ok p) :
    locate s.cfg addr width = .ok p := by
  obtain ⟨q, hq, h⟩ := bind_eq_ok.1 h
  split at h
  · cases h
  · cases h
    exact hq

theorem memWf_writeCdata {size k : Nat} {v : Word} {m : Mem Byte} (h : memWf size m = true) :
    memWf size (writeCdata size k v m) = true := by
  have hlane (j : Nat) {m : Mem Byte} (h : memWf size m = true) : memWf size (writeLane size k v j m) = true := by
    rw [writeLane]
    split
    · exact memWf_memSet h ‹_› _
    · exact h
  exact hlane 3 (hlane 2 (hlane 1 (hlane 0 h)))

/-- A read changes the count of draws alone (R61). -/
theorem busRead_state {s : State} {addr width : Nat} {r : Word × State} (hread : busRead addr width s = .ok r) :
    r.2 = { s with draws := s.draws + 1 } := by
  obtain ⟨p, -, hread⟩ := bind_eq_ok.1 hread
  cases hread
  rfl

section
variable {s : State} (h : Inv s)
include h

/-- A change of nothing that the invariant speaks of. -/
theorem keeps_outside {conf : Conf} {warn : Warn} {host : List HostOp} {sched : List Agent} {replies : List Word}
    {draws : Nat} : Keeps s { s with
      conf := conf, warn := warn, host := host, sched := sched, replies := replies, draws := draws } :=
  have hdata := h.data
  ⟨h.of_decoder_kept ⟨hdata.cfg, hdata.mems, hdata.lzw, hdata.strings⟩ h.status rfl rfl rfl rfl rfl rfl rfl, rfl⟩

theorem keeps_acknowledge (v : Word) : Keeps s (acknowledge v s) := by
  have hdata := h.data
  obtain ⟨hbusy, herr⟩ := h.status
  refine ⟨h.of_decoder_kept ⟨hdata.cfg, hdata.mems, hdata.lzw, hdata.strings⟩ ⟨fun hb => ?_, herr⟩ rfl rfl rfl rfl rfl rfl
    rfl, rfl⟩
  obtain ⟨hdone, hflags⟩ := hbusy hb
  exact ⟨by rw [acknowledge_status, statusW1c, hdone, Bool.false_and], hflags⟩

theorem keeps_regWrite (r : Reg) (v : Word) : Keeps s (regWrite r v s) := by
  cases r
  case cmd => exact keeps_acceptWord h v
  case status => exact keeps_acknowledge h v
  all_goals exact keeps_outside h

/-- A change of the memories the host writes. -/
theorem keeps_hostMems {cdata : Mem Byte} {gct lct : Mem Rgb} (hcdata : memWf s.cfg.cdataBytes cdata = true)
    (hgct : memWf Config.ctMax gct = true) (hlct : memWf Config.ctMax lct = true) :
    Keeps s { s with cdata := cdata, gct := gct, lct := lct } := by
  have hdata := h.data
  have hm := hdata.memsInv
  have hmems : MemsInv { s with cdata := cdata, gct := gct, lct := lct } :=
    ⟨hcdata, hgct, hlct, hm.idxbuf, hm.rbuf, hm.canvas, hm.prev, hm.keep, hm.dict⟩
  exact ⟨h.of_decoder_kept ⟨hdata.cfg, memsWf_iff.2 hmems, hdata.lzw, hdata.strings⟩ h.status rfl rfl rfl rfl rfl rfl rfl,
    rfl⟩

theorem keeps_busWrite {t : State} {addr width : Nat} {v : Word} (hwrite : busWrite addr width v s = .ok t) :
    Keeps s t := by
  have hm := h.data.memsInv
  obtain ⟨p, hp, hwrite⟩ := bind_eq_ok.1 hwrite
  have hloc := accessPlace_eq_ok hp
  cases hwrite
  cases p
  case register r => exact keeps_regWrite h r v
  case gct i => exact keeps_hostMems h hm.cdata (memWf_memSet hm.gct (locate_table_lt (.inl hloc)) _) hm.lct
  case lct i => exact keeps_hostMems h hm.cdata hm.gct (memWf_memSet hm.lct (locate_table_lt (.inr hloc)) _)
  case cdata k => exact keeps_hostMems h (memWf_writeCdata hm.cdata) hm.gct hm.lct
  case idxbuf | rbuf | out | reserved | outside => exact ⟨h, rfl⟩

theorem inv_powerOn : Inv (powerOn s) :=
  .of_idle ⟨h.cfg, rfl, ⟨Nat.zero_le _, Nat.zero_le _, Nat.zero_le _, Nat.zero_le _⟩, fun _ _ _ hstr => nomatch hstr⟩
    rfl (iff_of_true rfl rfl)

theorem keeps_hostAct {t : State} {op : HostOp} (hact : hostAct op s = .ok t) : Keeps s t := by
  cases op
  case write addr width v => exact keeps_busWrite h hact
  case powerOnReset =>
    cases hact
    exact ⟨inv_powerOn h, rfl⟩
  case read addr width =>
    obtain ⟨r, hr, hact⟩ := bind_eq_ok.1 hact
    cases hact
    rw [reply, busRead_state hr]
    exact keeps_outside h
  case poll addr mask value =>
    obtain ⟨r, hr, hact⟩ := bind_eq_ok.1 hact
    cases hact
    rw [busRead_state hr]
    split <;> exact keeps_outside h
  case quitIf addr mask =>
    obtain ⟨r, hr, hact⟩ := bind_eq_ok.1 hact
    cases hact
    rw [reply, busRead_state hr]
    split <;> exact keeps_outside h

end

/-! ## The statements -/

/-- Settles O57: every memory is empty, every number 0. -/
theorem resetMeetsInvariant : Obligations.ResetMeetsInvariant := by
  unfold Obligations.ResetMeetsInvariant
  exact .of_idle ⟨by decide, rfl, ⟨Nat.zero_le _, Nat.zero_le _, Nat.zero_le _, Nat.zero_le _⟩,
    fun _ _ _ hstr => nomatch hstr⟩ rfl (iff_of_true rfl rfl)

/-- Settles O58: taking the turn and the operation changes nothing the invariant speaks of, and what the step does then
keeps it, a whole command by its engine steps. -/
theorem stepKeepsInvariant : Obligations.StepKeepsInvariant := by
  unfold Obligations.StepKeepsInvariant
  intro s t h hstep
  have hturn : Inv (popTurn s) := (keeps_outside h).inv
  have htaken (rest : List HostOp) : Inv (takeOp rest s) := (keeps_outside h).inv
  have hkeeps : Keeps s t := by
    rcases step_cases hstep with ⟨-, hengine⟩ | ⟨-, -, rfl⟩ | ⟨-, op, rest, -, ⟨w, -, ⟨-, hexec⟩ | ⟨-, rfl⟩⟩ | ⟨-, hact⟩⟩
    · have hk := keeps_engineStep hturn hengine
      exact ⟨hk.inv, hk.cfg⟩
    · exact ⟨hturn, rfl⟩
    · have hk := keeps_command (htaken rest) hexec
      exact ⟨hk.inv, hk.cfg⟩
    · have hk := keeps_acceptWord (htaken rest) w
      exact ⟨hk.inv, hk.cfg⟩
    · have hk := keeps_hostAct (htaken rest) hact
      exact ⟨hk.inv, hk.cfg⟩
  exact ⟨hkeeps.inv, hkeeps.cfg⟩

end Sys2Proof.Machine
end
